-- ==== Sys2Proof/Word.lean ====
section
/-! DEFINITION. The word types of the block (00_scope.md R8): a byte, the 32-bit command word (also
the width of `CTRL` and `STATUS`) and the 128-bit operand and result. -/

namespace Sys2Proof

/-- A byte: 8 bits (R8). -/
abbrev Byte := BitVec 8

/-- The command word `cmd`, and the registers `CTRL` and `STATUS`: 32 bits (R8, R26). -/
abbrev Word := BitVec 32

/-- The operand `opv`, the scalar `rv`, an item of `rlist`, and the `info` of an I/O error: 128 bits (R8, R81, R30). -/
abbrev Quad := BitVec 128

end Sys2Proof
end

