-- ==== Sys2Proof/Syntax.lean ====
section
/-! DEFINITION. The 34 commands of 30_encoding.md R84 as syntax, one constructor per row of
spec/opcode_table.json, and the pseudo-instructions of R87. -/

namespace Sys2Proof

/-- A command as the host presents it (30_encoding.md R80): the pair of a 32-bit command word and a
128-bit operand value. -/
structure Command where
  cmd : Word
  opv : Quad
deriving DecidableEq, Repr

/-- Buffer select, field `b` (R82). -/
inductive Buf where
  | wbuf
  | rbuf
deriving DecidableEq, Repr

/-- Numeric width select, field `wsel` 0 to 4 (00_scope.md R6). -/
inductive Width where
  | w8
  | w16
  | w32
  | w64
  | w128
deriving DecidableEq, Repr

/-- `W = 8 << wsel` (R6). -/
def Width.bits : Width → Nat
  | .w8 => 8
  | .w16 => 16
  | .w32 => 32
  | .w64 => 64
  | .w128 => 128

/-- The control and status registers by number, field `reg` 0 to 2 (10_state.md R26). -/
inductive Reg where
  | ctrl
  | status
  | cur
deriving DecidableEq, Repr

/-- One constructor per row of the opcode map R84. A command that reads `opv` carries all 128 bits
of it: which bits it reads is its meaning's concern (R83). -/
inductive Instr where
  -- system
  | setctl (ctl : BitVec 2)
  | rdreg (reg : Reg)
  | sreset
  -- bit buffer
  | push (b : Buf) (bit : Bool)
  | pushb (b : Buf) (byte : Byte)
  | ext (b : Buf) (n : Nat) (opv : Quad)
  | bload (b : Buf) (opv : Quad)
  | tobits (b : Buf)
  | tobytes (b : Buf)
  | len (b : Buf)
  | isempty (b : Buf)
  | clear (b : Buf)
  | cap (b : Buf)
  | reserve (b : Buf) (opv : Quad)
  -- writer and reader
  | wfin
  | rread
  -- unary
  | uenc (w : Width) (opv : Quad)
  | udec1 (w : Width)
  | udecn (w : Width)
  | udecs (w : Width)
  -- gamma
  | genc (w : Width) (opv : Quad)
  | gdec1 (w : Width)
  | gdecn (w : Width)
  | gdecs (w : Width)
  -- delta
  | denc (w : Width) (opv : Quad)
  | ddec1 (w : Width)
  | ddecn (w : Width)
  | ddecs (w : Width)
  -- Variable-Byte
  | vbenc (w : Width) (opv : Quad)
  | vbdec1 (w : Width)
  | vbdecs (w : Width)
  -- numeric support
  | clz (w : Width) (opv : Quad)
  | top (opv : Quad)
  | popcnt (w : Width) (opv : Quad)
deriving DecidableEq, Repr

/-- The pseudo-instructions of 30_encoding.md R87. -/
inductive Pseudo where
  | wbit (bit : Bool)
  | wbits (n : Nat) (value : Quad)
  | senton
  | sentoff
  | uencList (w : Width) (values : List Quad)
  | gencList (w : Width) (values : List Quad)
  | dencList (w : Width) (values : List Quad)
  | vbencList (w : Width) (values : List Quad)
deriving DecidableEq, Repr

/-- One line of assembler text, taken apart into the parts of 30_encoding.md R86:
`MNEMONIC[.w8|.w16|.w32|.w64|.w128] [wb|rb] [, #imm] [, value]`. -/
structure AsmLine where
  mnemonic : String
  suffix : Option Width
  buf : Option Buf
  imm : Option Nat
  value : Option Quad
deriving DecidableEq, Repr

end Sys2Proof
end

