-- ==== Sys2Proof/WellFormed.lean ====
section
/-! DEFINITION. The checks on a command that its constructors do not already make. `wsel` 5 to 7
and `reg` 3 have no constructor to stand for them (Width, Reg); what is left is the bit count of
`EXT`. -/

namespace Sys2Proof

/-- Field constraints of 30_encoding.md R84 and R82: `n <= 128` on `EXT`. Every other command is
well formed with every operand. -/
abbrev Instr.WellFormed : Instr → Prop
  | .ext _ n _ => n ≤ 128
  | .setctl _ | .rdreg _ | .sreset | .push _ _ | .pushb _ _ | .bload _ _ | .tobits _ | .tobytes _
  | .len _ | .isempty _ | .clear _ | .cap _ | .reserve _ _ | .wfin | .rread
  | .uenc _ _ | .udec1 _ | .udecn _ | .udecs _ | .genc _ _ | .gdec1 _ | .gdecn _ | .gdecs _
  | .denc _ _ | .ddec1 _ | .ddecn _ | .ddecs _ | .vbenc _ _ | .vbdec1 _ | .vbdecs _
  | .clz _ _ | .top _ | .popcnt _ _ => True

end Sys2Proof
end

