-- ==== Sys2Proof/Decode.lean ====
section
/-! DEFINITION. Decoding and encoding of command words (30_encoding.md R82 to R85).

A command has one length, a 32-bit word and a 128-bit operand (R80), and neither has a byte order
(20_memory.md R52 clause e), so the decoder reads the pair and not a list of bytes. The opcode map
is a list of rows with match and mask, as R84 prints it; a word that selects no row, or whose
fields break the row's constraint, is illegal (R85). -/

namespace Sys2Proof

/-! ## Fields of the command word (R82) -/

/-- Field `op`, bits 31:24. -/
def Command.op (c : Command) : BitVec 8 := c.cmd.extractLsb' 24 8

/-- Field `wsel`, bits 23:21. -/
def Command.wsel (c : Command) : BitVec 3 := c.cmd.extractLsb' 21 3

/-- Field `b`, bit 20: 0 is `WBUF`, 1 is `RBUF`. -/
def Command.buf (c : Command) : Buf := if c.cmd.getLsbD 20 then .rbuf else .wbuf

/-- Sub-field `bit = imm[0]`. -/
def Command.bit (c : Command) : Bool := c.cmd.getLsbD 0

/-- Sub-fields `byte = imm[7:0]` and `n = imm[7:0]`. -/
def Command.byte (c : Command) : Byte := c.cmd.extractLsb' 0 8

/-- Sub-fields `ctl = imm[1:0]` and `reg = imm[1:0]`. -/
def Command.two (c : Command) : BitVec 2 := c.cmd.extractLsb' 0 2

/-- `wsel` 0 to 4 select a width; 5, 6, 7 are illegal (00_scope.md R6). -/
def widthOf (sel : BitVec 3) : Option Width :=
  if sel = 0 then some .w8
  else if sel = 1 then some .w16
  else if sel = 2 then some .w32
  else if sel = 3 then some .w64
  else if sel = 4 then some .w128
  else none

/-- Register numbers 0, 1, 2; number 3 does not exist (10_state.md R26). -/
def regOf (r : BitVec 2) : Option Reg :=
  if r = 0 then some .ctrl
  else if r = 1 then some .status
  else if r = 2 then some .cur
  else none

/-! ## The opcode map (R84) -/

/-- One row of the opcode map: a word selects it when `cmd & mask = pattern` (the spec's column
`match`), and `build` reads the row's fields, answering none where a field constraint fails. -/
structure Row where
  mnemonic : String
  pattern : Word
  mask : Word
  build : Command → Option Instr

/-- The selection test of R84: `(cmd & mask) = match`. -/
def Row.selects (r : Row) (cmd : Word) : Bool := cmd &&& r.mask == r.pattern

/-- A row of format `N` or `B` or `S` whose fields are always legal. -/
def rowOf (mnemonic : String) (pattern mask : Word) (f : Command → Instr) : Row :=
  ⟨mnemonic, pattern, mask, fun c => some (f c)⟩

/-- A row of format `W`: constraint `wsel <= 4`. -/
def rowW (mnemonic : String) (pattern : Word) (f : Width → Quad → Instr) : Row :=
  ⟨mnemonic, pattern, 0xFF1FFFFF, fun c => (widthOf c.wsel).map (f · c.opv)⟩

/-- System commands, `op` 0x01 to 0x03. -/
def systemRows : List Row :=
  [ rowOf "SETCTL" 0x01000000 0xFFFFFFFC (fun c => .setctl c.two),
    ⟨"RDREG", 0x02000000, 0xFFFFFFFC, fun c => (regOf c.two).map .rdreg⟩,
    rowOf "SRESET" 0x03000000 0xFFFFFFFF (fun _ => .sreset) ]

/-- Bit buffer commands, `op` 0x10 to 0x1A. -/
def bufferRows : List Row :=
  [ rowOf "PUSH" 0x10000000 0xFFEFFFFE (fun c => .push c.buf c.bit),
    rowOf "PUSHB" 0x11000000 0xFFEFFF00 (fun c => .pushb c.buf c.byte),
    ⟨"EXT", 0x12000000, 0xFFEFFF00,
      fun c => if c.byte.toNat ≤ 128 then some (.ext c.buf c.byte.toNat c.opv) else none⟩,
    rowOf "BLOAD" 0x13000000 0xFFEFFFFF (fun c => .bload c.buf c.opv),
    rowOf "TOBITS" 0x14000000 0xFFEFFFFF (fun c => .tobits c.buf),
    rowOf "TOBYTES" 0x15000000 0xFFEFFFFF (fun c => .tobytes c.buf),
    rowOf "LEN" 0x16000000 0xFFEFFFFF (fun c => .len c.buf),
    rowOf "ISEMPTY" 0x17000000 0xFFEFFFFF (fun c => .isempty c.buf),
    rowOf "CLEAR" 0x18000000 0xFFEFFFFF (fun c => .clear c.buf),
    rowOf "CAP" 0x19000000 0xFFEFFFFF (fun c => .cap c.buf),
    rowOf "RESERVE" 0x1A000000 0xFFEFFFFF (fun c => .reserve c.buf c.opv) ]

/-- Writer and reader, `op` 0x20 and 0x21. -/
def streamRows : List Row :=
  [ rowOf "WFIN" 0x20000000 0xFFFFFFFF (fun _ => .wfin),
    rowOf "RREAD" 0x21000000 0xFFFFFFFF (fun _ => .rread) ]

/-- The three bit-sequence codecs, `op` 0x30 to 0x53. -/
def codecRows : List Row :=
  [ rowW "UENC" 0x30000000 .uenc,
    rowW "UDEC1" 0x31000000 (fun w _ => .udec1 w),
    rowW "UDECN" 0x32000000 (fun w _ => .udecn w),
    rowW "UDECS" 0x33000000 (fun w _ => .udecs w),
    rowW "GENC" 0x40000000 .genc,
    rowW "GDEC1" 0x41000000 (fun w _ => .gdec1 w),
    rowW "GDECN" 0x42000000 (fun w _ => .gdecn w),
    rowW "GDECS" 0x43000000 (fun w _ => .gdecs w),
    rowW "DENC" 0x50000000 .denc,
    rowW "DDEC1" 0x51000000 (fun w _ => .ddec1 w),
    rowW "DDECN" 0x52000000 (fun w _ => .ddecn w),
    rowW "DDECS" 0x53000000 (fun w _ => .ddecs w) ]

/-- Variable-Byte, `op` 0x60 to 0x62, and numeric support, `op` 0x70 to 0x72. -/
def byteRows : List Row :=
  [ rowW "VBENC" 0x60000000 .vbenc,
    rowW "VBDEC1" 0x61000000 (fun w _ => .vbdec1 w),
    rowW "VBDECS" 0x62000000 (fun w _ => .vbdecs w),
    rowW "CLZ" 0x70000000 .clz,
    rowOf "TOP" 0x71000000 0xFFFFFFFF (fun c => .top c.opv),
    rowW "POPCNT" 0x72000000 .popcnt ]

/-- The opcode map, 34 rows (R84). -/
def rows : List Row := systemRows ++ bufferRows ++ streamRows ++ codecRows ++ byteRows

/-! ## Decoding -/

/-- Why a word is illegal: the three clauses of R85. The response is `IllegalCommand` for each. -/
inductive DecodeError where
  /-- R85 (a): `op` is not one of the 34 listed values. -/
  | unknownOpcode
  /-- R85 (b): a bit outside the row's used fields is 1. -/
  | strayBit
  /-- R85 (c): a field constraint fails (`wsel` 5 to 7, `n > 128`, `reg = 3`). -/
  | fieldConstraint
deriving DecidableEq, Repr

/-- Total decoding of a command (R84, R85). -/
def decode (c : Command) : Except DecodeError Instr :=
  match rows.find? (fun r => r.selects c.cmd) with
  | some r =>
    match r.build c with
    | some i => .ok i
    | none => .error .fieldConstraint
  | none =>
    if rows.any (fun r => r.pattern.extractLsb' 24 8 == c.op) then .error .strayBit
    else .error .unknownOpcode

/-- The command whose bits are `w` as spec/opcode_table.json numbers them: `cmd` is bits 31..0 and
`opv` the 128 bits above; bits from `nbits` up are 0 (log 12). -/
def commandOfBits (nbits w : Nat) : Command :=
  let v := w % 2 ^ nbits
  ⟨BitVec.ofNat 32 v, BitVec.ofNat 128 (v / 2 ^ 32)⟩

/-- What the decoder reads from an instruction whose bits are `w`; none where it refuses. -/
def decodeTableWord (nbits w : Nat) : Option Instr :=
  match decode (commandOfBits nbits w) with
  | .ok i => some i
  | .error _ => none

/-! ## Encoding -/

/-- `wsel` of a width (00_scope.md R6). -/
def Width.sel : Width → BitVec 3
  | .w8 => 0
  | .w16 => 1
  | .w32 => 2
  | .w64 => 3
  | .w128 => 4

/-- The bit `b` of a buffer (R82). -/
def Buf.sel : Buf → BitVec 1
  | .wbuf => 0
  | .rbuf => 1

/-- The number of a register (10_state.md R26). -/
def Reg.sel : Reg → BitVec 2
  | .ctrl => 0
  | .status => 1
  | .cur => 2

/-- The opcode of a command (R84). -/
def Instr.opcode : Instr → BitVec 8
  | .setctl _ => 0x01
  | .rdreg _ => 0x02
  | .sreset => 0x03
  | .push _ _ => 0x10
  | .pushb _ _ => 0x11
  | .ext _ _ _ => 0x12
  | .bload _ _ => 0x13
  | .tobits _ => 0x14
  | .tobytes _ => 0x15
  | .len _ => 0x16
  | .isempty _ => 0x17
  | .clear _ => 0x18
  | .cap _ => 0x19
  | .reserve _ _ => 0x1A
  | .wfin => 0x20
  | .rread => 0x21
  | .uenc _ _ => 0x30
  | .udec1 _ => 0x31
  | .udecn _ => 0x32
  | .udecs _ => 0x33
  | .genc _ _ => 0x40
  | .gdec1 _ => 0x41
  | .gdecn _ => 0x42
  | .gdecs _ => 0x43
  | .denc _ _ => 0x50
  | .ddec1 _ => 0x51
  | .ddecn _ => 0x52
  | .ddecs _ => 0x53
  | .vbenc _ _ => 0x60
  | .vbdec1 _ => 0x61
  | .vbdecs _ => 0x62
  | .clz _ _ => 0x70
  | .top _ => 0x71
  | .popcnt _ _ => 0x72

/-- The commands that read `opv` (R83): every other command ignores it. -/
def Instr.readsOpv : Instr → Bool
  | .ext _ _ _ | .bload _ _ | .reserve _ _ | .uenc _ _ | .genc _ _ | .denc _ _ | .vbenc _ _
  | .clz _ _ | .top _ | .popcnt _ _ => true
  | .setctl _ | .rdreg _ | .sreset | .push _ _ | .pushb _ _ | .tobits _ | .tobytes _ | .len _
  | .isempty _ | .clear _ | .cap _ | .wfin | .rread | .udec1 _ | .udecn _ | .udecs _ | .gdec1 _
  | .gdecn _ | .gdecs _ | .ddec1 _ | .ddecn _ | .ddecs _ | .vbdec1 _ | .vbdecs _ => false

/-- The layout of R82: `op`, `wsel`, `b`, `z = 0`, `imm`. -/
def layWord (op : BitVec 8) (wsel : BitVec 3) (b : BitVec 1) (imm : BitVec 16) : Word :=
  op ++ wsel ++ b ++ 0#4 ++ imm

/-- Format `N`: no field used. -/
def wordN (op : BitVec 8) : Word := layWord op 0 0 0

/-- Format `W`: field `wsel`. -/
def wordW (op : BitVec 8) (w : Width) : Word := layWord op w.sel 0 0

/-- Format `B`: field `b` and an immediate. -/
def wordB (op : BitVec 8) (b : Buf) (imm : BitVec 16) : Word := layWord op 0 b.sel imm

/-- Format `S`: an immediate only. -/
def wordS (op : BitVec 8) (imm : BitVec 16) : Word := layWord op 0 0 imm

/-- The command of an instruction; an `opv` that the instruction does not read is 0 (R86). -/
def encode (i : Instr) : Command :=
  match i with
  | .setctl ctl => ⟨wordS i.opcode (ctl.setWidth 16), 0⟩
  | .rdreg r => ⟨wordS i.opcode (r.sel.setWidth 16), 0⟩
  | .sreset | .wfin | .rread => ⟨wordN i.opcode, 0⟩
  | .top opv => ⟨wordN i.opcode, opv⟩
  | .push b bit => ⟨wordB i.opcode b ((BitVec.ofBool bit).setWidth 16), 0⟩
  | .pushb b byte => ⟨wordB i.opcode b (byte.setWidth 16), 0⟩
  | .ext b n opv => ⟨wordB i.opcode b (BitVec.ofNat 16 n), opv⟩
  | .bload b opv | .reserve b opv => ⟨wordB i.opcode b 0, opv⟩
  | .tobits b | .tobytes b | .len b | .isempty b | .clear b | .cap b => ⟨wordB i.opcode b 0, 0⟩
  | .uenc w opv | .genc w opv | .denc w opv | .vbenc w opv | .clz w opv | .popcnt w opv =>
    ⟨wordW i.opcode w, opv⟩
  | .udec1 w | .udecn w | .udecs w | .gdec1 w | .gdecn w | .gdecs w | .ddec1 w | .ddecn w
  | .ddecs w | .vbdec1 w | .vbdecs w => ⟨wordW i.opcode w, 0⟩

end Sys2Proof
end

