-- ==== Sys2Proof/Config.lean ====
section
/-! DEFINITION. What an implementation fixes and what the spec leaves open: the capacity of a bit
buffer, the free value, and what a store byte that nothing has written reads as. -/

namespace Sys2Proof

/-- The parameter `CAPB` (00_scope.md R7): "a positive natural number, or `unbounded`". It is carried
in State, so that every statement holds for every capacity (log 5). -/
inductive Capacity where
  /-- No limit: no command raises `CapacityError`. -/
  | unbounded
  /-- At most this many bytes in each of the two buffers. -/
  | bytes (n : Nat)
deriving DecidableEq, Repr

namespace Config

/-- FREE VALUE (log 6): the 128-bit `rv` where the number a rule puts there is 2^128 or more, a case
in which the rule of the command has it complete and no rule states what `rv` holds. The argument is the
counter `State.draws`. -/
opaque freeWord : Nat → Quad

/-- DESIGN CHOICE (log 7), unsafe: what a byte of a buffer's store reads as while nothing has written
it. The spec calls these bytes unspecified and unobservable (10_state.md R22 clause c, R34). -/
def absentByte : Byte := 0

/-- DESIGN CHOICE (log 5), unsafe: the capacity in `State.reset`. The spec leaves `CAPB` open
(92_eei_decisions.md D3). -/
def resetCapacity : Capacity := .unbounded

end Config

end Sys2Proof
end

