-- ==== Sys2Proof/Machine/State.lean ====
section
/-! DEFINITION. The state of the block as plain data (10_state.md), the reasons a step can stop, and
the state after reset. -/

namespace Sys2Proof.Machine

/-! ## Storage -/

/-- The byte store `B.mem` of a bit buffer (10_state.md R20): address and byte of each byte that does
not read as `Config.absentByte`, addresses strictly rising. -/
abbrev Memory := List Host.Cell

/-- The canonical form: addresses strictly rising, and no entry equal to what an unlisted address
reads as. Equal stores are equal lists. -/
abbrev Memory.wf (m : Memory) : Prop :=
  m.Pairwise (fun c d => c.1 < d.1) ∧ ∀ c ∈ m, c.2 ≠ Config.absentByte

/-- A bit buffer (R20, R21): its byte store and its exact bit-length counter. -/
structure Buffer where
  mem : Memory
  len : Nat
deriving DecidableEq, Repr

/-- An event on the byte sink (R31): a byte `B(y)` or a flush mark `F`. -/
inductive SinkEvent where
  | byte (y : Byte)
  | flush
deriving DecidableEq, Repr

/-! ## Responses -/

/-- The status codes of 60_exceptions.md R240; 12 to 15 are never produced and have no constructor
(93_implementation_defined.md U20). -/
inductive Code where
  | ok
  | unaryCodeError
  | gammaCodeError
  | deltaCodeError
  | vbCodeError
  | overflowError
  | lengthError
  | noTerminatingBitError
  | ioError
  | zeroInputError
  | capacityError
  | illegalCommand
deriving DecidableEq, Repr

/-- A response (30_encoding.md R81): status code, scalar result, list result. -/
structure Response where
  status : Code
  rv : Quad
  rlist : List Quad
deriving DecidableEq, Repr

/-! ## What comes from outside -/

/-- A failing read of the source or write to the sink (10_state.md R30, R31): how many bytes had
moved, and the environment's `info`. A count beyond the bytes there are means all of them. -/
structure IoFail where
  moved : Nat
  info : Quad
deriving DecidableEq, Repr

/-- The environment's choice for the I/O calls of one command (R30, R31): none is `Ok`. -/
structure IoChoice where
  read : Option IoFail
  write : Option IoFail
  flush : Option Quad
deriving DecidableEq, Repr

/-- The environment fails nothing. -/
def IoChoice.allOk : IoChoice := ⟨none, none, none⟩

/-- What the host does, one row of the table of 70_reset_and_hazards.md R276 each. -/
inductive HostInput where
  /-- Issues a command; the environment's I/O choice for it stands beside it. -/
  | command (c : Command) (io : IoChoice)
  /-- Appends bytes to the back of `SRC`. -/
  | feed (bytes : List Byte)
  /-- Removes `n` events from the front of `SNK`. -/
  | drain (n : Nat)
  /-- Moves the bytes of `SNK` to `SRC`, dropping `F` marks. -/
  | loopBack
  /-- Asserts reset between commands. -/
  | reset
  /-- Asserts reset while the command executes: not specified (R270, U9). -/
  | resetDuring (c : Command)
  /-- Breaks the "must not" column of R276: a second command before the response, `SRC` or `SNK`
  touched during a command, a write into `SNK` (U10). -/
  | misuse
deriving DecidableEq, Repr

/-! ## The state -/

/-- Everything the spec gives the block (10_state.md), then the model's own fields. -/
structure State where
  /-- `WBUF`, the writer-side bit buffer (R20). -/
  wbuf : Buffer
  /-- `RBUF`, the reader-side bit buffer (R21). -/
  rbuf : Buffer
  /-- `CUR`, the decode cursor, a bit address in `RBUF` (R23). -/
  cur : Nat
  /-- `CTRL` (R27): bit 0 `WSENT`, bit 1 `RSENT`. -/
  ctrl : Word
  /-- `STATUS` (R28): bits 3:0 `LAST`, bits 31:16 `EFLAGS`. -/
  status : Word
  /-- `SRC`, the byte source, front of the queue first (R30). -/
  src : List Byte
  /-- `SNK`, the byte sink, oldest event first (R31). -/
  snk : List SinkEvent
  /-- The parameter `CAPB` (00_scope.md R7); no step changes it (log 5). -/
  capb : Capacity
  /-- The model's own: the host's inputs still to be taken, first one first (log 1). -/
  port : List HostInput
  /-- The model's own: the environment's choice for the command now executing (log 3). -/
  io : IoChoice
  /-- The model's own: the response of the last command, none when there is none since reset (log 4). -/
  resp : Option Response
  /-- The model's own: the counter a free value is drawn with (log 6). -/
  draws : Nat
deriving DecidableEq, Repr

/-- Nothing the spec describes stops the block: an error is a response (60_exceptions.md R243, R250),
and every accepted command completes (70_reset_and_hazards.md R284). So there is no fault, and no
meaning raises one; safe. -/
inductive Fault where
deriving DecidableEq, Repr

/-- Why a step has no meaning. -/
inductive Refusal where
  /-- Raised by exec for an instruction that has no meaning yet. Safe. -/
  | notModelled (mnemonic : String)
  /-- Raised by step for a reset during a command, a run the spec tells a model to refuse (R270, U9). Safe. -/
  | resetDuringCommand
  /-- Raised by step where the host breaks its obligations, a run the spec tells a model to refuse
  (R276, U10). Safe for what the model says of the block; the spec notes that it errs toward proving. -/
  | hostMisuse
deriving DecidableEq, Repr

/-- The three outcomes of a command or a step. -/
abbrev Result := Host.Outcome State Fault Refusal

/-- An empty bit buffer: the source's "created empty" (R34). -/
def Buffer.empty : Buffer := ⟨[], 0⟩

/-- The state after reset: the table of 10_state.md R34. The spec gives no value for `SRC`, `SNK`
(log 8), `CAPB` (log 5) and the model's own fields (log 1, 3, 4, 6). -/
def State.reset : State where
  wbuf := .empty
  rbuf := .empty
  cur := 0
  ctrl := 0x00000003
  status := 0x00000000
  src := []
  snk := []
  capb := Config.resetCapacity
  port := []
  io := .allOk
  resp := none
  draws := 0

end Sys2Proof.Machine
end

