-- ==== Sys2Proof/Machine/Flags.lean ====
section
/-! DEFINITION. The fields of `CTRL` and `STATUS` and the `STATUS` update of 60_exceptions.md R247
(10_state.md R27, R28). -/

namespace Sys2Proof.Machine

/-- The number of a status code (60_exceptions.md R240). -/
def Code.num : Code → BitVec 4
  | .ok => 0
  | .unaryCodeError => 1
  | .gammaCodeError => 2
  | .deltaCodeError => 3
  | .vbCodeError => 4
  | .overflowError => 5
  | .lengthError => 6
  | .noTerminatingBitError => 7
  | .ioError => 8
  | .zeroInputError => 9
  | .capacityError => 10
  | .illegalCommand => 11

/-- `STATUS.LAST`, bits 3:0. -/
def statusLast (st : Word) : BitVec 4 := st.extractLsb' 0 4

/-- `STATUS.EFLAGS[n]`, bit `16+n`. -/
def statusFlag (st : Word) (n : Nat) : Bool := st.getLsbD (16 + n)

/-- The `STATUS` update of R247: `LAST <- c`, and `EFLAGS[c] <- 1` when `c != 0`. -/
def recordStatus (c : Code) (st : Word) : Word :=
  (st &&& 0xFFFFFFF0#32) ||| c.num.setWidth 32 |||
    (if c = .ok then 0#32 else 1#32 <<< (16 + c.num.toNat))

/-- `CTRL.WSENT`, bit 0: the writer's sentinel flag. -/
def ctrlWsent (ctrl : Word) : Bool := ctrl.getLsbD 0

/-- `CTRL.RSENT`, bit 1: the reader's sentinel flag. -/
def ctrlRsent (ctrl : Word) : Bool := ctrl.getLsbD 1

/-- `CTRL.WSENT <- ctl[0]; CTRL.RSENT <- ctl[1]` (48_system.md R231). The reserved bits 31:2 are not
written. -/
def writeCtl (ctl : BitVec 2) (ctrl : Word) : Word :=
  (ctrl &&& 0xFFFFFFFC#32) ||| ctl.setWidth 32

end Sys2Proof.Machine
end

