-- ==== Sys2Proof/Machine/Operands.lean ====
section
/-! DEFINITION. Operand forms and the numeric primitives (00_scope.md R11, R14, 30_encoding.md R83).
All arithmetic is over the natural numbers (R9). A function that the spec leaves undefined at a
point answers none there, so that no undefined case turns into a value. -/

namespace Sys2Proof.Machine

/-! ## Bits and numbers -/

/-- The `n` low bits of `v`, most significant of them first. -/
def lowBits (v n : Nat) : List Bool := (List.range n).map fun i => v.testBit (n - i - 1)

/-- `nat(s)`: the MSB-first value of a bit sequence (R14). -/
def natOf (s : List Bool) : Nat := s.foldl (fun a b => 2 * a + b.toNat) 0

/-- `bitlen(v)` (R14): 0 for 0, else the `L` with `2^(L-1) <= v < 2^L`. -/
def bitlen (v : Nat) : Nat := if v = 0 then 0 else v.log2 + 1

/-- `loi(v) = bitlen(v) - 1`, undefined at 0 (R14). -/
def loi (v : Nat) : Option Nat := if v = 0 then none else some (bitlen v - 1)

/-- `offset(v)`: the bits of `v` below its leading one, MSB first; `loi(v)` of them (R14). Used only
where `v >= 1`. -/
def offset (v : Nat) : List Bool := lowBits v (bitlen v - 1)

/-- `clz_W(v) = W - bitlen(v)`, undefined at 0 (R14). -/
def clz (W v : Nat) : Option Nat := if v = 0 then none else some (W - bitlen v)

/-- `top8(y)`: the least `i` in 0..7 with `y[i] = 1`, undefined at 0 (R14). -/
def top8 (y : Byte) : Option Nat := (List.range 8).find? fun i => y.getLsbD i

/-- `popcount_W(v)`: the number of `i` in 0..W-1 with `v[i] = 1` (R14). -/
def popcount (W v : Nat) : Nat := (List.range W).countP fun i => v.testBit i

/-- `s[i..j]`, half open, empty when `i >= j` (R11). -/
def subseq (s : List Bool) (i j : Nat) : List Bool := (s.take j).drop i

/-- The least `i` with `s[i] = 0`, none when there is no 0 in `s`. -/
def firstZero : List Bool → Option Nat
  | [] => none
  | false :: _ => some 0
  | true :: s => (firstZero s).map (· + 1)

/-! ## Bits and bytes -/

/-- The 8 bits of a byte, MSB first (20_memory.md R50). -/
def bitsOfByte (y : Byte) : List Bool := lowBits y.toNat 8

/-- `Unpack(bytes)` (R13). -/
def unpack (bytes : List Byte) : List Bool := bytes.flatMap bitsOfByte

/-- Byte `k` of `Pack(s)`: bits `8k` to `8k+7` of `s`, absent ones 0. -/
def packByte (s : List Bool) (k : Nat) : Byte :=
  BitVec.ofNat 8 (natOf ((List.range 8).map fun j => s.getD (8 * k + j) false))

/-- `Pack(s)` (R13): `ceil(|s|/8)` bytes, all other bits 0. -/
def pack (s : List Bool) : List Byte := (List.range ((s.length + 7) / 8)).map (packByte s)

/-- Write one bit of a byte. -/
def setBit (y : Byte) (i : Nat) (x : Bool) : Byte :=
  if x then y ||| (1#8 <<< i) else y &&& ~~~(1#8 <<< i)

/-- Clear the `r` low bits of a byte. -/
def clearLow (y : Byte) (r : Nat) : Byte := (y >>> r) <<< r

/-! ## Operand assembly (R83) -/

/-- `v = opv[W-1:0]`, zero-extended to a natural number; the bits above are ignored. -/
def valueOperand (w : Width) (opv : Quad) : Nat := opv.toNat % 2 ^ w.bits

/-- `EXT`'s sequence `[opv[n-1], ..., opv[0]]`. -/
def bitsOperand (n : Nat) (opv : Quad) : List Bool := lowBits opv.toNat n

/-- `TOP`'s byte `opv[7:0]`. -/
def byteOperand (opv : Quad) : Byte := opv.setWidth 8

/-! ## Capacity (00_scope.md R7) -/

/-- Whether `n` bytes fit a buffer. -/
def holdsBytes (c : Capacity) (n : Nat) : Bool :=
  match c with
  | .unbounded => true
  | .bytes k => n ≤ k

/-- Whether `n` bits fit a buffer: `n <= 8*CAPB`. -/
def holdsBits (c : Capacity) (n : Nat) : Bool :=
  match c with
  | .unbounded => true
  | .bytes k => n ≤ 8 * k

/-- What `CAP` and `RESERVE` report (40_bitbuffer.md R120): `8*CAPB`, or `2^128 - 1` where `CAPB` is
unbounded or `8*CAPB` does not fit. -/
def capacityBits (c : Capacity) : Nat :=
  match c with
  | .unbounded => 2 ^ 128 - 1
  | .bytes k => if 8 * k < 2 ^ 128 then 8 * k else 2 ^ 128 - 1

end Sys2Proof.Machine
end

