-- ==== Sys2Proof/Machine/Ops.lean ====
section
/-! DEFINITION. The named operations every meaning is written with: byte stores and bit buffers
(00_scope.md R13, 20_memory.md R55 to R58), responding and raising (00_scope.md R15, 60_exceptions.md
R247, R248), the byte streams (10_state.md R30, R31), the shared ends of the decode commands, and the
reset of the block (10_state.md R34). An error is a response of the command that met it: `raise` is
what this block has in place of taking an exception, and there is nothing to return from (R250, R251). -/

namespace Sys2Proof.Machine

/-! ## Byte stores -/

/-- `MemRead(B:a, 1)`: byte `a` of a store (R13). -/
def memRead : Memory → Nat → Byte
  | [], _ => Config.absentByte
  | (k, z) :: m, a => if a = k then z else memRead m a

/-- `MemWrite(B:a, 1, y)` (R13), keeping the canonical form. -/
def memWrite : Memory → Nat → Byte → Memory
  | [], a, y => if y = Config.absentByte then [] else [(a, y)]
  | (k, z) :: m, a, y =>
    if a < k then
      if y = Config.absentByte then (k, z) :: m else (a, y) :: (k, z) :: m
    else if a = k then
      if y = Config.absentByte then m else (a, y) :: m
    else (k, z) :: memWrite m a y

/-- `MemWrite` of consecutive bytes from address `a` up. -/
def memWriteAll : Memory → Nat → List Byte → Memory
  | m, _, [] => m
  | m, a, y :: ys => memWriteAll (memWrite m a y) (a + 1) ys

/-! ## Bit buffers -/

/-- `NBytes(B) = ceil(B.len / 8)`: the number of live bytes (R13, R22 clause b). -/
def Buffer.nbytes (B : Buffer) : Nat := (B.len + 7) / 8

/-- `BitAt(B, a)`: byte `a div 8`, bit `7 - (a mod 8)` (R13, R50). -/
def Buffer.bitAt (B : Buffer) (a : Nat) : Bool := (memRead B.mem (a / 8)).getLsbD (7 - a % 8)

/-- `Bits(B)`: the buffer's bit sequence (R13). -/
def Buffer.bits (B : Buffer) : List Bool := (List.range B.len).map B.bitAt

/-- `Bytes(B)`: the live bytes (R13). -/
def Buffer.bytes (B : Buffer) : List Byte := (List.range B.nbytes).map (memRead B.mem)

/-- `Slice(B, i, j)` (R13). -/
def Buffer.slice (B : Buffer) (i j : Nat) : List Bool := subseq B.bits i j

/-- One turn of the loop of `AppendBits`: the bit goes to byte `len div 8`, bit `7 - (len mod 8)`, and
a bit at a byte boundary "starts a new zero-initialized byte" (R55). -/
def Buffer.appendBit (B : Buffer) (x : Bool) : Buffer :=
  let a := B.len
  let m := if a % 8 = 0 then memWrite B.mem (a / 8) 0 else B.mem
  ⟨memWrite m (a / 8) (setBit (memRead m (a / 8)) (7 - a % 8) x), a + 1⟩

/-- The writes of `AppendBits(B, s)`, its capacity check apart (R55). -/
def Buffer.appendBits (B : Buffer) (s : List Bool) : Buffer := s.foldl Buffer.appendBit B

/-- The writes of `AppendByte(B, y)`, its capacity check apart (R57): the byte goes to the first byte
that is not live. -/
def Buffer.appendByte (B : Buffer) (y : Byte) : Buffer :=
  ⟨memWrite B.mem B.nbytes y, 8 * (B.nbytes + 1)⟩

/-- `SetBuffer(B, bytes, L)` (R56): the first `ceil(L/8)` bytes are stored and the padding of the last
of them is cleared. -/
def Buffer.set (B : Buffer) (bytes : List Byte) (L : Nat) : Buffer :=
  let k := (L + 7) / 8
  let m := memWriteAll B.mem 0 (bytes.take k)
  if L % 8 = 0 then ⟨m, L⟩
  else ⟨memWrite m (k - 1) (clearLow (memRead m (k - 1)) (8 - L % 8)), L⟩

/-- `B.len <- 0`: the store is not written (40_bitbuffer.md R119). -/
def Buffer.cleared (B : Buffer) : Buffer := ⟨B.mem, 0⟩

/-- The buffer that field `b` selects (30_encoding.md R82). -/
def State.buf (s : State) : Buf → Buffer
  | .wbuf => s.wbuf
  | .rbuf => s.rbuf

/-- Replace the buffer that field `b` selects. -/
def State.setBuf (s : State) (b : Buf) (B : Buffer) : State :=
  match b with
  | .wbuf => { s with wbuf := B }
  | .rbuf => { s with rbuf := B }

/-- `CUR <- 0` for the reader-side buffer; the writer side does not touch `CUR` (10_state.md R23). -/
def State.rewind (s : State) (b : Buf) : State :=
  match b with
  | .wbuf => s
  | .rbuf => { s with cur := 0 }

/-- `Rem = Slice(RBUF, CUR, RBUF.len)`: the bits no decoder has consumed (R23, R58). -/
def State.rem (s : State) : List Bool := s.rbuf.slice s.cur s.rbuf.len

/-! ## Responses -/

/-- A number on the 128-bit port `rv`. Where it does not fit, the command's rule names no error for it
(60_exceptions.md R246 keeps the explicit error of 00_scope.md R9 to the decoders, 90_conflicts.md C6
says that `UENC` has none but for room), no rule states what `rv` holds, and the value is free (log 6). -/
def State.quad (s : State) (n : Nat) : Quad :=
  if n < 2 ^ 128 then BitVec.ofNat 128 n else Config.freeWord s.draws

/-- A response with no `STATUS` update: the end of a legal `RDREG` (R247). -/
def answer (c : Code) (rv : Nat) (rlist : List Quad) (s : State) : State :=
  { s with resp := some ⟨c, s.quad rv, rlist⟩ }

/-- `Respond(status, rv, rlist)` with the `STATUS` update of R247. -/
def respond (c : Code) (rv : Nat) (rlist : List Quad) (s : State) : State :=
  { s with status := recordStatus c s.status, resp := some ⟨c, s.quad rv, rlist⟩ }

/-- `raise <Error>(info)` (R15): the response of an error has an empty list and carries `info` in
`rv` (30_encoding.md R81). -/
def raise (c : Code) (info : Nat) (s : State) : State := respond c info [] s

/-- An illegal command word: `rv` is the word, and nothing changes but `STATUS` (30_encoding.md R85). -/
def illegalCommand (cmd : Word) (s : State) : State := raise .illegalCommand cmd.toNat s

/-- `zext` of a list of bits to `rlist` items (30_encoding.md R81). -/
def bitItems (l : List Bool) : List Quad := l.map fun x => (BitVec.ofBool x).setWidth 128

/-- `zext` of a list of bytes to `rlist` items. -/
def byteItems (l : List Byte) : List Quad := l.map fun y => y.setWidth 128

/-- A list of decoded values as `rlist` items; a decoder delivers only values below `2^W`. -/
def valueItems (l : List Nat) : List Quad := l.map (BitVec.ofNat 128)

/-! ## Byte streams -/

/-- `SrcReadAll()` (R30): all the queued bytes, or the environment's failure after some of them. -/
def srcReadAll (s : State) : Except Quad (List Byte) × State :=
  match s.io.read with
  | none => (.ok s.src, { s with src := [] })
  | some f => (.error f.info, { s with src := s.src.drop f.moved })

/-- `SnkWrite(bytes)` (R31): all the bytes, or the environment's failure after some of them; the
answer is the failure's `info`. -/
def snkWrite (bytes : List Byte) (s : State) : Option Quad × State :=
  match s.io.write with
  | none => (none, { s with snk := s.snk ++ bytes.map .byte })
  | some f => (some f.info, { s with snk := s.snk ++ (bytes.take f.moved).map .byte })

/-- `SnkFlush()` (R31): one flush mark, or the environment's failure. -/
def snkFlush (s : State) : Option Quad × State :=
  match s.io.flush with
  | none => (none, { s with snk := s.snk ++ [.flush] })
  | some info => (some info, s)

/-! ## Encoding and decoding of bit sequences -/

/-- The end of the three bit-sequence encoders: append a codeword of `n` bits to `WBUF` whole or not at
all. The capacity test is on the number `n`, so that the codeword is built only where it fits
(43_unary.md R161, 20_memory.md R55). -/
def emitCodeword (n : Nat) (codeword : List Bool) (s : State) : State :=
  if holdsBits s.capb (s.wbuf.len + n) then
    respond .ok n [] { s with wbuf := s.wbuf.appendBits codeword }
  else raise .capacityError (s.wbuf.len + n) s

/-- The result of decoding one codeword: the value, and how many bits it used. -/
abbrev Peeled := Except Code (Nat × Nat)

/-- The end of the `DEC1` commands: the value, or the error at `CUR`; `CUR` stays. -/
def finishExact (r : Except Code Nat) (s : State) : State :=
  match r with
  | .ok n => respond .ok n [] s
  | .error c => raise c s.cur s

/-- The end of the `DECN` commands: the value and `CUR` moved past the codeword, or the error at `CUR`. -/
def finishNext (r : Peeled) (s : State) : State :=
  match r with
  | .ok (n, used) => respond .ok n [] { s with cur := s.cur + used }
  | .error c => raise c s.cur s

/-- The loop of the `DECS` commands over the remaining bits `s`, `c` being the bit address of the first
of them: every value, or the first failing codeword's error and address. Each codeword uses at least
one bit, so a fuel of `|s|` never runs out before the bits do. -/
def decodeStream (peel : List Bool → Peeled) : Nat → Nat → List Bool → Except (Code × Nat) (List Nat)
  | 0, _, _ => .ok []
  | fuel + 1, c, s =>
    if s = [] then .ok []
    else
      match peel s with
      | .error e => .error (e, c)
      | .ok (n, used) =>
        match decodeStream peel fuel (c + used) (s.drop used) with
        | .error e => .error e
        | .ok out => .ok (n :: out)

/-- The end of the `DECS` commands (43_unary.md R165): all the values and `CUR <- RBUF.len`, or the
first error with nothing delivered and `CUR` unchanged. -/
def finishStream (peel : List Bool → Peeled) (s : State) : State :=
  match decodeStream peel s.rem.length s.cur s.rem with
  | .ok out => respond .ok out.length (valueItems out) { s with cur := s.rbuf.len }
  | .error (c, at_) => raise c at_ s

/-! ## Reset -/

/-- The block state takes the values of 10_state.md R34: both lengths 0, `CUR` 0, `CTRL` 3, `STATUS` 0.
The byte stores, `SRC` and `SNK` are not touched. -/
def resetBlock (s : State) : State :=
  { s with wbuf := s.wbuf.cleared, rbuf := s.rbuf.cleared, cur := 0, ctrl := 0x00000003,
           status := 0x00000000 }

end Sys2Proof.Machine
end

