-- ==== Sys2Proof/Machine/BitBuffer.lean ====
section
/-! DEFINITION. The bit buffer commands (40_bitbuffer.md). Each acts on the buffer that field `b`
selects. -/

namespace Sys2Proof.Machine

/-- `PUSH` (R111): append one bit. -/
def execPush (b : Buf) (bit : Bool) (s : State) : Result :=
  let B := s.buf b
  if holdsBits s.capb (B.len + 1) then
    let B' := B.appendBits [bit]
    .next (respond .ok B'.len [] (s.setBuf b B'))
  else .next (raise .capacityError (B.len + 1) s)

/-- `PUSHB` (R112): append one whole byte at the next byte boundary. -/
def execPushb (b : Buf) (byte : Byte) (s : State) : Result :=
  let B := s.buf b
  if holdsBytes s.capb (B.nbytes + 1) then
    let B' := B.appendByte byte
    .next (respond .ok B'.len [] (s.setBuf b B'))
  else .next (raise .capacityError (8 * (B.nbytes + 1)) s)

/-- `EXT` (R113): append the `n` low bits of `opv`, most significant first, all or none. -/
def execExt (b : Buf) (n : Nat) (opv : Quad) (s : State) : Result :=
  let B := s.buf b
  if holdsBits s.capb (B.len + n) then
    let B' := B.appendBits (bitsOperand n opv)
    .next (respond .ok B'.len [] (s.setBuf b B'))
  else .next (raise .capacityError (B.len + n) s)

/-- `BLOAD` (R114): load a buffer from `SRC` with an exact bit length. The length test is the spec's
`8*(n-1) <= L and L <= 8*n` over the integers, the first part with 8 added on both sides. -/
def execBload (b : Buf) (opv : Quad) (s : State) : Result :=
  match srcReadAll s with
  | (.error info, s) => .next (raise .ioError info.toNat s)
  | (.ok bytes, s) =>
    let n := bytes.length
    let L := opv.toNat
    if ¬ holdsBytes s.capb n then .next (raise .capacityError (8 * n) s)
    else if ¬ (8 * n ≤ L + 8 ∧ L ≤ 8 * n) then .next (raise .lengthError L s)
    else .next (respond .ok L [] ((s.setBuf b ((s.buf b).set bytes L)).rewind b))

/-- `TOBITS` (R115): the whole bit sequence. -/
def execTobits (b : Buf) (s : State) : Result :=
  .next (respond .ok (s.buf b).len (bitItems (s.buf b).bits) s)

/-- `TOBYTES` (R116): the live bytes. -/
def execTobytes (b : Buf) (s : State) : Result :=
  .next (respond .ok (s.buf b).nbytes (byteItems (s.buf b).bytes) s)

/-- `LEN` (R117): the length in bits. -/
def execLen (b : Buf) (s : State) : Result :=
  .next (respond .ok (s.buf b).len [] s)

/-- `ISEMPTY` (R118). -/
def execIsempty (b : Buf) (s : State) : Result :=
  .next (respond .ok (if (s.buf b).len = 0 then 1 else 0) [] s)

/-- `CLEAR` (R119): discard all bits; on the reader side `CUR` goes to 0. -/
def execClear (b : Buf) (s : State) : Result :=
  .next (respond .ok 0 [] ((s.setBuf b (s.buf b).cleared).rewind b))

/-- `CAP` (R120): the capacity in bits, the same for both buffers. -/
def execCap (_ : Buf) (s : State) : Result :=
  .next (respond .ok (capacityBits s.capb) [] s)

/-- `RESERVE` (R121): whether `opv` more bits fit; nothing changes but `STATUS`. -/
def execReserve (b : Buf) (opv : Quad) (s : State) : Result :=
  let need := (s.buf b).len + opv.toNat
  if holdsBits s.capb need then .next (respond .ok (capacityBits s.capb) [] s)
  else .next (raise .capacityError need s)

end Sys2Proof.Machine
end

