-- ==== Sys2Proof/Machine/Gamma.lean ====
section
/-! DEFINITION. The Elias-gamma codec (44_gamma.md). -/

namespace Sys2Proof.Machine

/-- `G(v) = [1]*L ++ [0] ++ offset(v)` with `L = loi(v)` (R175); used only where `v >= 1`. -/
def gammaWord (v : Nat) : List Bool :=
  List.replicate (bitlen v - 1) true ++ [false] ++ offset v

/-- `peelG(s, W)` (R177): one gamma codeword from the front of `s`. -/
def peelG (W : Nat) (s : List Bool) : Peeled :=
  match firstZero s with
  | none => .error .gammaCodeError
  | some idx =>
    let len := idx
    if s.length - (idx + 1) < len then .error .gammaCodeError
    else if len + 1 ≥ W then .error .overflowError
    else .ok (2 ^ len + natOf (subseq s (idx + 1) (idx + 1 + len)), 2 * len + 1)

/-- `GDEC1`'s decoding of `s` as exactly one codeword (R178). -/
def exactG (W : Nat) (s : List Bool) : Except Code Nat :=
  match firstZero s with
  | none => .error .gammaCodeError
  | some idx =>
    let len := idx
    if s.length - (idx + 1) ≠ len then .error .gammaCodeError
    else if len + 1 ≥ W then .error .overflowError
    else .ok (2 ^ len + natOf (subseq s (idx + 1) s.length))

/-- `GENC` (R176): append the gamma codeword of a value to `WBUF`; zero has none. -/
def execGenc (w : Width) (opv : Quad) (s : State) : Result :=
  let v := valueOperand w opv
  match loi v with
  | none => .next (raise .zeroInputError 0 s)
  | some L => .next (emitCodeword (2 * L + 1) (gammaWord v) s)

/-- `GDEC1` (R178). -/
def execGdec1 (w : Width) (s : State) : Result :=
  .next (finishExact (exactG w.bits s.rem) s)

/-- `GDECN` (R179). -/
def execGdecn (w : Width) (s : State) : Result :=
  .next (finishNext (peelG w.bits s.rem) s)

/-- `GDECS` (R180). -/
def execGdecs (w : Width) (s : State) : Result :=
  .next (finishStream (peelG w.bits) s)

end Sys2Proof.Machine
end

