-- ==== Sys2Proof/Machine/Delta.lean ====
section
/-! DEFINITION. The Elias-delta codec (45_delta.md). -/

namespace Sys2Proof.Machine

/-- `D(v) = G(N) ++ offset(v)` with `N = bitlen(v)` (R190); used only where `v >= 1`. -/
def deltaWord (v : Nat) : List Bool := gammaWord (bitlen v) ++ offset v

/-- `peelD(s, W)` (R192): one delta codeword from the front of `s`. `totalLen` is an unbounded
natural; every structural failure is `DeltaCodeError`. -/
def peelD (W : Nat) (s : List Bool) : Peeled :=
  match firstZero s with
  | none => .error .deltaCodeError
  | some idx =>
    let ulen := idx
    if s.length - (idx + 1) < ulen then .error .deltaCodeError
    else
      let totalLen := 2 ^ ulen + natOf (subseq s (idx + 1) (idx + 1 + ulen))
      let len := totalLen - 1
      let p := idx + 1 + ulen
      if s.length - p < len then .error .deltaCodeError
      else if totalLen ≥ W then .error .overflowError
      else .ok (2 ^ len + natOf (subseq s p (p + len)), p + len)

/-- `DDEC1`'s decoding of `s` as exactly one codeword (R193). -/
def exactD (W : Nat) (s : List Bool) : Except Code Nat :=
  match firstZero s with
  | none => .error .deltaCodeError
  | some idx =>
    let ulen := idx
    if s.length - (idx + 1) < ulen then .error .deltaCodeError
    else
      let totalLen := 2 ^ ulen + natOf (subseq s (idx + 1) (idx + 1 + ulen))
      let len := totalLen - 1
      let p := idx + 1 + ulen
      if s.length - p ≠ len then .error .deltaCodeError
      else if totalLen ≥ W then .error .overflowError
      else .ok (2 ^ len + natOf (subseq s p s.length))

/-- `DENC` (R191): append the delta codeword of a value to `WBUF`; zero has none. -/
def execDenc (w : Width) (opv : Quad) (s : State) : Result :=
  let v := valueOperand w opv
  match loi v with
  | none => .next (raise .zeroInputError 0 s)
  | some _ =>
    let N := bitlen v
    let M := bitlen N - 1
    .next (emitCodeword (2 * M + N) (deltaWord v) s)

/-- `DDEC1` (R193). -/
def execDdec1 (w : Width) (s : State) : Result :=
  .next (finishExact (exactD w.bits s.rem) s)

/-- `DDECN` (R194). -/
def execDdecn (w : Width) (s : State) : Result :=
  .next (finishNext (peelD w.bits s.rem) s)

/-- `DDECS` (R195). -/
def execDdecs (w : Width) (s : State) : Result :=
  .next (finishStream (peelD w.bits) s)

end Sys2Proof.Machine
end

