-- ==== Sys2Proof/Machine/Numeric.lean ====
section
/-! DEFINITION. The numeric support commands (47_numeric_support.md). None of them touches a buffer,
the cursor, `SRC` or `SNK`. -/

namespace Sys2Proof.Machine

/-- `CLZ` (R221): leading zeros at width `W`; undefined at 0, so `ZeroInputError` there. -/
def execClz (w : Width) (opv : Quad) (s : State) : Result :=
  match clz w.bits (valueOperand w opv) with
  | none => .next (raise .zeroInputError 0 s)
  | some n => .next (respond .ok n [] s)

/-- `TOP` (R222): position of the least significant set bit of `opv[7:0]`. -/
def execTop (opv : Quad) (s : State) : Result :=
  match top8 (byteOperand opv) with
  | none => .next (raise .zeroInputError 0 s)
  | some p => .next (respond .ok p [] s)

/-- `POPCNT` (R223): the number of set bits at width `W`; zero is a legal input. -/
def execPopcnt (w : Width) (opv : Quad) (s : State) : Result :=
  .next (respond .ok (popcount w.bits (valueOperand w opv)) [] s)

end Sys2Proof.Machine
end

