-- ==== Sys2Proof/Machine/Stream.lean ====
section
/-! DEFINITION. The bit writer's finalize (41_bitwriter.md) and the bit reader's read to the end
(42_bitreader.md). -/

namespace Sys2Proof.Machine

/-- The bytes of the encoded stream of a payload (R142): the sentinel bit when `WSENT` is set, zero
padding to the next byte boundary. -/
def streamBytes (wsent : Bool) (payload : List Bool) : List Byte :=
  pack (if wsent then payload ++ [true] else payload)

/-- `WFIN` (R141): emit the encoded stream and a flush mark, and empty the writer. The sentinel is
never stored in `WBUF`; on an `IoError` `WBUF` is unchanged. -/
def execWfin (s : State) : Result :=
  if s.wbuf.len = 0 then .next (respond .ok 0 [] s)
  else
    let out := streamBytes (ctrlWsent s.ctrl) s.wbuf.bits
    match snkWrite out s with
    | (some info, s) => .next (raise .ioError info.toNat s)
    | (none, s) =>
      match snkFlush s with
      | (some info, s) => .next (raise .ioError info.toNat s)
      | (none, s) => .next (respond .ok out.length [] { s with wbuf := s.wbuf.cleared })

/-- Steps 3 and 4 of the reader (R151) for a non-empty stream: the bytes and the exact length that the
sentinel in the last byte gives, none where the last byte has no set bit. -/
def stripSentinel (bytes : List Byte) : Option (List Byte × Nat) :=
  let n := bytes.length
  let last := bytes.getLastD 0
  match top8 last with
  | none => none
  | some p =>
    if p = 7 then some (bytes.take (n - 1), 8 * (n - 1))
    else some (bytes.set (n - 1) (setBit last p false), 8 * (n - 1) + (7 - p))

/-- `SetBuffer(RBUF, bytes, L); CUR <- 0; Respond(OK, L)`: a reader that has read a stream. -/
def loadReader (bytes : List Byte) (L : Nat) (s : State) : State :=
  respond .ok L [] { s with rbuf := s.rbuf.set bytes L, cur := 0 }

/-- `RREAD` (R151): read the source to its end and recover the exact bit sequence. -/
def execRread (s : State) : Result :=
  match srcReadAll s with
  | (.error info, s) => .next (raise .ioError info.toNat s)
  | (.ok bytes, s) =>
    let n := bytes.length
    if ¬ holdsBytes s.capb n then .next (raise .capacityError (8 * n) s)
    else if n = 0 then .next (respond .ok 0 [] { s with rbuf := s.rbuf.cleared, cur := 0 })
    else if ctrlRsent s.ctrl = false then .next (loadReader bytes (8 * n) s)
    else
      match stripSentinel bytes with
      | none => .next (raise .noTerminatingBitError n s)
      | some (bytes', L) => .next (loadReader bytes' L s)

end Sys2Proof.Machine
end

