-- ==== Sys2Proof/Machine/System.lean ====
section
/-! DEFINITION. The system commands (48_system.md). -/

namespace Sys2Proof.Machine

/-- `SETCTL` (R231): write the sentinel flags; `rv` is the new `CTRL` value. -/
def execSetctl (ctl : BitVec 2) (s : State) : Result :=
  .next (respond .ok ctl.toNat [] { s with ctrl := writeCtl ctl s.ctrl })

/-- The value of a register by its number (10_state.md R26). -/
def readReg (s : State) : Reg → Nat
  | .ctrl => s.ctrl.toNat
  | .status => s.status.toNat
  | .cur => s.cur

/-- `RDREG` (R232): read a register; the one command that leaves `STATUS` as it was. -/
def execRdreg (r : Reg) (s : State) : Result :=
  .next (answer .ok (readReg s r) [] s)

/-- `SRESET` (R233): the block state takes its reset values, then `OK` is recorded. -/
def execSreset (s : State) : Result :=
  .next (respond .ok 0 [] (resetBlock s))

end Sys2Proof.Machine
end

