-- ==== Sys2Proof/Machine/Unary.lean ====
section
/-! DEFINITION. The unary codec (43_unary.md). -/

namespace Sys2Proof.Machine

/-- `U(n) = [1]*n ++ [0]` (R160). -/
def unaryWord (n : Nat) : List Bool := List.replicate n true ++ [false]

/-- `peelU(s, W)` (R162): one unary codeword from the front of `s`. -/
def peelU (W : Nat) (s : List Bool) : Peeled :=
  match firstZero s with
  | none => .error .unaryCodeError
  | some idx => if idx > 2 ^ W - 1 then .error .overflowError else .ok (idx, idx + 1)

/-- `UDEC1`'s decoding of `s` as exactly one codeword (R163): the last bit is 0 and every other bit
is 1. -/
def exactU (W : Nat) (s : List Bool) : Except Code Nat :=
  if s = [] ∨ s.getLastD true ≠ false ∨ s.dropLast.any (fun x => !x) then .error .unaryCodeError
  else
    let n := s.length - 1
    if n > 2 ^ W - 1 then .error .overflowError else .ok n

/-- `UENC` (R161): append the unary codeword of a value to `WBUF`. -/
def execUenc (w : Width) (opv : Quad) (s : State) : Result :=
  let v := valueOperand w opv
  .next (emitCodeword (v + 1) (unaryWord v) s)

/-- `UDEC1` (R163). -/
def execUdec1 (w : Width) (s : State) : Result :=
  .next (finishExact (exactU w.bits s.rem) s)

/-- `UDECN` (R164). -/
def execUdecn (w : Width) (s : State) : Result :=
  .next (finishNext (peelU w.bits s.rem) s)

/-- `UDECS` (R165). -/
def execUdecs (w : Width) (s : State) : Result :=
  .next (finishStream (peelU w.bits) s)

end Sys2Proof.Machine
end

