-- ==== Sys2Proof/Machine/VarByte.lean ====
section
/-! DEFINITION. The Variable-Byte codec (46_varbyte.md): bytes straight to `SNK` and straight from
`SRC`; the buffers, `CUR` and the sentinel flags take no part. -/

namespace Sys2Proof.Machine

/-- The base-128 digits of `v`, most significant first (R205): extract the low digit, prepend it, divide
by 128, until `v < 128`. Each turn drops 7 bits of `v`, so a fuel of `bitlen v` never runs out. -/
def vbDigits : Nat → Nat → List Nat
  | 0, v => [v % 128]
  | fuel + 1, v => if v < 128 then [v % 128] else vbDigits fuel (v / 128) ++ [v % 128]

/-- Mark the last digit with the continuation bit 0x80; every other byte has bit 7 clear. -/
def vbMark : List Nat → List Byte
  | [] => []
  | [d] => [BitVec.ofNat 8 (d + 128)]
  | d :: e :: ds => BitVec.ofNat 8 d :: vbMark (e :: ds)

/-- `VB(v)` (R205). -/
def vbGroup (v : Nat) : List Byte := vbMark (vbDigits (bitlen v) v)

/-- `acc <- 128*acc + (y & 0x7F)`, exact (R207). -/
def vbAccumulate (acc : Nat) (y : Byte) : Nat := 128 * acc + y.toNat % 128

/-- `vbval(g)` (R207). -/
def vbValue (g : List Byte) : Nat := g.foldl vbAccumulate 0

/-- The continuation bit of a byte, bit 7: set on the last byte of a group. -/
def vbLast (y : Byte) : Bool := y.getLsbD 7

/-- `VBDEC1`'s decoding of `g` as exactly one group (R208). -/
def exactVb (W : Nat) (g : List Byte) : Except Code Nat :=
  if g = [] then .error .vbCodeError
  else if g.dropLast.any vbLast then .error .vbCodeError
  else if vbLast (g.getLastD 0) = false then .error .vbCodeError
  else if vbValue g > 2 ^ W - 1 then .error .overflowError
  else .ok (vbValue g)

/-- The loop of `VBDECS` (R209) over the bytes from index `i` on, in a group that starts at `start`
with `acc` accumulated: every value, or the first failing group's error and start. -/
def vbStream (W : Nat) : List Byte → (acc start i : Nat) → Except (Code × Nat) (List Nat)
  | [], _, start, i => if start ≠ i then .error (.vbCodeError, start) else .ok []
  | y :: ys, acc, start, i =>
    let acc := vbAccumulate acc y
    if vbLast y then
      if acc > 2 ^ W - 1 then .error (.overflowError, start)
      else
        match vbStream W ys 0 (i + 1) (i + 1) with
        | .error e => .error e
        | .ok out => .ok (acc :: out)
    else vbStream W ys acc start (i + 1)

/-- `VBENC` (R206): the byte group of a value straight to `SNK`, with no flush mark. -/
def execVbenc (w : Width) (opv : Quad) (s : State) : Result :=
  let out := vbGroup (valueOperand w opv)
  match snkWrite out s with
  | (some info, s) => .next (raise .ioError info.toNat s)
  | (none, s) => .next (respond .ok out.length [] s)

/-- `VBDEC1` (R208): all of `SRC` as exactly one byte group. -/
def execVbdec1 (w : Width) (s : State) : Result :=
  match srcReadAll s with
  | (.error info, s) => .next (raise .ioError info.toNat s)
  | (.ok g, s) =>
    match exactVb w.bits g with
    | .error c => .next (raise c 0 s)
    | .ok v => .next (respond .ok v [] s)

/-- `VBDECS` (R209): all of `SRC` as a stream of byte groups. -/
def execVbdecs (w : Width) (s : State) : Result :=
  match srcReadAll s with
  | (.error info, s) => .next (raise .ioError info.toNat s)
  | (.ok bytes, s) =>
    match vbStream w.bits bytes 0 0 0 with
    | .error (c, start) => .next (raise c start s)
    | .ok out => .next (respond .ok out.length (valueItems out) s)

end Sys2Proof.Machine
end

