-- ==== Sys2Proof/Machine/Dispatch.lean ====
section
/-! DEFINITION. The meaning of each of the 34 commands of 30_encoding.md R84, one arm each. -/

namespace Sys2Proof.Machine

def exec (i : Instr) (s : State) : Host.Outcome State Fault Refusal :=
  match i with
  -- System commands (48_system.md)
  | .setctl ctl => Sys2Proof.Machine.execSetctl ctl s
  | .rdreg reg => Sys2Proof.Machine.execRdreg reg s
  | .sreset => Sys2Proof.Machine.execSreset s
  -- Bit buffer (40_bitbuffer.md)
  | .push b bit => Sys2Proof.Machine.execPush b bit s
  | .pushb b byte => Sys2Proof.Machine.execPushb b byte s
  | .ext b n opv => Sys2Proof.Machine.execExt b n opv s
  | .bload b opv => Sys2Proof.Machine.execBload b opv s
  | .tobits b => Sys2Proof.Machine.execTobits b s
  | .tobytes b => Sys2Proof.Machine.execTobytes b s
  | .len b => Sys2Proof.Machine.execLen b s
  | .isempty b => Sys2Proof.Machine.execIsempty b s
  | .clear b => Sys2Proof.Machine.execClear b s
  | .cap b => Sys2Proof.Machine.execCap b s
  | .reserve b opv => Sys2Proof.Machine.execReserve b opv s
  -- Bit writer and bit reader (41_bitwriter.md, 42_bitreader.md)
  | .wfin => Sys2Proof.Machine.execWfin s
  | .rread => Sys2Proof.Machine.execRread s
  -- Unary (43_unary.md)
  | .uenc w opv => Sys2Proof.Machine.execUenc w opv s
  | .udec1 w => Sys2Proof.Machine.execUdec1 w s
  | .udecn w => Sys2Proof.Machine.execUdecn w s
  | .udecs w => Sys2Proof.Machine.execUdecs w s
  -- Gamma (44_gamma.md)
  | .genc w opv => Sys2Proof.Machine.execGenc w opv s
  | .gdec1 w => Sys2Proof.Machine.execGdec1 w s
  | .gdecn w => Sys2Proof.Machine.execGdecn w s
  | .gdecs w => Sys2Proof.Machine.execGdecs w s
  -- Delta (45_delta.md)
  | .denc w opv => Sys2Proof.Machine.execDenc w opv s
  | .ddec1 w => Sys2Proof.Machine.execDdec1 w s
  | .ddecn w => Sys2Proof.Machine.execDdecn w s
  | .ddecs w => Sys2Proof.Machine.execDdecs w s
  -- Variable-Byte (46_varbyte.md)
  | .vbenc w opv => Sys2Proof.Machine.execVbenc w opv s
  | .vbdec1 w => Sys2Proof.Machine.execVbdec1 w s
  | .vbdecs w => Sys2Proof.Machine.execVbdecs w s
  -- Numeric support (47_numeric_support.md)
  | .clz w opv => Sys2Proof.Machine.execClz w opv s
  | .top opv => Sys2Proof.Machine.execTop opv s
  | .popcnt w opv => Sys2Proof.Machine.execPopcnt w opv s

end Sys2Proof.Machine
end

