-- ==== Sys2Proof/Machine/HostPort.lean ====
section
/-! DEFINITION. What each input of the host does to the state, the running of a command apart
(70_reset_and_hazards.md R276). -/

namespace Sys2Proof.Machine

/-- A command is accepted: it leaves the port, the environment's choice for it stands in `io`, and the
counter of the free values moves on (log 3, log 6). -/
def acceptCommand (io : IoChoice) (rest : List HostInput) (s : State) : State :=
  { s with port := rest, io := io, draws := s.draws + 1 }

/-- The host appends bytes to the back of `SRC`. -/
def feedSource (bytes : List Byte) (rest : List HostInput) (s : State) : State :=
  { s with port := rest, src := s.src ++ bytes }

/-- The host removes `n` events from the front of `SNK`. -/
def drainSink (n : Nat) (rest : List HostInput) (s : State) : State :=
  { s with port := rest, snk := s.snk.drop n }

/-- The byte of a sink event; a flush mark has none. -/
def SinkEvent.byte? : SinkEvent → Option Byte
  | .byte y => some y
  | .flush => none

/-- The host moves the bytes of `SNK` to the back of `SRC`, dropping `F` marks. -/
def loopBack (rest : List HostInput) (s : State) : State :=
  { s with port := rest, src := s.src ++ s.snk.filterMap SinkEvent.byte?, snk := [] }

/-- Hardware reset between commands (R270): the table of 10_state.md R34. No response has been given
since (log 9). -/
def hardReset (rest : List HostInput) (s : State) : State :=
  { resetBlock s with port := rest, resp := none }

/-- The instruction of 30_encoding.md R80's pair as the next input of the port, with the environment's
choice that stands in `io` (log 12). -/
def issueNext (c : Command) (s : State) : State :=
  { s with port := .command c s.io :: s.port }

end Sys2Proof.Machine
end

