-- ==== Sys2Proof/Machine/Step.lean ====
section
/-! DEFINITION. One step of the machine: the block takes the next input of the host. A command is one
atomic step (00_scope.md R17, 20_memory.md R54). -/

namespace Sys2Proof.Machine

/-- A command word is decoded; a legal one runs, an illegal one answers `IllegalCommand`
(30_encoding.md R85). -/
def runCommand (c : Command) (s : State) : Result :=
  match decode c with
  | .ok i => exec i s
  | .error _ => .next (illegalCommand c.cmd s)

/-- One step (70_reset_and_hazards.md R276). With no input waiting the block is idle (R271, log 2). -/
def step (s : State) : Host.Outcome State Fault Refusal :=
  match s.port with
  | [] => .next s
  | .command c io :: rest => runCommand c (acceptCommand io rest s)
  | .feed bytes :: rest => .next (feedSource bytes rest s)
  | .drain n :: rest => .next (drainSink n rest s)
  | .loopBack :: rest => .next (loopBack rest s)
  | .reset :: rest => .next (hardReset rest s)
  | .resetDuring _ :: _ => .refused .resetDuringCommand
  | .misuse :: _ => .refused .hostMisuse

/-- `s` with the instruction whose bits are `w` (spec/opcode_table.json's numbering, bits from `nbits`
up 0) as the next input of the port (log 12). -/
def State.withFetchWord (s : State) (nbits w : Nat) : State :=
  issueNext (commandOfBits nbits w) s

end Sys2Proof.Machine
end

