-- ==== Sys2Proof/Machine/Assembler.lean ====
section
/-! DEFINITION. The assembler line of a command and the pseudo-instructions (30_encoding.md R86, R87).
None of this is read by the machine: it is the host's notation for command lists. -/

namespace Sys2Proof.Machine

/-! ## Assembler lines (R86) -/

/-- The line of a command: the `.w` suffix exactly on format `W`, `wb` or `rb` exactly on format `B`,
the immediate sub-field after `#`, and `opv` where the command reads it. -/
def asmLine : Instr → AsmLine
  | .setctl ctl => ⟨"SETCTL", none, none, some ctl.toNat, none⟩
  | .rdreg .ctrl => ⟨"RDREG", none, none, some 0, none⟩
  | .rdreg .status => ⟨"RDREG", none, none, some 1, none⟩
  | .rdreg .cur => ⟨"RDREG", none, none, some 2, none⟩
  | .sreset => ⟨"SRESET", none, none, none, none⟩
  | .push b bit => ⟨"PUSH", none, some b, some bit.toNat, none⟩
  | .pushb b byte => ⟨"PUSHB", none, some b, some byte.toNat, none⟩
  | .ext b n opv => ⟨"EXT", none, some b, some n, some opv⟩
  | .bload b opv => ⟨"BLOAD", none, some b, none, some opv⟩
  | .tobits b => ⟨"TOBITS", none, some b, none, none⟩
  | .tobytes b => ⟨"TOBYTES", none, some b, none, none⟩
  | .len b => ⟨"LEN", none, some b, none, none⟩
  | .isempty b => ⟨"ISEMPTY", none, some b, none, none⟩
  | .clear b => ⟨"CLEAR", none, some b, none, none⟩
  | .cap b => ⟨"CAP", none, some b, none, none⟩
  | .reserve b opv => ⟨"RESERVE", none, some b, none, some opv⟩
  | .wfin => ⟨"WFIN", none, none, none, none⟩
  | .rread => ⟨"RREAD", none, none, none, none⟩
  | .uenc w opv => ⟨"UENC", some w, none, none, some opv⟩
  | .udec1 w => ⟨"UDEC1", some w, none, none, none⟩
  | .udecn w => ⟨"UDECN", some w, none, none, none⟩
  | .udecs w => ⟨"UDECS", some w, none, none, none⟩
  | .genc w opv => ⟨"GENC", some w, none, none, some opv⟩
  | .gdec1 w => ⟨"GDEC1", some w, none, none, none⟩
  | .gdecn w => ⟨"GDECN", some w, none, none, none⟩
  | .gdecs w => ⟨"GDECS", some w, none, none, none⟩
  | .denc w opv => ⟨"DENC", some w, none, none, some opv⟩
  | .ddec1 w => ⟨"DDEC1", some w, none, none, none⟩
  | .ddecn w => ⟨"DDECN", some w, none, none, none⟩
  | .ddecs w => ⟨"DDECS", some w, none, none, none⟩
  | .vbenc w opv => ⟨"VBENC", some w, none, none, some opv⟩
  | .vbdec1 w => ⟨"VBDEC1", some w, none, none, none⟩
  | .vbdecs w => ⟨"VBDECS", some w, none, none, none⟩
  | .clz w opv => ⟨"CLZ", some w, none, none, some opv⟩
  | .top opv => ⟨"TOP", none, none, none, some opv⟩
  | .popcnt w opv => ⟨"POPCNT", some w, none, none, some opv⟩

/-- The text of a width suffix. -/
def suffixText : Width → String
  | .w8 => ".w8"
  | .w16 => ".w16"
  | .w32 => ".w32"
  | .w64 => ".w64"
  | .w128 => ".w128"

/-- The text of a buffer select. -/
def bufText : Buf → String
  | .wbuf => "wb"
  | .rbuf => "rb"

/-- The operands of a line, in the order of R86; numbers are written in decimal. -/
def operandTexts (l : AsmLine) : List String :=
  (l.buf.map bufText).toList ++ (l.imm.map fun n => "#" ++ toString n).toList ++
    (l.value.map fun v => toString v.toNat).toList

/-- The text of a line (R86): the operands after a space, separated by a comma and a space. -/
def asmText (l : AsmLine) : String :=
  let name := l.mnemonic ++ (l.suffix.map suffixText).getD ""
  match operandTexts l with
  | [] => name
  | o :: os => name ++ " " ++ os.foldl (fun t x => t ++ ", " ++ x) o

/-! ## Pseudo-instructions (R87) -/

/-- The expansion of a pseudo-instruction. -/
def expand : Pseudo → List Instr
  | .wbit bit => [.push .wbuf bit]
  | .wbits n value => [.ext .wbuf n value]
  | .senton => [.setctl 3]
  | .sentoff => [.setctl 0]
  | .uencList w values => values.map (.uenc w)
  | .gencList w values => values.map (.genc w)
  | .dencList w values => values.map (.denc w)
  | .vbencList w values => values.map (.vbenc w)

/-- Whether the last response is `OK`. -/
def lastOk (s : State) : Bool :=
  match s.resp with
  | some r => r.status = .ok
  | none => false

/-- The host issues one command with the environment's choice `io` for it: the command is accepted, the
inputs waiting on the port staying there, and runs. For a command that a word stands for this is one
step (Laws/Pseudo.lean, `issue_eq_step`). -/
def issue (i : Instr) (io : IoChoice) (s : State) : Result := exec i (acceptCommand io s.port s)

/-- The host's run of an expansion: it "stops at the first command that responds with a non-zero
status; the commands before it have taken effect" (R87). Each command has an I/O outcome of its own
(10_state.md R30, R31): `ios k` is the environment's choice for the command at index `k` (log 13). -/
def runList : List Instr → (Nat → IoChoice) → State → Result
  | [], _, s => .next s
  | i :: is, ios, s =>
    match issue i (ios 0) s with
    | .next t => if lastOk t then runList is (fun k => ios (k + 1)) t else .next t
    | .fault f => .fault f
    | .refused r => .refused r

/-- Run a pseudo-instruction. -/
def runPseudo (p : Pseudo) (ios : Nat → IoChoice) (s : State) : Result := runList (expand p) ios s

end Sys2Proof.Machine
end

