-- ==== Sys2Proof/Safety.lean ====
section
/-! DEFINITION. What claims are stated with: the invariant of the block's state, what a response
reports, and what a host can observe of a state. -/

namespace Sys2Proof.Machine

/-! ## The invariant -/

/-- `CAPB` is "a positive natural number, or `unbounded`" (00_scope.md R7). -/
abbrev Capacity.Ok (c : Capacity) : Prop := c ≠ .bytes 0

/-- Padding is zero (10_state.md R22 clause d): the bits of the last live byte past the length are 0. -/
abbrev PaddingZero (B : Buffer) : Prop :=
  B.len % 8 ≠ 0 → (memRead B.mem (B.len / 8)).toNat % 2 ^ (8 - B.len % 8) = 0

/-- The invariant of one bit buffer (10_state.md R22): the length is within the capacity (clause a), the
store is canonical and holds no byte past the capacity (R20), and the bits of the last live byte below
the length are 0 (clause d). -/
abbrev Buffer.Ok (c : Capacity) (B : Buffer) : Prop :=
  holdsBits c B.len = true ∧
  Memory.wf B.mem ∧
  (∀ cell ∈ B.mem, holdsBytes c (cell.1 + 1) = true) ∧
  PaddingZero B

/-- The reserved bits of `CTRL`, 31:2, read 0 (R27). -/
abbrev CtrlOk (ctrl : Word) : Prop := ctrl &&& 0xFFFFFFFC#32 = 0#32

/-- The reserved bits of `STATUS`, 15:4, and bit 16 read 0 (R28); the codes 12 to 15 are never produced
(60_exceptions.md R240), so their flags stay 0 and `LAST` is at most 11. -/
abbrev StatusOk (st : Word) : Prop := st &&& 0xF001FFF0#32 = 0#32 ∧ (statusLast st).toNat ≤ 11

/-- A response with a non-zero status has an empty list (30_encoding.md R81). -/
abbrev RespOk (resp : Option Response) : Prop := ∀ r ∈ resp, r.status = .ok ∨ r.rlist = []

/-- The invariant of the state: it holds at reset and every step keeps it. -/
abbrev Inv (s : State) : Prop :=
  Capacity.Ok s.capb ∧ Buffer.Ok s.capb s.wbuf ∧ Buffer.Ok s.capb s.rbuf ∧ s.cur ≤ s.rbuf.len ∧
  CtrlOk s.ctrl ∧ StatusOk s.status ∧ RespOk s.resp

/-! ## What a response reports -/

/-- The response of `t` has status `c`, the number `n` in `rv` where 128 bits can hold it, and the list
`l`. It says nothing of `rv` where `n` does not fit (log 6). -/
def Reports (t : State) (c : Code) (n : Nat) (l : List Quad) : Prop :=
  ∃ rv, t.resp = some ⟨c, rv, l⟩ ∧ (n < 2 ^ 128 → rv.toNat = n)

/-- The `STATUS` update of 60_exceptions.md R247, bit by bit: `LAST` is the code, the flag of a non-zero
code is set, every other bit from 4 up is as before. -/
def StatusRecorded (c : Code) (st st' : Word) : Prop :=
  statusLast st' = c.num ∧
  ∀ k, 4 ≤ k → (st'.getLsbD k = true ↔ st.getLsbD k = true ∨ (c ≠ .ok ∧ k = 16 + c.num.toNat))

/-- From `s` a command ended in `t` with this response and the `STATUS` update that goes with it. -/
def Completes (s t : State) (c : Code) (n : Nat) (l : List Quad) : Prop :=
  Reports t c n l ∧ StatusRecorded c s.status t.status

/-- The response is the error `c` with `n` in `rv` and an empty list, and the state is as it was in `u`
but for `STATUS`: `u` is `s`, or `s` after what an I/O call moved (R248). -/
def FailsFrom (s u t : State) (c : Code) (n : Nat) : Prop :=
  Completes s t c n [] ∧ t = { u with status := t.status, resp := t.resp }

/-! ## Capacity and stores -/

/-- `n` bits are within `8*CAPB` (00_scope.md R7). -/
def FitsBits (c : Capacity) (n : Nat) : Prop := ∀ k, c = .bytes k → n ≤ 8 * k

/-- `n` bytes are within `CAPB`. -/
def FitsBytes (c : Capacity) (n : Nat) : Prop := ∀ k, c = .bytes k → n ≤ k

/-- Every byte of a buffer's store outside the byte addresses `lo` to `hi - 1` reads as before. -/
def SameBytesOutside (lo hi : Nat) (B B' : Buffer) : Prop :=
  ∀ a, a < lo ∨ hi ≤ a → memRead B'.mem a = memRead B.mem a

/-- One past the last byte that `n` bits appended at bit address `len` are stored to; none for `n = 0`. -/
def storeEnd (len n : Nat) : Nat := if n = 0 then len / 8 else (len + n - 1) / 8 + 1

/-- `B'` is `B` with the bits `x` appended: the bits, the length, the padding 0, and every byte that
holds none of them as before. -/
def Appended (x : List Bool) (B B' : Buffer) : Prop :=
  B'.bits = B.bits ++ x ∧ B'.len = B.len + x.length ∧
  PaddingZero B' ∧ SameBytesOutside (B.len / 8) (storeEnd B.len x.length) B B'

/-- `B'` is `B` loaded with the bit sequence `x`: the padding is 0, and every byte that
holds none of it is as before. -/
def Loaded (x : List Bool) (B B' : Buffer) : Prop :=
  B'.bits = x ∧ B'.len = x.length ∧ PaddingZero B' ∧ SameBytesOutside 0 ((x.length + 7) / 8) B B'

/-- The bytes `out` hold the bits `x` and then fewer than 8 zero bits of padding (41_bitwriter.md R142). -/
def PaddedBytes (x : List Bool) (out : List Byte) : Prop :=
  ∃ k, k < 8 ∧ unpack out = x ++ List.replicate k false

/-! ## Codecs -/

/-- A well-formed Variable-Byte group (46_varbyte.md R207): its last byte and only its last byte has
bit 7 set. -/
def IsVbGroup (g : List Byte) : Prop :=
  ∃ init last, g = init ++ [last] ∧ (∀ y ∈ init, y.getLsbD 7 = false) ∧ last.getLsbD 7 = true

/-- `vbval(g)`, the sum of R207. -/
def vbSum : List Byte → Nat
  | [] => 0
  | y :: ys => (y.toNat % 128) * 128 ^ ys.length + vbSum ys

/-- A `DEC1` command for the codewords `word v`, `v >= low`, that accepts values up to `limit W`: the
remaining bits are exactly one codeword and its value is delivered, or it is too large, or they are no
codeword. Nothing changes but `STATUS`. -/
def DecodesExactlyOne (i : Width → Instr) (word : Nat → List Bool) (low : Nat) (limit : Nat → Nat)
    (err : Code) : Prop :=
  ∀ (w : Width) (s : State),
    (∀ v, low ≤ v → v ≤ limit w.bits → s.rem = word v →
      ∃ t, exec (i w) s = .next t ∧ Completes s t .ok v [] ∧
        t = { s with status := t.status, resp := t.resp }) ∧
    (∀ v, low ≤ v → limit w.bits < v → s.rem = word v →
      ∃ t, exec (i w) s = .next t ∧ FailsFrom s s t .overflowError s.cur) ∧
    ((∀ v, low ≤ v → s.rem ≠ word v) →
      ∃ t, exec (i w) s = .next t ∧ FailsFrom s s t err s.cur)

/-- A `DECN` command: the remaining bits begin with a codeword, whose value is delivered and past which
`CUR` moves, or the codeword is too large, or they begin with none; on an error `CUR` stays. -/
def DecodesNext (i : Width → Instr) (word : Nat → List Bool) (low : Nat) (limit : Nat → Nat)
    (err : Code) : Prop :=
  ∀ (w : Width) (s : State),
    (∀ v rest, low ≤ v → v ≤ limit w.bits → s.rem = word v ++ rest →
      ∃ t, exec (i w) s = .next t ∧ Completes s t .ok v [] ∧
        t = { s with cur := s.cur + (word v).length, status := t.status, resp := t.resp }) ∧
    (∀ v rest, low ≤ v → limit w.bits < v → s.rem = word v ++ rest →
      ∃ t, exec (i w) s = .next t ∧ FailsFrom s s t .overflowError s.cur) ∧
    ((∀ v rest, low ≤ v → s.rem ≠ word v ++ rest) →
      ∃ t, exec (i w) s = .next t ∧ FailsFrom s s t err s.cur)

/-- A `DECS` command: the remaining bits are codewords of acceptable values `vs` and then `tail`. With no
tail all values are delivered and `CUR` moves to `RBUF.len`; a tail that begins with a codeword too
large, or is not empty and begins with none, is reported at its own address, and nothing is delivered
and nothing changes but `STATUS`. -/
def DecodesStream (i : Width → Instr) (word : Nat → List Bool) (low : Nat) (limit : Nat → Nat)
    (err : Code) : Prop :=
  ∀ (w : Width) (s : State) (vs : List Nat) (tail : List Bool),
    (∀ v ∈ vs, low ≤ v ∧ v ≤ limit w.bits) → s.rem = vs.flatMap word ++ tail →
    (tail = [] →
      ∃ t, exec (i w) s = .next t ∧ Completes s t .ok vs.length (vs.map (BitVec.ofNat 128)) ∧
        t = { s with cur := s.rbuf.len, status := t.status, resp := t.resp }) ∧
    (∀ v rest, low ≤ v → limit w.bits < v → tail = word v ++ rest →
      ∃ t, exec (i w) s = .next t ∧
        FailsFrom s s t .overflowError (s.cur + (vs.flatMap word).length)) ∧
    (tail ≠ [] → (∀ v rest, low ≤ v → tail ≠ word v ++ rest) →
      ∃ t, exec (i w) s = .next t ∧ FailsFrom s s t err (s.cur + (vs.flatMap word).length))

/-- A codec's round trip through the sentinel framing. From an empty writer with both sentinel flags on,
empty streams and no I/O failure, the list form `enc` of values a decoder of the width accepts, then
`WFIN`, the host's loop back, `RREAD` and `dec` deliver the list, provided the stream fits. -/
def StreamRoundTrip (enc : Width → List Quad → Pseudo) (dec : Width → Instr)
    (word : Nat → List Bool) (low : Nat) (limit : Nat → Nat) : Prop :=
  ∀ (w : Width) (s : State) (vs : List Nat), Inv s →
    s.wbuf.len = 0 → s.ctrl = 3 → s.src = [] → s.snk = [] →
    vs ≠ [] → (∀ v ∈ vs, low ≤ v ∧ v ≤ limit w.bits) →
    FitsBytes s.capb ((vs.flatMap word).length / 8 + 1) →
    ∃ s₁ s₂ s₃ s₄, runPseudo (enc w (vs.map (BitVec.ofNat 128))) (fun _ => .allOk) s = .next s₁ ∧
      exec .wfin s₁ = .next s₂ ∧ exec .rread (loopBack [] s₂) = .next s₃ ∧
      exec (dec w) s₃ = .next s₄ ∧
      s₃.rbuf.bits = vs.flatMap word ∧ Reports s₄ .ok vs.length (vs.map (BitVec.ofNat 128))

/-- The laws of a bit codec (43_unary.md R166, 44_gamma.md R181, 45_delta.md R196): (a) the exact decode
command on one codeword returns its value, (b) codewords are prefix-free, so that the stream decode
command on codewords in a row returns their values, (c) a codeword's length is `size v`. The values
are those a decoder of the width accepts (90_conflicts.md C1); (b)'s first half and (c) are of every
value that has a codeword. -/
def CodecLaws (dec1 decs : Width → Instr) (word : Nat → List Bool) (low : Nat) (limit : Nat → Nat)
    (size : Nat → Nat) : Prop :=
  (∀ (w : Width) (s : State) (v : Nat), low ≤ v → v ≤ limit w.bits → s.rem = word v →
    ∃ t, exec (dec1 w) s = .next t ∧ Reports t .ok v []) ∧
  (∀ (u v : Nat) (rest : List Bool), low ≤ u → low ≤ v → word u ++ rest = word v →
    u = v ∧ rest = []) ∧
  (∀ (w : Width) (s : State) (vs : List Nat), (∀ v ∈ vs, low ≤ v ∧ v ≤ limit w.bits) →
    s.rem = vs.flatMap word →
    ∃ t, exec (decs w) s = .next t ∧ Reports t .ok vs.length (vs.map (BitVec.ofNat 128))) ∧
  (∀ v, low ≤ v → (word v).length = size v)

/-! ## Observation -/

/-- What a host can learn of a state: of each buffer its bit sequence and nothing else (R22 clause e). -/
structure View where
  wbits : List Bool
  rbits : List Bool
  cur : Nat
  ctrl : Word
  status : Word
  src : List Byte
  snk : List SinkEvent
  capb : Capacity
  port : List HostInput
  io : IoChoice
  resp : Option Response
  draws : Nat
deriving DecidableEq, Repr

/-- The view of a state. -/
def State.view (s : State) : View :=
  ⟨s.wbuf.bits, s.rbuf.bits, s.cur, s.ctrl, s.status, s.src, s.snk, s.capb, s.port, s.io, s.resp,
    s.draws⟩

/-- The state with a status register of another value. -/
def State.withStatus (s : State) (st : Word) : State := { s with status := st }

end Sys2Proof.Machine
end

