-- ==== Sys2Proof/Certificates/Slice0/Obligations.lean ====
section
/-! DEFINITION. The statements for the provers. Each docstring names the rule of spec/ it formalises. -/

open Sys2Proof Sys2Proof.Machine

/-! ## Reset and the machine's step -/

/-- 10_state.md R34 and 48_system.md R233: hardware reset and `SRESET` put every piece of block state at
the value of the table and do not change `SRC` and `SNK`; `SRESET` responds `OK` with 0. -/
def Obligations.ResetAndSoftResetGiveTheTable : Prop :=
  (∀ (s : State) (rest : List HostInput), s.port = .reset :: rest →
    ∃ t, step s = .next t ∧ t.port = rest ∧
      t.wbuf.len = 0 ∧ t.rbuf.len = 0 ∧ t.cur = 0 ∧ t.ctrl = 0x00000003 ∧ t.status = 0x00000000 ∧
      t.src = s.src ∧ t.snk = s.snk ∧ t.capb = s.capb) ∧
  (∀ s : State, ∃ t, exec .sreset s = .next t ∧ Reports t .ok 0 [] ∧
      t.wbuf.len = 0 ∧ t.rbuf.len = 0 ∧ t.cur = 0 ∧ t.ctrl = 0x00000003 ∧ t.status = 0x00000000 ∧
      t.src = s.src ∧ t.snk = s.snk ∧ t.capb = s.capb ∧ t.port = s.port ∧ t.io = s.io ∧
      t.draws = s.draws)

/-- "The byte stores are not cleared and need not be" (70_reset_and_hazards.md R270): no byte of a store
changes in a hardware reset or in `SRESET`. That they keep their bytes is the model's reading (log 16);
no command can observe it. -/
def Obligations.ResetLeavesTheStores : Prop :=
  ∀ (s : State) (a : Nat),
    (∀ (rest : List HostInput) (t : State), s.port = .reset :: rest → step s = .next t →
      memRead t.wbuf.mem a = memRead s.wbuf.mem a ∧ memRead t.rbuf.mem a = memRead s.rbuf.mem a) ∧
    (∀ t : State, exec .sreset s = .next t →
      memRead t.wbuf.mem a = memRead s.wbuf.mem a ∧ memRead t.rbuf.mem a = memRead s.rbuf.mem a)

/-- The state after reset meets the invariant (R22, R23, R27, R28 "true after reset"), and its block state
is that of the table R34. The capacity and the empty streams are the model's choice (log 5, log 8). -/
def Obligations.ResetStateMeetsInvariant : Prop :=
  Inv State.reset ∧ State.reset.wbuf.len = 0 ∧ State.reset.rbuf.len = 0 ∧ State.reset.cur = 0 ∧
    State.reset.ctrl = 0x00000003 ∧ State.reset.status = 0x00000000

/-- The invariants of 10_state.md R22 (clauses a, b, d, and the canonical form of the stores), R23 (the
cursor), R27 and R28 (reserved bits) and 30_encoding.md R81 (an error's list is empty) are kept by every
step, whatever input the host gives and whatever the environment chooses. -/
def Obligations.EveryStepKeepsInvariant : Prop :=
  ∀ s t : State, Inv s → step s = .next t → Inv t

/-- A command whose word decodes to `i` runs as `i` (00_scope.md R17, 30_encoding.md R80). What step adds
around exec is the model's own choice and no rule of the spec: the command is taken off the port
(log 1), the environment's choice for it is put in `io` (log 3), and the counter `draws` of the free
values moves on by one (log 6). -/
def Obligations.StepRunsTheDecodedCommand : Prop :=
  ∀ (s : State) (c : Command) (io : IoChoice) (rest : List HostInput) (i : Instr),
    s.port = .command c io :: rest → decode c = .ok i →
    step s = exec i { s with port := rest, io := io, draws := s.draws + 1 }

/-- The other rows of 70_reset_and_hazards.md R276: feeding the source, draining the sink, the loop back,
an idle block (R271), and the runs the spec tells a model to refuse (U9, U10). -/
def Obligations.HostInputsActOnStreamsOnly : Prop :=
  ∀ (s : State) (rest : List HostInput),
    (∀ bytes, s.port = .feed bytes :: rest →
      step s = .next { s with port := rest, src := s.src ++ bytes }) ∧
    (∀ n, s.port = .drain n :: rest →
      step s = .next { s with port := rest, snk := s.snk.drop n }) ∧
    (s.port = .loopBack :: rest →
      ∃ t, step s = .next t ∧ t = { s with port := rest, snk := [], src := t.src } ∧
        ∀ l : List Byte, s.snk.filter (· ≠ .flush) = l.map .byte → t.src = s.src ++ l) ∧
    (s.port = [] → step s = .next s) ∧
    (∀ c, s.port = .resetDuring c :: rest → step s = .refused .resetDuringCommand) ∧
    (s.port = .misuse :: rest → step s = .refused .hostMisuse)

/-! ## Encoding -/

/-- Decode and encode agree: every operand of every well-formed command survives. -/
def Obligations.DecodeOfEncodeIsTheInstruction : Prop :=
  ∀ i : Instr, i.WellFormed → decode (encode i) = .ok i

/-- Each legal word has one meaning: what a command decodes to is well formed, encodes to that word, and
encodes to that `opv` where the command reads it and to 0 where it ignores it (30_encoding.md R83). -/
def Obligations.EncodeOfDecodeIsTheWord : Prop :=
  ∀ (c : Command) (i : Instr), decode c = .ok i →
    i.WellFormed ∧ (encode i).cmd = c.cmd ∧ (encode i).opv = if i.readsOpv then c.opv else 0

/-- 30_encoding.md R84: a word selects the command of a row when `(cmd & mask) = match` and the row's
field constraints hold; no word selects two rows; a word that selects none is illegal. -/
def Obligations.DecodingFollowsTheOpcodeMap : Prop :=
  (∀ (c : Command) (r : Row), r ∈ rows → c.cmd &&& r.mask = r.pattern →
    (∀ i, r.build c = some i → decode c = .ok i) ∧
    (r.build c = none → decode c = .error .fieldConstraint)) ∧
  (∀ c : Command, (∀ r ∈ rows, c.cmd &&& r.mask ≠ r.pattern) →
    decode c = .error .unknownOpcode ∨ decode c = .error .strayBit) ∧
  (∀ (w : Word) (r q : Row), r ∈ rows → q ∈ rows → w &&& r.mask = r.pattern → w &&& q.mask = q.pattern →
    r.mnemonic = q.mnemonic) ∧
  rows.length = 34

/-- 30_encoding.md R85: the words that are illegal, clause by clause, and what an illegal command does:
it changes no state except `STATUS` and responds `IllegalCommand` with `rv` the offending word. -/
def Obligations.IllegalWordAnswersIllegalCommand : Prop :=
  (∀ c : Command, (∃ e, decode c = .error e) ↔
    ((∀ r ∈ rows, r.pattern.extractLsb' 24 8 ≠ c.op) ∨
     (∃ r ∈ rows, r.pattern.extractLsb' 24 8 = c.op ∧ c.cmd &&& r.mask ≠ r.pattern) ∨
     (∃ r ∈ rows, c.cmd &&& r.mask = r.pattern ∧ r.build c = none))) ∧
  (∀ (s : State) (c : Command) (io : IoChoice) (rest : List HostInput) (e : DecodeError),
    s.port = .command c io :: rest → decode c = .error e →
    ∃ t, step s = .next t ∧
      FailsFrom s { s with port := rest, io := io, draws := s.draws + 1 } t .illegalCommand c.cmd.toNat) ∧
  (∃ e, decode ⟨0x00000000, 0⟩ = .error e) ∧ (∃ e, decode ⟨0xFFFFFFFF, 0⟩ = .error e)

/-- Words of 95_test_vectors.md and 30_encoding.md R86 decode to the commands they stand for. -/
def Obligations.WordsOfTheSpecDecode : Prop :=
  decode ⟨0x10000001, 0⟩ = .ok (.push .wbuf true) ∧
  decode ⟨0x111000B8, 0⟩ = .ok (.pushb .rbuf 0xB8) ∧
  decode ⟨0x12000003, 5⟩ = .ok (.ext .wbuf 3 5) ∧
  decode ⟨0x13100000, 13⟩ = .ok (.bload .rbuf 13) ∧
  decode ⟨0x01000003, 0⟩ = .ok (.setctl 3) ∧
  decode ⟨0x02000002, 0⟩ = .ok (.rdreg .cur) ∧
  decode ⟨0x40400000, 9⟩ = .ok (.genc .w32 9) ∧
  decode ⟨0x53800000, 0⟩ = .ok (.ddecs .w128) ∧
  decode ⟨0x71000000, 0x8C⟩ = .ok (.top 0x8C)

/-! ## Rules about every command -/

/-- 70_reset_and_hazards.md R284: every command, in every state and with every operand, produces its
response; and it leaves the host's port and the parameter `CAPB` alone (00_scope.md R7). -/
def Obligations.EveryCommandGivesOneResponse : Prop :=
  ∀ (i : Instr) (s : State), ∃ t r, exec i s = .next t ∧ t.resp = some r ∧
    t.port = s.port ∧ t.capb = s.capb ∧ t.io = s.io ∧ t.draws = s.draws

/-- 60_exceptions.md R247: the `STATUS` update of every command; `SRESET` leaves 0 and a legal `RDREG`
changes nothing. The last clause is the update of an illegal command. -/
def Obligations.StatusRecordsEveryResponse : Prop :=
  (∀ (i : Instr) (s t : State), exec i s = .next t →
    (∀ r, i = .rdreg r → t.status = s.status) ∧
    (i = .sreset → t.status = 0) ∧
    ((∀ r, i ≠ .rdreg r) → i ≠ .sreset →
      ∃ r, t.resp = some r ∧ StatusRecorded r.status s.status t.status)) ∧
  (∀ (s t : State) (c : Command) (e : DecodeError), decode c = .error e → runCommand c s = .next t →
    StatusRecorded .illegalCommand s.status t.status)

/-- 60_exceptions.md R248: a command that responds with a non-zero status has changed no architectural
state except `STATUS`; `SRC`, which only the four source-reading commands may have consumed, wholly or
(on an `IoError`) the part the environment chose; and `SNK`, which may have received a prefix of the
bytes, with a flush mark never among them, when a sink write fails. No list of values is delivered. An
illegal command, the last clause, changes nothing but `STATUS`. -/
def Obligations.ErrorsArePrecise : Prop :=
  (∀ (i : Instr) (s t : State) (r : Response), exec i s = .next t → t.resp = some r → r.status ≠ .ok →
    r.rlist = [] ∧
    t = { s with status := t.status, resp := t.resp, src := t.src, snk := t.snk } ∧
    (t.src = s.src ∨
      ((i = .rread ∨ (∃ b opv, i = .bload b opv) ∨ (∃ w, i = .vbdec1 w) ∨ (∃ w, i = .vbdecs w)) ∧
        ((r.status ≠ .ioError ∧ t.src = []) ∨ (r.status = .ioError ∧ ∃ k, t.src = s.src.drop k)))) ∧
    (t.snk = s.snk ∨
      (r.status = .ioError ∧
        ((i = .wfin ∧ ∃ k, t.snk = s.snk ++
            ((pack (if s.ctrl.getLsbD 0 then s.wbuf.bits ++ [true] else s.wbuf.bits)).take k).map .byte) ∨
         (∃ w opv, i = .vbenc w opv ∧ ∃ k, t.snk = s.snk ++
            ((vbGroup (opv.toNat % 2 ^ w.bits)).take k).map .byte))))) ∧
  (∀ (s t : State) (c : Command) (e : DecodeError), decode c = .error e → runCommand c s = .next t →
    t = { s with status := t.status, resp := t.resp })

/-- 10_state.md R28: no command's behaviour depends on `STATUS`. From states that differ in `STATUS` only,
every command but the read of `STATUS` itself gives the same response and the same state but for
`STATUS`. -/
def Obligations.NoCommandDependsOnStatus : Prop :=
  ∀ (i : Instr) (s t : State) (st : Word), i ≠ .rdreg .status → exec i s = .next t →
    ∃ t', exec i (s.withStatus st) = .next t' ∧ t' = t.withStatus t'.status

/-- 10_state.md R23: who moves `CUR`. It is set to 0 by `SRESET`, by a successful `RREAD`, by a successful
`BLOAD` and by `CLEAR` on the reader side; a successful `DECN` moves it forward, a successful `DECS` to
`RBUF.len`; no other command changes it. -/
def Obligations.CursorMovesAsTheRuleSays : Prop :=
  ∀ (i : Instr) (s t : State) (r : Response), Inv s → exec i s = .next t → t.resp = some r →
    (t.cur ≠ s.cur →
      r.status = .ok ∧
      ((t.cur = 0 ∧ (i = .sreset ∨ i = .rread ∨ i = .clear .rbuf ∨ ∃ opv, i = .bload .rbuf opv)) ∨
       (s.cur < t.cur ∧ t.cur ≤ s.rbuf.len ∧ ∃ w, i = .udecn w ∨ i = .gdecn w ∨ i = .ddecn w) ∨
       (t.cur = s.rbuf.len ∧ ∃ w, i = .udecs w ∨ i = .gdecs w ∨ i = .ddecs w))) ∧
    (r.status = .ok → (i = .sreset ∨ i = .rread ∨ i = .clear .rbuf ∨ ∃ opv, i = .bload .rbuf opv) →
      t.cur = 0) ∧
    (r.status = .ok → (∃ w, i = .udecs w ∨ i = .gdecs w ∨ i = .ddecs w) → t.cur = s.rbuf.len) ∧
    t.cur ≤ t.rbuf.len

/-- 10_state.md R31 and R30, 20_memory.md R51: `SNK` is appended to by `WFIN` and `VBENC` and by nothing
else, nothing is ever taken off it by a command, and a flush mark comes from `WFIN` alone; `SRC` is
drained from the front by the four source-reading commands and left alone by every other. -/
def Obligations.OnlyTheStreamCommandsTouchTheStreams : Prop :=
  ∀ (i : Instr) (s t : State), exec i s = .next t →
    (∃ l, t.snk = s.snk ++ l ∧
      (i ≠ .wfin → .flush ∉ l) ∧ (i ≠ .wfin → (∀ w opv, i ≠ .vbenc w opv) → l = [])) ∧
    (∃ k, t.src = s.src.drop k) ∧
    (i ≠ .rread → (∀ b opv, i ≠ .bload b opv) → (∀ w, i ≠ .vbdec1 w) → (∀ w, i ≠ .vbdecs w) →
      t.src = s.src)

/-- 10_state.md R27 and 20_memory.md R51: `CTRL` is written by `SETCTL` and `SRESET` only; `WBUF` by the
buffer commands with `b = 0`, the three bit encoders, `WFIN` and `SRESET` only; `RBUF` by `RREAD`, the
buffer commands with `b = 1` and `SRESET` only. -/
def Obligations.WhoWritesTheBuffersAndControl : Prop :=
  ∀ (i : Instr) (s t : State), exec i s = .next t →
    ((∀ x, i ≠ .setctl x) → i ≠ .sreset → t.ctrl = s.ctrl) ∧
    (t.wbuf ≠ s.wbuf → i = .sreset ∨ i = .wfin ∨ i = .clear .wbuf ∨
      (∃ x, i = .push .wbuf x) ∨ (∃ y, i = .pushb .wbuf y) ∨ (∃ n v, i = .ext .wbuf n v) ∨
      (∃ v, i = .bload .wbuf v) ∨ ∃ w v, i = .uenc w v ∨ i = .genc w v ∨ i = .denc w v) ∧
    (t.rbuf ≠ s.rbuf → i = .sreset ∨ i = .rread ∨ i = .clear .rbuf ∨
      (∃ x, i = .push .rbuf x) ∨ (∃ y, i = .pushb .rbuf y) ∨ (∃ n v, i = .ext .rbuf n v) ∨
      (∃ v, i = .bload .rbuf v))

/-- 10_state.md R22 clause e: the bit sequence of a buffer is its whole observable content. From two states
of the invariant that a host cannot tell apart (their stores may differ in bytes that are not live),
every command gives the same response and states that a host cannot tell apart. -/
def Obligations.OnlyTheBitSequencesAreObservable : Prop :=
  ∀ (i : Instr) (s s' t : State), Inv s → Inv s' → s.view = s'.view → exec i s = .next t →
    ∃ t', exec i s' = .next t' ∧ t'.view = t.view

/-- 20_memory.md R58: the nine bit-sequence decode commands read `Rem` and nothing else: they never read
`WBUF`, `SRC`, `SNK` or the sentinel flags. -/
def Obligations.BitDecodersReadTheReaderSideOnly : Prop :=
  ∀ (w : Width) (i : Instr) (s t : State) (B : Buffer) (src : List Byte) (snk : List SinkEvent)
    (ctrl : Word),
    i ∈ [.udec1 w, .udecn w, .udecs w, .gdec1 w, .gdecn w, .gdecs w, .ddec1 w, .ddecn w, .ddecs w] →
    exec i s = .next t →
    exec i { s with wbuf := B, src := src, snk := snk, ctrl := ctrl } =
      .next { t with wbuf := B, src := src, snk := snk, ctrl := ctrl }

/-- 10_state.md R30, 60_exceptions.md R244 and R249 (3): a failing read of the source stops a
source-reading command at once with the environment's `info`; what had moved is gone from `SRC` and
nothing else has changed but `STATUS`. It comes before every other error of the command. -/
def Obligations.FailingSourceReadComesFirst : Prop :=
  ∀ (i : Instr) (s : State) (f : IoFail), s.io.read = some f →
    (i = .rread ∨ (∃ b opv, i = .bload b opv) ∨ (∃ w, i = .vbdec1 w) ∨ (∃ w, i = .vbdecs w)) →
    ∃ t, exec i s = .next t ∧
      FailsFrom s { s with src := s.src.drop f.moved } t .ioError f.info.toNat

/-! ## System commands -/

/-- 48_system.md R231: `SETCTL` writes the two flags and answers the new `CTRL` value. -/
def Obligations.SetctlWritesTheSentinelFlags : Prop :=
  ∀ (ctl : BitVec 2) (s : State), ∃ t, exec (.setctl ctl) s = .next t ∧
    t.ctrl.getLsbD 0 = ctl.getLsbD 0 ∧ t.ctrl.getLsbD 1 = ctl.getLsbD 1 ∧
    (∀ k, 2 ≤ k → t.ctrl.getLsbD k = s.ctrl.getLsbD k) ∧
    Completes s t .ok ctl.toNat [] ∧ (Inv s → t.ctrl.toNat = ctl.toNat) ∧
    t = { s with ctrl := t.ctrl, status := t.status, resp := t.resp }

/-- 48_system.md R232: `RDREG` answers the register's value and changes nothing, `STATUS` included. -/
def Obligations.RdregReadsEachRegister : Prop :=
  ∀ (r : Reg) (s : State), ∃ t, exec (.rdreg r) s = .next t ∧
    (r = .ctrl → Reports t .ok s.ctrl.toNat []) ∧
    (r = .status → Reports t .ok s.status.toNat []) ∧
    (r = .cur → Reports t .ok s.cur []) ∧
    t = { s with resp := t.resp }

/-! ## Bit buffer commands -/

/-- 40_bitbuffer.md R111: `PUSH` appends one bit, or `CapacityError` and no change. -/
def Obligations.PushAppendsOneBit : Prop :=
  ∀ (b : Buf) (x : Bool) (s : State), Inv s →
    (FitsBits s.capb ((s.buf b).len + 1) →
      ∃ t, exec (.push b x) s = .next t ∧ Appended [x] (s.buf b) (t.buf b) ∧
        Completes s t .ok ((s.buf b).len + 1) [] ∧
        t = { s.setBuf b (t.buf b) with status := t.status, resp := t.resp }) ∧
    (¬ FitsBits s.capb ((s.buf b).len + 1) →
      ∃ t, exec (.push b x) s = .next t ∧ FailsFrom s s t .capacityError ((s.buf b).len + 1))

/-- 40_bitbuffer.md R112, 20_memory.md R57: `PUSHB` rounds the length up to a byte and appends the byte
MSB first; the new length is `8*(ceil(len/8) + 1)`; or `CapacityError` and no change. -/
def Obligations.PushbAppendsAnAlignedByte : Prop :=
  ∀ (b : Buf) (y : Byte) (s : State), Inv s →
    (FitsBytes s.capb (((s.buf b).len + 7) / 8 + 1) →
      ∃ t, exec (.pushb b y) s = .next t ∧
        (t.buf b).bits = (s.buf b).bits ++ List.replicate ((8 - (s.buf b).len % 8) % 8) false ++
          unpack [y] ∧
        (t.buf b).len = 8 * (((s.buf b).len + 7) / 8 + 1) ∧
        SameBytesOutside (((s.buf b).len + 7) / 8) (((s.buf b).len + 7) / 8 + 1) (s.buf b) (t.buf b) ∧
        Completes s t .ok (8 * (((s.buf b).len + 7) / 8 + 1)) [] ∧
        t = { s.setBuf b (t.buf b) with status := t.status, resp := t.resp }) ∧
    (¬ FitsBytes s.capb (((s.buf b).len + 7) / 8 + 1) →
      ∃ t, exec (.pushb b y) s = .next t ∧
        FailsFrom s s t .capacityError (8 * (((s.buf b).len + 7) / 8 + 1)))

/-- 40_bitbuffer.md R113: `EXT` appends the `n` low bits of `opv`, most significant first, all or none. -/
def Obligations.ExtAppendsTheLowBits : Prop :=
  ∀ (b : Buf) (n : Nat) (opv : Quad) (s : State), Inv s → n ≤ 128 →
    (FitsBits s.capb ((s.buf b).len + n) →
      ∃ t x, exec (.ext b n opv) s = .next t ∧ x.length = n ∧
        (∀ j (h : j < x.length), x[j] = opv.getLsbD (n - 1 - j)) ∧
        Appended x (s.buf b) (t.buf b) ∧ Completes s t .ok ((s.buf b).len + n) [] ∧
        t = { s.setBuf b (t.buf b) with status := t.status, resp := t.resp }) ∧
    (¬ FitsBits s.capb ((s.buf b).len + n) →
      ∃ t, exec (.ext b n opv) s = .next t ∧ FailsFrom s s t .capacityError ((s.buf b).len + n))

/-- 40_bitbuffer.md R114: `BLOAD` with a consistent length loads `Unpack(bytes)[0..L]`, consumes `SRC`, and
on the reader side sets `CUR` to 0; a failing read is `IoError`, too many bytes are `CapacityError`,
then an inconsistent length is `LengthError`, with `SRC` consumed (on `IoError` the part that had
moved) and nothing else changed but `STATUS`. The inequality is read over the integers. -/
def Obligations.BloadLoadsAnExactLength : Prop :=
  ∀ (b : Buf) (opv : Quad) (s : State), Inv s →
    (∀ f, s.io.read = some f → ∃ t, exec (.bload b opv) s = .next t ∧
      FailsFrom s { s with src := s.src.drop f.moved } t .ioError f.info.toNat) ∧
    (s.io.read = none →
      (¬ FitsBytes s.capb s.src.length → ∃ t, exec (.bload b opv) s = .next t ∧
        FailsFrom s { s with src := [] } t .capacityError (8 * s.src.length)) ∧
      (FitsBytes s.capb s.src.length →
        8 * ((s.src.length : Int) - 1) ≤ opv.toNat → (opv.toNat : Int) ≤ 8 * s.src.length →
        ∃ t, exec (.bload b opv) s = .next t ∧
          Loaded ((unpack s.src).take opv.toNat) (s.buf b) (t.buf b) ∧
          Completes s t .ok opv.toNat [] ∧
          t = { s.setBuf b (t.buf b) with
                src := [], cur := (if b = .rbuf then 0 else s.cur), status := t.status,
                resp := t.resp }) ∧
      (FitsBytes s.capb s.src.length →
        ¬ (8 * ((s.src.length : Int) - 1) ≤ opv.toNat ∧ (opv.toNat : Int) ≤ 8 * s.src.length) →
        ∃ t, exec (.bload b opv) s = .next t ∧
          FailsFrom s { s with src := [] } t .lengthError opv.toNat))

/-- 40_bitbuffer.md R115: `TOBITS` answers the bit sequence, item `a` being bit `7 - (a mod 8)` of byte
`a div 8` of the store (00_scope.md R13), and changes nothing but `STATUS`. -/
def Obligations.TobitsAnswersTheBits : Prop :=
  ∀ (b : Buf) (s : State), ∃ t l, exec (.tobits b) s = .next t ∧ l.length = (s.buf b).len ∧
    (∀ a (h : a < l.length), l[a].toNat =
      ((memRead (s.buf b).mem (a / 8)).getLsbD (7 - a % 8)).toNat) ∧
    Completes s t .ok (s.buf b).len l ∧ t = { s with status := t.status, resp := t.resp }

/-- 40_bitbuffer.md R116: `TOBYTES` answers the live bytes, which under the invariant are `Pack` of the bit
sequence, with the padding of the last one 0, and changes nothing but `STATUS`. -/
def Obligations.TobytesAnswersThePackedBits : Prop :=
  ∀ (b : Buf) (s : State), Inv s → ∃ t l, exec (.tobytes b) s = .next t ∧
    l.length = ((s.buf b).len + 7) / 8 ∧
    (∀ k (h : k < l.length), l[k] = (memRead (s.buf b).mem k).setWidth 128) ∧
    (∀ k (h : k < l.length), ∀ j, j < 8 →
      l[k].getLsbD (7 - j) = (s.buf b).bits.getD (8 * k + j) false) ∧
    Completes s t .ok (((s.buf b).len + 7) / 8) l ∧ t = { s with status := t.status, resp := t.resp }

/-- 40_bitbuffer.md R117, R118, R120: `LEN`, `ISEMPTY` and `CAP` answer and change nothing but `STATUS`. -/
def Obligations.LenIsemptyCapAnswer : Prop :=
  ∀ (b : Buf) (s : State),
    (∃ t, exec (.len b) s = .next t ∧ Completes s t .ok (s.buf b).len [] ∧
      t = { s with status := t.status, resp := t.resp }) ∧
    (∃ t n, exec (.isempty b) s = .next t ∧ Completes s t .ok n [] ∧
      ((s.buf b).len = 0 → n = 1) ∧ ((s.buf b).len ≠ 0 → n = 0) ∧
      t = { s with status := t.status, resp := t.resp }) ∧
    (∃ t n, exec (.cap b) s = .next t ∧ Completes s t .ok n [] ∧
      (∀ k, s.capb = .bytes k → 8 * k < 2 ^ 128 → n = 8 * k) ∧
      (∀ k, s.capb = .bytes k → 2 ^ 128 ≤ 8 * k → n = 2 ^ 128 - 1) ∧
      (s.capb = .unbounded → n = 2 ^ 128 - 1) ∧
      t = { s with status := t.status, resp := t.resp })

/-- 40_bitbuffer.md R121: `RESERVE` succeeds exactly where that many more bits fit, answers the capacity,
and changes nothing but `STATUS` in either outcome. -/
def Obligations.ReserveAsksForRoom : Prop :=
  ∀ (b : Buf) (opv : Quad) (s : State),
    (FitsBits s.capb ((s.buf b).len + opv.toNat) →
      ∃ t n, exec (.reserve b opv) s = .next t ∧ Completes s t .ok n [] ∧
        (∀ k, s.capb = .bytes k → 8 * k < 2 ^ 128 → n = 8 * k) ∧
        (∀ k, s.capb = .bytes k → 2 ^ 128 ≤ 8 * k → n = 2 ^ 128 - 1) ∧
        (s.capb = .unbounded → n = 2 ^ 128 - 1) ∧
        t = { s with status := t.status, resp := t.resp }) ∧
    (¬ FitsBits s.capb ((s.buf b).len + opv.toNat) →
      ∃ t, exec (.reserve b opv) s = .next t ∧
        FailsFrom s s t .capacityError ((s.buf b).len + opv.toNat))

/-- 40_bitbuffer.md R119: `CLEAR` discards all bits, writes no byte of the store, and on the reader side
sets `CUR` to 0. -/
def Obligations.ClearDiscardsAllBits : Prop :=
  ∀ (b : Buf) (s : State), ∃ t, exec (.clear b) s = .next t ∧
    (t.buf b).bits = [] ∧ (t.buf b).len = 0 ∧ (t.buf b).mem = (s.buf b).mem ∧
    Completes s t .ok 0 [] ∧
    t = { s.setBuf b (t.buf b) with
          cur := (if b = .rbuf then 0 else s.cur), status := t.status, resp := t.resp }

/-- 40_bitbuffer.md R122 clauses a and c: `BLOAD` of `Pack(x)` with the length of `x` loads `x`, and
`TOBYTES` then answers `Pack(x)` again. The bound on the length is that of the 128-bit operand. -/
def Obligations.BloadInvertsPack : Prop :=
  ∀ (b : Buf) (x : List Bool) (s : State), Inv s → s.io.read = none → s.src = pack x →
    FitsBytes s.capb ((x.length + 7) / 8) → x.length < 2 ^ 128 →
    ∃ t u l, exec (.bload b (BitVec.ofNat 128 x.length)) s = .next t ∧ (t.buf b).bits = x ∧
      exec (.tobytes b) t = .next u ∧ Completes t u .ok ((x.length + 7) / 8) l ∧
      l = (pack x).map (fun y => y.setWidth 128)

/-! ## Writer and reader -/

/-- 41_bitwriter.md R141, R142: `WFIN` on an empty buffer emits nothing at all. On any other it emits the
payload, the sentinel when `WSENT` is set, and the padding, then one flush mark, answers the number of
bytes and empties the writer; a failing write or flush stops it with the environment's `info`, `WBUF`
unchanged and `SNK` with a prefix of the stream, or all of it with no flush mark. -/
def Obligations.WfinEmitsTheEncodedStream : Prop :=
  ∀ s : State,
    (s.wbuf.len = 0 →
      ∃ t, exec .wfin s = .next t ∧ Completes s t .ok 0 [] ∧
        t = { s with status := t.status, resp := t.resp }) ∧
    (s.wbuf.len ≠ 0 → ∃ out,
      PaddedBytes (if s.ctrl.getLsbD 0 then s.wbuf.bits ++ [true] else s.wbuf.bits) out ∧
      out.length = (if s.ctrl.getLsbD 0 then s.wbuf.len / 8 + 1 else (s.wbuf.len + 7) / 8) ∧
      (s.io.write = none → s.io.flush = none → ∃ t, exec .wfin s = .next t ∧
        t.wbuf.len = 0 ∧ t.wbuf.mem = s.wbuf.mem ∧ Completes s t .ok out.length [] ∧
        t = { s with wbuf := t.wbuf, snk := s.snk ++ out.map .byte ++ [.flush],
                     status := t.status, resp := t.resp }) ∧
      (∀ f, s.io.write = some f → ∃ t, exec .wfin s = .next t ∧
        FailsFrom s { s with snk := s.snk ++ (out.take f.moved).map .byte } t .ioError f.info.toNat) ∧
      (∀ info, s.io.write = none → s.io.flush = some info → ∃ t, exec .wfin s = .next t ∧
        FailsFrom s { s with snk := s.snk ++ out.map .byte } t .ioError info.toNat))

/-- 42_bitreader.md R151: `RREAD`. An empty source gives an empty buffer; with `RSENT` off all bits of all
bytes; with `RSENT` on the payload before the sentinel of the last byte; `SRC` is consumed and `CUR` is
0. A failing read is `IoError`, too many bytes are `CapacityError`, and with `RSENT` on a last byte of 0
is `NoTerminatingBitError` with the byte count; then only `SRC` and `STATUS` have changed. -/
def Obligations.RreadRecoversTheBits : Prop :=
  ∀ s : State, Inv s →
    (∀ f, s.io.read = some f → ∃ t, exec .rread s = .next t ∧
      FailsFrom s { s with src := s.src.drop f.moved } t .ioError f.info.toNat) ∧
    (s.io.read = none →
      (¬ FitsBytes s.capb s.src.length → ∃ t, exec .rread s = .next t ∧
        FailsFrom s { s with src := [] } t .capacityError (8 * s.src.length)) ∧
      (∀ x : List Bool, FitsBytes s.capb s.src.length →
        ((s.src = [] ∧ x = []) ∨
         (s.src ≠ [] ∧ s.ctrl.getLsbD 1 = false ∧ x = unpack s.src) ∨
         (s.ctrl.getLsbD 1 = true ∧ ∃ k, k < 8 ∧ unpack s.src = x ++ [true] ++ List.replicate k false)) →
        ∃ t, exec .rread s = .next t ∧ Loaded x s.rbuf t.rbuf ∧ Completes s t .ok x.length [] ∧
          t = { s with rbuf := t.rbuf, src := [], cur := 0, status := t.status, resp := t.resp }) ∧
      (FitsBytes s.capb s.src.length → s.ctrl.getLsbD 1 = true → (∃ l, s.src = l ++ [0x00]) →
        ∃ t, exec .rread s = .next t ∧
          FailsFrom s { s with src := [] } t .noTerminatingBitError s.src.length))

/-- 41_bitwriter.md R143: the round trip of a payload through the framing. With `CTRL = 3`, `WFIN`, the
host's loop back and `RREAD` give the payload back; with `CTRL = 0` the padding comes back with it. -/
def Obligations.FramingRoundTrip : Prop :=
  ∀ s : State, Inv s → s.src = [] → s.snk = [] → s.io = .allOk →
    FitsBytes s.capb (s.wbuf.len / 8 + 1) → (s.ctrl = 3 ∨ s.ctrl = 0) →
    ∃ t u, exec .wfin s = .next t ∧ exec .rread (loopBack [] t) = .next u ∧
      u.cur = 0 ∧ u.src = [] ∧ u.snk = [] ∧ u.wbuf.len = 0 ∧
      (s.ctrl = 3 → u.rbuf.bits = s.wbuf.bits) ∧
      (s.ctrl = 0 → u.rbuf.bits =
        s.wbuf.bits ++ List.replicate ((8 - s.wbuf.len % 8) % 8) false)

/-! ## The bit-sequence codecs -/

/-- 43_unary.md R160, R161: `UENC` appends `v` ones and a zero, all or none. -/
def Obligations.UencAppendsTheUnaryCodeword : Prop :=
  ∀ (w : Width) (opv : Quad) (v : Nat) (s : State), Inv s → v = opv.toNat % 2 ^ w.bits →
    (FitsBits s.capb (s.wbuf.len + (v + 1)) →
      ∃ t, exec (.uenc w opv) s = .next t ∧
        Appended (List.replicate v true ++ [false]) s.wbuf t.wbuf ∧
        Completes s t .ok (v + 1) [] ∧
        t = { s with wbuf := t.wbuf, status := t.status, resp := t.resp }) ∧
    (¬ FitsBits s.capb (s.wbuf.len + (v + 1)) →
      ∃ t, exec (.uenc w opv) s = .next t ∧ FailsFrom s s t .capacityError (s.wbuf.len + (v + 1)))

/-- 44_gamma.md R175, R176: `GENC` of a `v` with leading one at `L` appends `L` ones, a zero and the `L`
bits of `v` below its leading one, most significant first, all or none; zero is `ZeroInputError`, before
the capacity is looked at. -/
def Obligations.GencAppendsTheGammaCodeword : Prop :=
  ∀ (w : Width) (opv : Quad) (v : Nat) (s : State), Inv s → v = opv.toNat % 2 ^ w.bits →
    (v = 0 → ∃ t, exec (.genc w opv) s = .next t ∧ FailsFrom s s t .zeroInputError 0) ∧
    (∀ L, 2 ^ L ≤ v → v < 2 ^ (L + 1) →
      (FitsBits s.capb (s.wbuf.len + (2 * L + 1)) →
        ∃ t x, exec (.genc w opv) s = .next t ∧ x.length = L ∧
          (∀ i (h : i < x.length), x[i] = v.testBit (L - i - 1)) ∧
          Appended (List.replicate L true ++ [false] ++ x) s.wbuf t.wbuf ∧
          Completes s t .ok (2 * L + 1) [] ∧
          t = { s with wbuf := t.wbuf, status := t.status, resp := t.resp }) ∧
      (¬ FitsBits s.capb (s.wbuf.len + (2 * L + 1)) →
        ∃ t, exec (.genc w opv) s = .next t ∧
          FailsFrom s s t .capacityError (s.wbuf.len + (2 * L + 1))))

/-- 45_delta.md R190, R191: `DENC` of a `v` of bit length `N`, `N` having its leading one at `M`, appends
`M` ones, a zero, the `M` low bits of `N` and the `N - 1` low bits of `v`, all or none; zero is
`ZeroInputError`. -/
def Obligations.DencAppendsTheDeltaCodeword : Prop :=
  ∀ (w : Width) (opv : Quad) (v : Nat) (s : State), Inv s → v = opv.toNat % 2 ^ w.bits →
    (v = 0 → ∃ t, exec (.denc w opv) s = .next t ∧ FailsFrom s s t .zeroInputError 0) ∧
    (∀ N M, 1 ≤ N → 2 ^ (N - 1) ≤ v → v < 2 ^ N → 2 ^ M ≤ N → N < 2 ^ (M + 1) →
      (FitsBits s.capb (s.wbuf.len + (2 * M + N)) →
        ∃ t x y, exec (.denc w opv) s = .next t ∧ x.length = M ∧ y.length = N - 1 ∧
          (∀ i (h : i < x.length), x[i] = N.testBit (M - i - 1)) ∧
          (∀ i (h : i < y.length), y[i] = v.testBit (N - 1 - i - 1)) ∧
          Appended (List.replicate M true ++ [false] ++ x ++ y) s.wbuf t.wbuf ∧
          Completes s t .ok (2 * M + N) [] ∧
          t = { s with wbuf := t.wbuf, status := t.status, resp := t.resp }) ∧
      (¬ FitsBits s.capb (s.wbuf.len + (2 * M + N)) →
        ∃ t, exec (.denc w opv) s = .next t ∧
          FailsFrom s s t .capacityError (s.wbuf.len + (2 * M + N))))

/-- 43_unary.md R163: `UDEC1` on exactly one codeword, on one too large for `W` bits, and on anything else. -/
def Obligations.Udec1DecodesExactlyOne : Prop :=
  DecodesExactlyOne .udec1 unaryWord 0 (fun W => 2 ^ W - 1) .unaryCodeError

/-- 43_unary.md R162, R164: `UDECN` takes one codeword from the front and moves `CUR` past it. -/
def Obligations.UdecnTakesOneCodeword : Prop :=
  DecodesNext .udecn unaryWord 0 (fun W => 2 ^ W - 1) .unaryCodeError

/-- 43_unary.md R165: `UDECS` delivers every value of the remaining stream or nothing. -/
def Obligations.UdecsDecodesTheWholeStream : Prop :=
  DecodesStream .udecs unaryWord 0 (fun W => 2 ^ W - 1) .unaryCodeError

/-- 44_gamma.md R178, 60_exceptions.md R246: `GDEC1`; the values accepted are below `2^(W-1)`. -/
def Obligations.Gdec1DecodesExactlyOne : Prop :=
  DecodesExactlyOne .gdec1 gammaWord 1 (fun W => 2 ^ (W - 1) - 1) .gammaCodeError

/-- 44_gamma.md R177, R179: `GDECN`. -/
def Obligations.GdecnTakesOneCodeword : Prop :=
  DecodesNext .gdecn gammaWord 1 (fun W => 2 ^ (W - 1) - 1) .gammaCodeError

/-- 44_gamma.md R180: `GDECS`. -/
def Obligations.GdecsDecodesTheWholeStream : Prop :=
  DecodesStream .gdecs gammaWord 1 (fun W => 2 ^ (W - 1) - 1) .gammaCodeError

/-- 45_delta.md R193: `DDEC1`; every structural failure is `DeltaCodeError`. -/
def Obligations.Ddec1DecodesExactlyOne : Prop :=
  DecodesExactlyOne .ddec1 deltaWord 1 (fun W => 2 ^ (W - 1) - 1) .deltaCodeError

/-- 45_delta.md R192, R194: `DDECN`. -/
def Obligations.DdecnTakesOneCodeword : Prop :=
  DecodesNext .ddecn deltaWord 1 (fun W => 2 ^ (W - 1) - 1) .deltaCodeError

/-- 45_delta.md R195: `DDECS`. -/
def Obligations.DdecsDecodesTheWholeStream : Prop :=
  DecodesStream .ddecs deltaWord 1 (fun W => 2 ^ (W - 1) - 1) .deltaCodeError

/-- 43_unary.md R166 with 41_bitwriter.md R143: a list of values through the unary encoder, the writer, the
host's loop back, the reader and the stream decoder comes back whole; and the laws of R166 clauses a
and b. -/
def Obligations.UnaryStreamRoundTrip : Prop :=
  StreamRoundTrip .uencList .udecs unaryWord 0 (fun W => 2 ^ W - 1) ∧
  CodecLaws .udec1 .udecs unaryWord 0 (fun W => 2 ^ W - 1) (fun v => v + 1)

/-- 44_gamma.md R181 with 41_bitwriter.md R143: the same for gamma, on the range its decoder
accepts, and R181's clauses a, b and c. -/
def Obligations.GammaStreamRoundTrip : Prop :=
  StreamRoundTrip .gencList .gdecs gammaWord 1 (fun W => 2 ^ (W - 1) - 1) ∧
  CodecLaws .gdec1 .gdecs gammaWord 1 (fun W => 2 ^ (W - 1) - 1) (fun v => 2 * bitlen v - 1)

/-- 45_delta.md R196 with 41_bitwriter.md R143: the same for delta, and R196 whole: (a) `DDEC1` on
`Rem = D(v)` returns `v`, (b) `D` is prefix-free and `DDECS` returns the values in order, (c)
`|D(v)| = bitlen(v) - 1 + 2*bitlen(bitlen(v)) - 1`. -/
def Obligations.DeltaStreamRoundTrip : Prop :=
  StreamRoundTrip .dencList .ddecs deltaWord 1 (fun W => 2 ^ (W - 1) - 1) ∧
  CodecLaws .ddec1 .ddecs deltaWord 1 (fun W => 2 ^ (W - 1) - 1)
    (fun v => bitlen v - 1 + 2 * bitlen (bitlen v) - 1)

/-- 43_unary.md R163, 44_gamma.md R178, 45_delta.md R193, "Equivalently": an exact decoder answers what the
front-of-stream decoder answers when that used all the bits, and the code error when it used fewer. -/
def Obligations.ExactDecodersAreFullPeels : Prop :=
  ∀ (W : Nat) (s : List Bool) (v used : Nat), 1 ≤ W →
    (peelU W s = .ok (v, used) →
      exactU W s = (if used = s.length then .ok v else .error .unaryCodeError)) ∧
    (peelG W s = .ok (v, used) →
      exactG W s = (if used = s.length then .ok v else .error .gammaCodeError)) ∧
    (peelD W s = .ok (v, used) →
      exactD W s = (if used = s.length then .ok v else .error .deltaCodeError))

/-! ## Variable-Byte -/

/-- 46_varbyte.md R205, R206: `VBENC` writes to `SNK` a well-formed group worth the value, with no leading
zero digit unless it is alone and no flush mark; a failing write leaves a prefix of it. -/
def Obligations.VbencWritesTheByteGroup : Prop :=
  ∀ (w : Width) (opv : Quad) (s : State), ∃ g, IsVbGroup g ∧ vbSum g = opv.toNat % 2 ^ w.bits ∧
    (g.length ≠ 1 → g.head? ≠ some 0) ∧
    (s.io.write = none → ∃ t, exec (.vbenc w opv) s = .next t ∧ Completes s t .ok g.length [] ∧
      t = { s with snk := s.snk ++ g.map .byte, status := t.status, resp := t.resp }) ∧
    (∀ f, s.io.write = some f → ∃ t, exec (.vbenc w opv) s = .next t ∧
      FailsFrom s { s with snk := s.snk ++ (g.take f.moved).map .byte } t .ioError f.info.toNat)

/-- 46_varbyte.md R207, R208: `VBDEC1` on all of `SRC`: a well-formed group whose value fits, one whose
value does not, anything else, and a failing read. `SRC` is consumed in every outcome, on a failing
read the part that had moved. -/
def Obligations.Vbdec1DecodesExactlyOneGroup : Prop :=
  ∀ (w : Width) (s : State),
    (∀ f, s.io.read = some f → ∃ t, exec (.vbdec1 w) s = .next t ∧
      FailsFrom s { s with src := s.src.drop f.moved } t .ioError f.info.toNat) ∧
    (s.io.read = none →
      (IsVbGroup s.src → vbSum s.src ≤ 2 ^ w.bits - 1 →
        ∃ t, exec (.vbdec1 w) s = .next t ∧ Completes s t .ok (vbSum s.src) [] ∧
          t = { s with src := [], status := t.status, resp := t.resp }) ∧
      (IsVbGroup s.src → 2 ^ w.bits - 1 < vbSum s.src →
        ∃ t, exec (.vbdec1 w) s = .next t ∧ FailsFrom s { s with src := [] } t .overflowError 0) ∧
      (¬ IsVbGroup s.src →
        ∃ t, exec (.vbdec1 w) s = .next t ∧ FailsFrom s { s with src := [] } t .vbCodeError 0))

/-- 46_varbyte.md R209: `VBDECS` on groups of acceptable values and then a tail: with no tail every value;
a tail that begins with a group too large, or has no byte that ends a group, is reported at its own byte
index and nothing is delivered. A failing read is `IoError`. -/
def Obligations.VbdecsDecodesTheWholeStream : Prop :=
  ∀ (w : Width) (s : State),
    (∀ f, s.io.read = some f → ∃ t, exec (.vbdecs w) s = .next t ∧
      FailsFrom s { s with src := s.src.drop f.moved } t .ioError f.info.toNat) ∧
    (∀ (gs : List (List Byte)) (tail : List Byte), s.io.read = none →
      (∀ g ∈ gs, IsVbGroup g ∧ vbSum g ≤ 2 ^ w.bits - 1) → s.src = gs.flatten ++ tail →
      (tail = [] →
        ∃ t, exec (.vbdecs w) s = .next t ∧
          Completes s t .ok gs.length (gs.map fun g => BitVec.ofNat 128 (vbSum g)) ∧
          t = { s with src := [], status := t.status, resp := t.resp }) ∧
      (∀ g rest, IsVbGroup g → 2 ^ w.bits - 1 < vbSum g → tail = g ++ rest →
        ∃ t, exec (.vbdecs w) s = .next t ∧
          FailsFrom s { s with src := [] } t .overflowError gs.flatten.length) ∧
      (tail ≠ [] → (∀ y ∈ tail, y.getLsbD 7 = false) →
        ∃ t, exec (.vbdecs w) s = .next t ∧
          FailsFrom s { s with src := [] } t .vbCodeError gs.flatten.length))

/-- 46_varbyte.md R210 clauses b and d: `VBENC` of each value in turn, the host's loop back and `VBDECS`
deliver the list; and a well-formed group with no leading zero digit is the group of its value. -/
def Obligations.VarByteStreamRoundTrip : Prop :=
  (∀ (w : Width) (s : State) (vs : List Nat), s.src = [] → s.snk = [] → vs ≠ [] →
    (∀ v ∈ vs, v ≤ 2 ^ w.bits - 1) →
    ∃ t u, runPseudo (.vbencList w (vs.map (BitVec.ofNat 128))) (fun _ => .allOk) s = .next t ∧
      exec (.vbdecs w) (loopBack [] t) = .next u ∧
      Reports u .ok vs.length (vs.map (BitVec.ofNat 128)) ∧ u.src = [] ∧ u.snk = []) ∧
  (∀ g : List Byte, IsVbGroup g → (g.length ≠ 1 → g.head? ≠ some 0) → vbGroup (vbSum g) = g)

/-! ## Numeric support -/

/-- 47_numeric_support.md R221: `CLZ` of a `v` with leading one at `L` answers `W - 1 - L`; of 0 it is
`ZeroInputError`. Nothing changes but `STATUS`. -/
def Obligations.ClzCountsLeadingZeros : Prop :=
  ∀ (w : Width) (opv : Quad) (v : Nat) (s : State), v = opv.toNat % 2 ^ w.bits →
    (∀ L, 2 ^ L ≤ v → v < 2 ^ (L + 1) → L < w.bits ∧
      ∃ t, exec (.clz w opv) s = .next t ∧ Completes s t .ok (w.bits - 1 - L) [] ∧
        t = { s with status := t.status, resp := t.resp }) ∧
    (v = 0 → ∃ t, exec (.clz w opv) s = .next t ∧ FailsFrom s s t .zeroInputError 0)

/-- 47_numeric_support.md R222: `TOP` answers the position of the least significant set bit of `opv[7:0]`;
of 0 it is `ZeroInputError`. -/
def Obligations.TopFindsTheLeastSetBit : Prop :=
  ∀ (opv : Quad) (s : State),
    (∀ p, p < 8 → opv.getLsbD p = true → (∀ j, j < p → opv.getLsbD j = false) →
      ∃ t, exec (.top opv) s = .next t ∧ Completes s t .ok p [] ∧
        t = { s with status := t.status, resp := t.resp }) ∧
    ((∀ j, j < 8 → opv.getLsbD j = false) →
      ∃ t, exec (.top opv) s = .next t ∧ FailsFrom s s t .zeroInputError 0)

/-- 47_numeric_support.md R223: `POPCNT` answers the number of set bits among the `W` low ones. -/
def Obligations.PopcntCountsSetBits : Prop :=
  ∀ (w : Width) (opv : Quad) (s : State), ∃ t, exec (.popcnt w opv) s = .next t ∧
    Completes s t .ok ((Finset.range w.bits).filter (fun i => opv.getLsbD i = true)).card [] ∧
    t = { s with status := t.status, resp := t.resp }

/-! ## The list form -/

/-- 30_encoding.md R87: a list form runs its commands in order, each issued as one step with an I/O outcome
of its own, and stops at the first that responds with a non-zero status, the commands before it having
taken effect. The last clause is a list form of `VBENC` whose write fails at one value after the groups
of the values before it (10_state.md R31): the host finds those groups whole and a prefix of the next.
That `ios` gives each command its outcome is the model's notation (log 13). -/
def Obligations.ListFormStopsAtTheFirstError : Prop :=
  (∀ (i : Instr) (io : IoChoice) (s : State), i.WellFormed →
    step { s with port := .command (encode i) io :: s.port } = issue i io s) ∧
  (∀ (i : Instr) (is : List Instr) (ios : Nat → IoChoice) (s t : State) (r : Response),
    issue i (ios 0) s = .next t → t.resp = some r →
    (r.status = .ok → runList (i :: is) ios s = runList is (fun k => ios (k + 1)) t) ∧
    (r.status ≠ .ok → runList (i :: is) ios s = .next t)) ∧
  (∀ (w : Width) (vs rest : List Quad) (v : Quad) (ios : Nat → IoChoice) (f : IoFail) (s : State),
    (∀ k, k < vs.length → (ios k).write = none) → (ios vs.length).write = some f →
    ∃ t, runPseudo (.vbencList w (vs ++ v :: rest)) ios s = .next t ∧
      Reports t .ioError f.info.toNat [] ∧ statusLast t.status = Code.ioError.num ∧
      t = { s with
            snk := s.snk ++ (vs.flatMap (fun x => vbGroup (x.toNat % 2 ^ w.bits)) ++
              (vbGroup (v.toNat % 2 ^ w.bits)).take f.moved).map .byte,
            status := t.status, resp := t.resp, io := ios vs.length,
            draws := s.draws + vs.length + 1 })
end

