-- ==== Sys2Proof/Laws/Bits.lean ====
section
/-! SUPPORT. The small lemmas of the numeric and bit primitives (00_scope.md R11, R13, R14): lengths,
single bits, and that `natOf` and `lowBits`, `pack` and `unpack` are inverse to each other. -/

namespace Sys2Proof.Machine

/-! ### Numbers and their bits -/

@[simp] theorem lowBits_length (v n : Nat) : (lowBits v n).length = n := by simp [lowBits]

theorem lowBits_getElem (v n i : Nat) (h : i < (lowBits v n).length) :
    (lowBits v n)[i] = v.testBit (n - i - 1) := by simp [lowBits]

@[simp] theorem lowBits_zero (v : Nat) : lowBits v 0 = [] := rfl

/-- The bits of a number split at its lowest one. -/
theorem lowBits_succ (v n : Nat) : lowBits v (n + 1) = lowBits (v / 2) n ++ [v.testBit 0] := by
  rw [lowBits, List.range_succ, List.map_append]
  congr 1
  · refine List.map_congr_left fun i hi => ?_
    have hi : i < n := List.mem_range.1 hi
    rw [show n + 1 - i - 1 = (n - i - 1) + 1 by omega, Nat.testBit_succ]
  · simp

@[simp] theorem natOf_nil : natOf [] = 0 := rfl

theorem natOf_append_singleton (s : List Bool) (x : Bool) : natOf (s ++ [x]) = 2 * natOf s + x.toNat := by
  simp [natOf]

theorem foldl_natOf (s : List Bool) (a : Nat) :
    s.foldl (fun a b => 2 * a + b.toNat) a = a * 2 ^ s.length + natOf s := by
  induction s generalizing a with
  | nil => simp
  | cons x s ih =>
    rw [natOf, List.foldl_cons, List.foldl_cons, ih, ih (2 * 0 + x.toNat), List.length_cons]
    ring

theorem natOf_cons (x : Bool) (s : List Bool) : natOf (x :: s) = x.toNat * 2 ^ s.length + natOf s := by
  rw [natOf, List.foldl_cons, foldl_natOf]; simp

/-- A bit sequence is a number below `2^|s|`. -/
theorem natOf_lt (s : List Bool) : natOf s < 2 ^ s.length := by
  induction s with
  | nil => simp
  | cons x s ih =>
    rw [natOf_cons, List.length_cons, Nat.pow_succ]
    cases x <;> simp <;> omega

/-- `nat` of the low bits of a number is the number modulo `2^n`. -/
theorem natOf_lowBits (v n : Nat) : natOf (lowBits v n) = v % 2 ^ n := by
  induction n generalizing v with
  | zero => simp [Nat.mod_one]
  | succ n ih =>
    have hb : (v.testBit 0).toNat = v % 2 := by
      rw [Nat.testBit_zero]; rcases Nat.mod_two_eq_zero_or_one v with h | h <;> simp [h]
    rw [lowBits_succ, natOf_append_singleton, ih, hb, Nat.pow_succ, Nat.mul_comm (2 ^ n) 2, Nat.mod_mul]
    omega

/-- A bit sequence is the low bits of its number, whatever lies above. -/
theorem lowBits_natOf (s : List Bool) (k : Nat) : lowBits (k * 2 ^ s.length + natOf s) s.length = s := by
  induction s using List.reverseRecOn generalizing k with
  | nil => rfl
  | append_singleton s x ih =>
    rw [List.length_append, List.length_singleton, natOf_append_singleton, lowBits_succ]
    have h1 : (k * 2 ^ (s.length + 1) + (2 * natOf s + x.toNat)) / 2 = k * 2 ^ s.length + natOf s := by
      have hx : x.toNat < 2 := by cases x <;> simp
      rw [Nat.pow_succ, show k * (2 ^ s.length * 2) + (2 * natOf s + x.toNat)
        = x.toNat + 2 * (k * 2 ^ s.length + natOf s) by ring, Nat.add_mul_div_left _ _ (by decide)]
      omega
    have h2 : (k * 2 ^ (s.length + 1) + (2 * natOf s + x.toNat)).testBit 0 = x := by
      rw [Nat.pow_succ, show k * (2 ^ s.length * 2) + (2 * natOf s + x.toNat)
        = 2 * (k * 2 ^ s.length + natOf s) + x.toNat by ring, Nat.testBit_zero]
      cases x <;> simp
    rw [h1, h2, ih]

/-- A number with leading one at `n` is that one and its low bits. -/
theorem pow_add_natOf_lowBits {v n : Nat} (h1 : 2 ^ n ≤ v) (h2 : v < 2 ^ (n + 1)) :
    2 ^ n + natOf (lowBits v n) = v := by
  rw [Nat.pow_succ] at h2
  rw [natOf_lowBits, show v = (v - 2 ^ n) + 2 ^ n by omega, Nat.add_mod_right,
    Nat.mod_eq_of_lt (by omega)]
  omega

/-! ### `bitlen` -/

@[simp] theorem bitlen_zero : bitlen 0 = 0 := rfl

/-- The defining property of `bitlen` (R14). -/
theorem bitlen_eq {v L : Nat} (h1 : 2 ^ L ≤ v) (h2 : v < 2 ^ (L + 1)) : bitlen v = L + 1 := by
  have hv : v ≠ 0 := by have := Nat.two_pow_pos L; omega
  rw [bitlen, if_neg hv, (Nat.log2_eq_iff hv).2 ⟨h1, h2⟩]

theorem bitlen_pos {v : Nat} (h : 1 ≤ v) : 1 ≤ bitlen v := by
  rw [bitlen, if_neg (by omega)]; omega

theorem two_pow_bitlen_le {v : Nat} (h : 1 ≤ v) : 2 ^ (bitlen v - 1) ≤ v := by
  rw [bitlen, if_neg (by omega), Nat.add_sub_cancel]
  exact Nat.log2_self_le (by omega)

theorem lt_two_pow_bitlen (v : Nat) : v < 2 ^ bitlen v := by
  rw [bitlen]
  split
  · subst_vars; decide
  · exact Nat.lt_log2_self

theorem bitlen_le_iff {v n : Nat} : bitlen v ≤ n ↔ v < 2 ^ n := by
  rcases Nat.eq_zero_or_pos v with h | h
  · subst h; simp
  · constructor
    · intro hn
      exact Nat.lt_of_lt_of_le (lt_two_pow_bitlen v) (Nat.pow_le_pow_right (by decide) hn)
    · intro hn
      by_contra hc
      have h1 := two_pow_bitlen_le h
      have h2 : 2 ^ n ≤ 2 ^ (bitlen v - 1) := Nat.pow_le_pow_right (by decide) (by omega)
      omega

@[simp] theorem offset_length (v : Nat) : (offset v).length = bitlen v - 1 := by simp [offset]

/-- Prepending the leading one to the offset bits gives the number back. -/
theorem pow_add_natOf_offset {v : Nat} (h : 1 ≤ v) : 2 ^ (bitlen v - 1) + natOf (offset v) = v :=
  pow_add_natOf_lowBits (two_pow_bitlen_le h) (by
    rw [Nat.sub_add_cancel (bitlen_pos h)]; exact lt_two_pow_bitlen v)

/-- `bitlen` of a number given by its leading one and its offset bits. -/
theorem bitlen_pow_add (s : List Bool) : bitlen (2 ^ s.length + natOf s) = s.length + 1 :=
  bitlen_eq (Nat.le_add_right _ _) (by have := natOf_lt s; rw [Nat.pow_succ]; omega)

/-- The offset bits of a number given by its leading one and its offset bits. -/
theorem offset_pow_add (s : List Bool) : offset (2 ^ s.length + natOf s) = s := by
  rw [offset, bitlen_pow_add, Nat.add_sub_cancel]
  simpa using lowBits_natOf s 1

/-! ### The first zero -/

theorem firstZero_replicate_append (n : Nat) (s : List Bool) :
    firstZero (List.replicate n true ++ false :: s) = some n := by
  induction n with
  | zero => rfl
  | succ n ih => simp [List.replicate_succ, firstZero, ih]

/-- A first zero at `i` means `i` ones, a zero, and the rest. -/
theorem firstZero_some {s : List Bool} {i : Nat} (h : firstZero s = some i) :
    s = List.replicate i true ++ false :: s.drop (i + 1) := by
  induction s generalizing i with
  | nil => simp [firstZero] at h
  | cons x s ih =>
    cases x with
    | false =>
      obtain rfl : 0 = i := by simpa [firstZero] using h
      simp
    | true =>
      simp only [firstZero, Option.map_eq_some_iff] at h
      obtain ⟨j, hj, rfl⟩ := h
      have := ih hj
      simp only [List.replicate_succ, List.cons_append, List.drop_succ_cons]
      rw [← this]

theorem firstZero_none {s : List Bool} (h : firstZero s = none) : ∀ x ∈ s, x = true := by
  induction s with
  | nil => simp
  | cons x s ih =>
    cases x with
    | false => simp [firstZero] at h
    | true =>
      simp only [firstZero, Option.map_eq_none_iff] at h
      simpa using ih h

theorem firstZero_lt {s : List Bool} {i : Nat} (h : firstZero s = some i) : i < s.length := by
  have := congrArg List.length (firstZero_some h)
  simp at this
  omega

/-! ### Subsequences -/

theorem subseq_eq (s : List Bool) (i n : Nat) : subseq s i (i + n) = (s.drop i).take n := by
  rw [subseq, List.drop_take, Nat.add_sub_cancel_left]

theorem subseq_to_end (s : List Bool) (i : Nat) : subseq s i s.length = s.drop i := by
  rw [subseq, List.take_length]

/-! ### Bytes -/

@[simp] theorem bitsOfByte_length (y : Byte) : (bitsOfByte y).length = 8 := by simp [bitsOfByte]

theorem bitsOfByte_getElem (y : Byte) (j : Nat) (h : j < (bitsOfByte y).length) :
    (bitsOfByte y)[j] = y.getLsbD (7 - j) := by
  simp only [bitsOfByte, lowBits_getElem, BitVec.getLsbD]
  congr 1
  omega

@[simp] theorem unpack_nil : unpack [] = [] := rfl

@[simp] theorem unpack_cons (y : Byte) (ys : List Byte) : unpack (y :: ys) = bitsOfByte y ++ unpack ys := by
  simp [unpack]

@[simp] theorem unpack_append (l m : List Byte) : unpack (l ++ m) = unpack l ++ unpack m := by
  simp [unpack]

@[simp] theorem unpack_length (l : List Byte) : (unpack l).length = 8 * l.length := by
  induction l with
  | nil => rfl
  | cons y ys ih => simp [ih]; omega

/-- Element `a` of `Unpack(bytes)` is bit `7 - (a mod 8)` of byte `a div 8` (R13). -/
theorem unpack_getElem (l : List Byte) (a : Nat) (h : a < (unpack l).length) :
    (unpack l)[a] = (l.getD (a / 8) 0).getLsbD (7 - a % 8) := by
  induction l generalizing a with
  | nil => simp at h
  | cons y ys ih =>
    simp only [unpack_cons, List.getElem_append, bitsOfByte_length]
    by_cases ha : a < 8
    · rw [dif_pos ha, bitsOfByte_getElem, Nat.div_eq_of_lt ha, Nat.mod_eq_of_lt ha]; simp
    · rw [dif_neg ha, ih]
      rw [show a / 8 = (a - 8) / 8 + 1 by omega, show a % 8 = (a - 8) % 8 by omega]
      simp

@[simp] theorem setBit_getLsbD (y : Byte) (i : Nat) (x : Bool) (j : Nat) (hi : i < 8) :
    (setBit y i x).getLsbD j = if j = i then x else y.getLsbD j := by
  rcases Nat.lt_or_ge j 8 with hj | hj
  · cases x
    · simp only [setBit, Bool.false_eq_true, if_false, BitVec.getLsbD_and, BitVec.getLsbD_not,
        BitVec.getLsbD_shiftLeft, BitVec.getLsbD_one]
      by_cases h : j = i
      · simp [h, hi]
      · have : ¬ (¬ j < i ∧ j - i = 0) := by omega
        by_cases h2 : j < i
        · simp [h, h2, hj]
        · have : j - i ≠ 0 := by omega
          simp [h, h2, hj, this]
    · simp only [setBit, if_true, BitVec.getLsbD_or, BitVec.getLsbD_shiftLeft, BitVec.getLsbD_one]
      by_cases h : j = i
      · simp [h, hi]
      · by_cases h2 : j < i
        · simp [h, h2]
        · have : j - i ≠ 0 := by omega
          simp [h, h2, this]
  · rw [BitVec.getLsbD_of_ge _ _ hj, if_neg (by omega), BitVec.getLsbD_of_ge _ _ hj]

theorem clearLow_getLsbD (y : Byte) (r j : Nat) :
    (clearLow y r).getLsbD j = (decide (r ≤ j) && y.getLsbD j) := by
  rcases Nat.lt_or_ge j 8 with hj | hj
  · simp only [clearLow, BitVec.getLsbD_shiftLeft, BitVec.getLsbD_ushiftRight]
    by_cases h : r ≤ j
    · have : ¬ j < r := by omega
      simp [h, hj, this, Nat.add_sub_cancel' h]
    · have : j < r := by omega
      simp [h, this]
  · simp [BitVec.getLsbD_of_ge _ _ hj]

/-- A byte whose `r` low bits are 0, as a number: a multiple of `2^r`. -/
theorem byte_mod_eq_zero_iff (y : Byte) (r : Nat) :
    y.toNat % 2 ^ r = 0 ↔ ∀ j, j < r → y.getLsbD j = false := by
  constructor
  · intro h j hj
    have := Nat.testBit_mod_two_pow y.toNat r j
    rw [h] at this
    simp only [Nat.zero_testBit, hj, decide_true, Bool.true_and] at this
    exact this.symm
  · intro h
    apply Nat.eq_of_testBit_eq
    intro j
    rw [Nat.testBit_mod_two_pow, Nat.zero_testBit]
    by_cases hj : j < r
    · have := h j hj; simp only [BitVec.getLsbD] at this; simp [this]
    · simp [hj]

/-! ### Packing -/

@[simp] theorem pack_length (s : List Bool) : (pack s).length = (s.length + 7) / 8 := by simp [pack]

theorem packByte_getLsbD (s : List Bool) (k j : Nat) (hj : j < 8) :
    (packByte s k).getLsbD j = s.getD (8 * k + (7 - j)) false := by
  set l := (List.range 8).map fun j => s.getD (8 * k + j) false with hl
  have hlen : l.length = 8 := by simp [hl]
  have h1 : bitsOfByte (BitVec.ofNat 8 (natOf l)) = l := by
    have := lowBits_natOf l 0
    rw [hlen] at this
    simp only [Nat.zero_mul, Nat.zero_add] at this
    have hlt := natOf_lt l
    rw [hlen] at hlt
    rw [bitsOfByte, BitVec.toNat_ofNat, Nat.mod_eq_of_lt hlt, this]
  have h2 := bitsOfByte_getElem (packByte s k) (7 - j) (by simp; omega)
  rw [show 7 - (7 - j) = j by omega] at h2
  rw [← h2]
  simp only [packByte, ← hl, h1]
  simp [hl]

/-- Packing a sequence and unpacking it gives it back with the zero padding of the last byte (R13). -/
theorem unpack_pack (s : List Bool) :
    unpack (pack s) = s ++ List.replicate ((8 - s.length % 8) % 8) false := by
  apply List.ext_getElem
  · simp; omega
  · intro a h1 h2
    have ha : a < 8 * ((s.length + 7) / 8) := by simpa using h1
    rw [unpack_getElem, pack, List.getD_eq_getElem?_getD, List.getElem?_map,
      List.getElem?_range (by omega)]
    simp only [Option.map_some, Option.getD_some]
    rw [packByte_getLsbD _ _ _ (by omega), show 8 * (a / 8) + (7 - (7 - a % 8)) = a by omega]
    by_cases has : a < s.length
    · simp [has]
    · simp [List.getElem_append, has]

/-- Bytes are determined by their bits. -/
theorem unpack_injective {l m : List Byte} (h : unpack l = unpack m) : l = m := by
  have hlen : l.length = m.length := by
    have := congrArg List.length h
    simp at this
    exact this
  apply List.ext_getElem hlen
  intro k hk hk'
  apply BitVec.eq_of_getLsbD_eq
  intro j hj
  have e : (unpack l)[8 * k + (7 - j)]? = (unpack m)[8 * k + (7 - j)]? := by rw [h]
  have hl : 8 * k + (7 - j) < (unpack l).length := by simp; omega
  have hm : 8 * k + (7 - j) < (unpack m).length := by simp; omega
  rw [List.getElem?_eq_getElem hl, List.getElem?_eq_getElem hm, Option.some_inj,
    unpack_getElem, unpack_getElem] at e
  rw [show (8 * k + (7 - j)) / 8 = k by omega, show 7 - (8 * k + (7 - j)) % 8 = j by omega] at e
  simpa [List.getD_eq_getElem?_getD, hk, hk'] using e

end Sys2Proof.Machine
end

