-- ==== Sys2Proof/Laws/Memory.lean ====
section
/-! SUPPORT. The laws of a byte store (00_scope.md R13): a read after a write, the frame of a write, and
that every write keeps the canonical form. -/

namespace Sys2Proof.Machine

/-- An address below every listed one is not listed. -/
theorem memRead_below {m : Memory} {a : Nat} (h : ∀ c ∈ m, a < c.1) :
    memRead m a = Config.absentByte := by
  induction m with
  | nil => rfl
  | cons c m ih =>
    obtain ⟨k, z⟩ := c
    have hk : a < k := h (k, z) (by simp)
    simp only [memRead, if_neg (Nat.ne_of_lt hk)]
    exact ih fun d hd => h d (by simp [hd])

/-- A read after a write: the written byte at its address, every other address as before. -/
theorem memRead_memWrite {m : Memory} (h : Memory.wf m) (a b : Nat) (y : Byte) :
    memRead (memWrite m a y) b = if b = a then y else memRead m b := by
  induction m with
  | nil =>
    by_cases hy : y = Config.absentByte
    · by_cases hb : b = a <;> simp [memWrite, memRead, hy, hb]
    · simp [memWrite, memRead, hy]
  | cons c m ih =>
    obtain ⟨k, z⟩ := c
    have hs := List.pairwise_cons.1 h.1
    have hw : Memory.wf m := ⟨hs.2, fun d hd => h.2 d (by simp [hd])⟩
    have hlow : ∀ x, x ≤ k → memRead m x = Config.absentByte := fun x hx =>
      memRead_below fun d hd => Nat.lt_of_le_of_lt hx (hs.1 d hd)
    rcases Nat.lt_trichotomy a k with hak | hak | hak
    · have hne : a ≠ k := Nat.ne_of_lt hak
      by_cases hy : y = Config.absentByte
      · by_cases hb : b = a
        · subst hb
          simp [memWrite, memRead, hak, hy, hne, hlow b (Nat.le_of_lt hak)]
        · simp [memWrite, hak, hy, hb]
      · by_cases hb : b = a <;> simp [memWrite, memRead, hak, hy, hb]
    · subst hak
      by_cases hy : y = Config.absentByte
      · by_cases hb : b = a
        · subst hb
          simp [memWrite, hy, hlow b (Nat.le_refl b)]
        · simp [memWrite, memRead, hy, hb]
      · by_cases hb : b = a <;> simp [memWrite, memRead, hy, hb]
    · have hna : ¬ a < k := by omega
      have hne : a ≠ k := by omega
      simp only [memWrite, if_neg hna, if_neg hne, memRead, ih hw]
      by_cases hbk : b = k
      · have hba : b ≠ a := by omega
        rw [if_pos hbk, if_neg hba, if_pos hbk]
      · simp [hbk]

/-- Every listed address of a written store was listed or is the written one. -/
theorem mem_memWrite {m : Memory} {a : Nat} {y : Byte} {c : Host.Cell} (h : c ∈ memWrite m a y) :
    c ∈ m ∨ (c = (a, y) ∧ y ≠ Config.absentByte) := by
  induction m with
  | nil =>
    by_cases hy : y = Config.absentByte
    · simp [memWrite, hy] at h
    · right; simpa [memWrite, hy] using h
  | cons d m ih =>
    obtain ⟨k, z⟩ := d
    simp only [memWrite] at h
    split at h
    · split at h
      · exact Or.inl h
      · rename_i hy
        rcases List.mem_cons.1 h with h | h
        · exact Or.inr ⟨h, hy⟩
        · exact Or.inl h
    · split at h
      · split at h
        · exact Or.inl (List.mem_cons_of_mem _ h)
        · rename_i hy
          rcases List.mem_cons.1 h with h | h
          · exact Or.inr ⟨h, hy⟩
          · exact Or.inl (List.mem_cons_of_mem _ h)
      · rcases List.mem_cons.1 h with h | h
        · exact Or.inl (by simp [h])
        · rcases ih h with h | h
          · exact Or.inl (List.mem_cons_of_mem _ h)
          · exact Or.inr h

/-- Every write keeps the canonical form. -/
theorem memWrite_wf {m : Memory} (h : Memory.wf m) (a : Nat) (y : Byte) :
    Memory.wf (memWrite m a y) := by
  refine ⟨?_, fun c hc => ?_⟩
  · induction m with
    | nil => by_cases hy : y = Config.absentByte <;> simp [memWrite, hy]
    | cons d m ih =>
      obtain ⟨k, z⟩ := d
      have hs := List.pairwise_cons.1 h.1
      have hw : Memory.wf m := ⟨hs.2, fun d hd => h.2 d (by simp [hd])⟩
      simp only [memWrite]
      split
      · rename_i hak
        split
        · exact h.1
        · refine List.pairwise_cons.2 ⟨fun e he => ?_, h.1⟩
          rcases List.mem_cons.1 he with he | he
          · simpa [he] using hak
          · exact Nat.lt_trans hak (hs.1 e he)
      · split
        · rename_i hak
          subst hak
          split
          · exact hs.2
          · exact List.pairwise_cons.2 ⟨hs.1, hs.2⟩
        · rename_i h1 h2
          refine List.pairwise_cons.2 ⟨fun e he => ?_, ih hw⟩
          rcases mem_memWrite he with he | ⟨he, -⟩
          · exact hs.1 e he
          · subst he; simp only; omega
  · rcases mem_memWrite hc with hc | ⟨hc, hy⟩
    · exact h.2 c hc
    · simpa [hc] using hy

/-- Writing consecutive bytes keeps the canonical form. -/
theorem memWriteAll_wf {m : Memory} (h : Memory.wf m) (a : Nat) (ys : List Byte) :
    Memory.wf (memWriteAll m a ys) := by
  induction ys generalizing m a with
  | nil => exact h
  | cons y ys ih => exact ih (memWrite_wf h a y) (a + 1)

/-- Every listed address of a store after consecutive writes was listed or is among the written ones. -/
theorem mem_memWriteAll {m : Memory} {a : Nat} {ys : List Byte} {c : Host.Cell}
    (h : c ∈ memWriteAll m a ys) : c ∈ m ∨ (a ≤ c.1 ∧ c.1 < a + ys.length) := by
  induction ys generalizing m a with
  | nil => exact Or.inl h
  | cons y ys ih =>
    simp only [List.length_cons]
    rcases ih h with h | ⟨h1, h2⟩
    · rcases mem_memWrite h with h | ⟨h, -⟩
      · exact Or.inl h
      · right; rw [h]; simp only; omega
    · right; omega

/-- A read after consecutive writes. -/
theorem memRead_memWriteAll {m : Memory} (h : Memory.wf m) (a b : Nat) (ys : List Byte) :
    memRead (memWriteAll m a ys) b =
      if a ≤ b ∧ b < a + ys.length then ys.getD (b - a) 0 else memRead m b := by
  induction ys generalizing m a with
  | nil =>
    have : ¬ (a ≤ b ∧ b < a + ([] : List Byte).length) := by simp
    rw [if_neg this]; rfl
  | cons y ys ih =>
    simp only [memWriteAll, ih (memWrite_wf h a y), List.length_cons, memRead_memWrite h]
    rcases Nat.lt_trichotomy b a with hb | hb | hb
    · rw [if_neg (by omega), if_neg (by omega), if_neg (by omega)]
    · subst hb
      rw [if_neg (by omega), if_pos rfl, if_pos (by omega)]; simp
    · by_cases hc : b < a + (ys.length + 1)
      · rw [if_pos (by omega), if_pos (by omega)]
        obtain ⟨k, rfl⟩ : ∃ k, b = a + 1 + k := ⟨b - (a + 1), by omega⟩
        have e1 : a + 1 + k - (a + 1) = k := by omega
        have e2 : a + 1 + k - a = k + 1 := by omega
        rw [e1, e2]; simp
      · rw [if_neg (by omega), if_neg (by omega), if_neg (by omega)]

end Sys2Proof.Machine
end

