-- ==== Sys2Proof/Laws/State.lean ====
section
/-! SUPPORT. One lemma per field per update of the state, each true by definition, so that no later
proof unfolds a record update. -/

namespace Sys2Proof.Machine

/-! ### answer -/

@[simp] theorem answer_wbuf (c : Code) (n : Nat) (l : List Quad) (s : State) :
    (answer c n l s).wbuf = s.wbuf := rfl

@[simp] theorem answer_rbuf (c : Code) (n : Nat) (l : List Quad) (s : State) :
    (answer c n l s).rbuf = s.rbuf := rfl

@[simp] theorem answer_cur (c : Code) (n : Nat) (l : List Quad) (s : State) :
    (answer c n l s).cur = s.cur := rfl

@[simp] theorem answer_ctrl (c : Code) (n : Nat) (l : List Quad) (s : State) :
    (answer c n l s).ctrl = s.ctrl := rfl

@[simp] theorem answer_status (c : Code) (n : Nat) (l : List Quad) (s : State) :
    (answer c n l s).status = s.status := rfl

@[simp] theorem answer_src (c : Code) (n : Nat) (l : List Quad) (s : State) :
    (answer c n l s).src = s.src := rfl

@[simp] theorem answer_snk (c : Code) (n : Nat) (l : List Quad) (s : State) :
    (answer c n l s).snk = s.snk := rfl

@[simp] theorem answer_capb (c : Code) (n : Nat) (l : List Quad) (s : State) :
    (answer c n l s).capb = s.capb := rfl

@[simp] theorem answer_port (c : Code) (n : Nat) (l : List Quad) (s : State) :
    (answer c n l s).port = s.port := rfl

@[simp] theorem answer_io (c : Code) (n : Nat) (l : List Quad) (s : State) :
    (answer c n l s).io = s.io := rfl

@[simp] theorem answer_resp (c : Code) (n : Nat) (l : List Quad) (s : State) :
    (answer c n l s).resp = some ⟨c, s.quad n, l⟩ := rfl

@[simp] theorem answer_draws (c : Code) (n : Nat) (l : List Quad) (s : State) :
    (answer c n l s).draws = s.draws := rfl

/-! ### respond -/

@[simp] theorem respond_wbuf (c : Code) (n : Nat) (l : List Quad) (s : State) :
    (respond c n l s).wbuf = s.wbuf := rfl

@[simp] theorem respond_rbuf (c : Code) (n : Nat) (l : List Quad) (s : State) :
    (respond c n l s).rbuf = s.rbuf := rfl

@[simp] theorem respond_cur (c : Code) (n : Nat) (l : List Quad) (s : State) :
    (respond c n l s).cur = s.cur := rfl

@[simp] theorem respond_ctrl (c : Code) (n : Nat) (l : List Quad) (s : State) :
    (respond c n l s).ctrl = s.ctrl := rfl

@[simp] theorem respond_status (c : Code) (n : Nat) (l : List Quad) (s : State) :
    (respond c n l s).status = recordStatus c s.status := rfl

@[simp] theorem respond_src (c : Code) (n : Nat) (l : List Quad) (s : State) :
    (respond c n l s).src = s.src := rfl

@[simp] theorem respond_snk (c : Code) (n : Nat) (l : List Quad) (s : State) :
    (respond c n l s).snk = s.snk := rfl

@[simp] theorem respond_capb (c : Code) (n : Nat) (l : List Quad) (s : State) :
    (respond c n l s).capb = s.capb := rfl

@[simp] theorem respond_port (c : Code) (n : Nat) (l : List Quad) (s : State) :
    (respond c n l s).port = s.port := rfl

@[simp] theorem respond_io (c : Code) (n : Nat) (l : List Quad) (s : State) :
    (respond c n l s).io = s.io := rfl

@[simp] theorem respond_resp (c : Code) (n : Nat) (l : List Quad) (s : State) :
    (respond c n l s).resp = some ⟨c, s.quad n, l⟩ := rfl

@[simp] theorem respond_draws (c : Code) (n : Nat) (l : List Quad) (s : State) :
    (respond c n l s).draws = s.draws := rfl

/-! ### raise -/

@[simp] theorem raise_wbuf (c : Code) (n : Nat) (s : State) :
    (raise c n s).wbuf = s.wbuf := rfl

@[simp] theorem raise_rbuf (c : Code) (n : Nat) (s : State) :
    (raise c n s).rbuf = s.rbuf := rfl

@[simp] theorem raise_cur (c : Code) (n : Nat) (s : State) :
    (raise c n s).cur = s.cur := rfl

@[simp] theorem raise_ctrl (c : Code) (n : Nat) (s : State) :
    (raise c n s).ctrl = s.ctrl := rfl

@[simp] theorem raise_status (c : Code) (n : Nat) (s : State) :
    (raise c n s).status = recordStatus c s.status := rfl

@[simp] theorem raise_src (c : Code) (n : Nat) (s : State) :
    (raise c n s).src = s.src := rfl

@[simp] theorem raise_snk (c : Code) (n : Nat) (s : State) :
    (raise c n s).snk = s.snk := rfl

@[simp] theorem raise_capb (c : Code) (n : Nat) (s : State) :
    (raise c n s).capb = s.capb := rfl

@[simp] theorem raise_port (c : Code) (n : Nat) (s : State) :
    (raise c n s).port = s.port := rfl

@[simp] theorem raise_io (c : Code) (n : Nat) (s : State) :
    (raise c n s).io = s.io := rfl

@[simp] theorem raise_resp (c : Code) (n : Nat) (s : State) :
    (raise c n s).resp = some ⟨c, s.quad n, []⟩ := rfl

@[simp] theorem raise_draws (c : Code) (n : Nat) (s : State) :
    (raise c n s).draws = s.draws := rfl

/-! ### setBuf -/

@[simp] theorem setBuf_cur (b : Buf) (B : Buffer) (s : State) :
    (s.setBuf b B).cur = s.cur := by cases b <;> rfl

@[simp] theorem setBuf_ctrl (b : Buf) (B : Buffer) (s : State) :
    (s.setBuf b B).ctrl = s.ctrl := by cases b <;> rfl

@[simp] theorem setBuf_status (b : Buf) (B : Buffer) (s : State) :
    (s.setBuf b B).status = s.status := by cases b <;> rfl

@[simp] theorem setBuf_src (b : Buf) (B : Buffer) (s : State) :
    (s.setBuf b B).src = s.src := by cases b <;> rfl

@[simp] theorem setBuf_snk (b : Buf) (B : Buffer) (s : State) :
    (s.setBuf b B).snk = s.snk := by cases b <;> rfl

@[simp] theorem setBuf_capb (b : Buf) (B : Buffer) (s : State) :
    (s.setBuf b B).capb = s.capb := by cases b <;> rfl

@[simp] theorem setBuf_port (b : Buf) (B : Buffer) (s : State) :
    (s.setBuf b B).port = s.port := by cases b <;> rfl

@[simp] theorem setBuf_io (b : Buf) (B : Buffer) (s : State) :
    (s.setBuf b B).io = s.io := by cases b <;> rfl

@[simp] theorem setBuf_resp (b : Buf) (B : Buffer) (s : State) :
    (s.setBuf b B).resp = s.resp := by cases b <;> rfl

@[simp] theorem setBuf_draws (b : Buf) (B : Buffer) (s : State) :
    (s.setBuf b B).draws = s.draws := by cases b <;> rfl

/-! ### rewind -/

@[simp] theorem rewind_wbuf (b : Buf) (s : State) :
    (s.rewind b).wbuf = s.wbuf := by cases b <;> rfl

@[simp] theorem rewind_rbuf (b : Buf) (s : State) :
    (s.rewind b).rbuf = s.rbuf := by cases b <;> rfl

@[simp] theorem rewind_ctrl (b : Buf) (s : State) :
    (s.rewind b).ctrl = s.ctrl := by cases b <;> rfl

@[simp] theorem rewind_status (b : Buf) (s : State) :
    (s.rewind b).status = s.status := by cases b <;> rfl

@[simp] theorem rewind_src (b : Buf) (s : State) :
    (s.rewind b).src = s.src := by cases b <;> rfl

@[simp] theorem rewind_snk (b : Buf) (s : State) :
    (s.rewind b).snk = s.snk := by cases b <;> rfl

@[simp] theorem rewind_capb (b : Buf) (s : State) :
    (s.rewind b).capb = s.capb := by cases b <;> rfl

@[simp] theorem rewind_port (b : Buf) (s : State) :
    (s.rewind b).port = s.port := by cases b <;> rfl

@[simp] theorem rewind_io (b : Buf) (s : State) :
    (s.rewind b).io = s.io := by cases b <;> rfl

@[simp] theorem rewind_resp (b : Buf) (s : State) :
    (s.rewind b).resp = s.resp := by cases b <;> rfl

@[simp] theorem rewind_draws (b : Buf) (s : State) :
    (s.rewind b).draws = s.draws := by cases b <;> rfl

/-! ### resetBlock -/

@[simp] theorem resetBlock_wbuf  (s : State) :
    (resetBlock s).wbuf = s.wbuf.cleared := rfl

@[simp] theorem resetBlock_rbuf  (s : State) :
    (resetBlock s).rbuf = s.rbuf.cleared := rfl

@[simp] theorem resetBlock_cur  (s : State) :
    (resetBlock s).cur = 0 := rfl

@[simp] theorem resetBlock_ctrl  (s : State) :
    (resetBlock s).ctrl = 0x00000003 := rfl

@[simp] theorem resetBlock_status  (s : State) :
    (resetBlock s).status = 0x00000000 := rfl

@[simp] theorem resetBlock_src  (s : State) :
    (resetBlock s).src = s.src := rfl

@[simp] theorem resetBlock_snk  (s : State) :
    (resetBlock s).snk = s.snk := rfl

@[simp] theorem resetBlock_capb  (s : State) :
    (resetBlock s).capb = s.capb := rfl

@[simp] theorem resetBlock_port  (s : State) :
    (resetBlock s).port = s.port := rfl

@[simp] theorem resetBlock_io  (s : State) :
    (resetBlock s).io = s.io := rfl

@[simp] theorem resetBlock_resp  (s : State) :
    (resetBlock s).resp = s.resp := rfl

@[simp] theorem resetBlock_draws  (s : State) :
    (resetBlock s).draws = s.draws := rfl

/-! ### acceptCommand -/

@[simp] theorem acceptCommand_wbuf (io : IoChoice) (rest : List HostInput) (s : State) :
    (acceptCommand io rest s).wbuf = s.wbuf := rfl

@[simp] theorem acceptCommand_rbuf (io : IoChoice) (rest : List HostInput) (s : State) :
    (acceptCommand io rest s).rbuf = s.rbuf := rfl

@[simp] theorem acceptCommand_cur (io : IoChoice) (rest : List HostInput) (s : State) :
    (acceptCommand io rest s).cur = s.cur := rfl

@[simp] theorem acceptCommand_ctrl (io : IoChoice) (rest : List HostInput) (s : State) :
    (acceptCommand io rest s).ctrl = s.ctrl := rfl

@[simp] theorem acceptCommand_status (io : IoChoice) (rest : List HostInput) (s : State) :
    (acceptCommand io rest s).status = s.status := rfl

@[simp] theorem acceptCommand_src (io : IoChoice) (rest : List HostInput) (s : State) :
    (acceptCommand io rest s).src = s.src := rfl

@[simp] theorem acceptCommand_snk (io : IoChoice) (rest : List HostInput) (s : State) :
    (acceptCommand io rest s).snk = s.snk := rfl

@[simp] theorem acceptCommand_capb (io : IoChoice) (rest : List HostInput) (s : State) :
    (acceptCommand io rest s).capb = s.capb := rfl

@[simp] theorem acceptCommand_port (io : IoChoice) (rest : List HostInput) (s : State) :
    (acceptCommand io rest s).port = rest := rfl

@[simp] theorem acceptCommand_io (io : IoChoice) (rest : List HostInput) (s : State) :
    (acceptCommand io rest s).io = io := rfl

@[simp] theorem acceptCommand_resp (io : IoChoice) (rest : List HostInput) (s : State) :
    (acceptCommand io rest s).resp = s.resp := rfl

@[simp] theorem acceptCommand_draws (io : IoChoice) (rest : List HostInput) (s : State) :
    (acceptCommand io rest s).draws = s.draws + 1 := rfl

/-! ### hardReset -/

@[simp] theorem hardReset_wbuf (rest : List HostInput) (s : State) :
    (hardReset rest s).wbuf = s.wbuf.cleared := rfl

@[simp] theorem hardReset_rbuf (rest : List HostInput) (s : State) :
    (hardReset rest s).rbuf = s.rbuf.cleared := rfl

@[simp] theorem hardReset_cur (rest : List HostInput) (s : State) :
    (hardReset rest s).cur = 0 := rfl

@[simp] theorem hardReset_ctrl (rest : List HostInput) (s : State) :
    (hardReset rest s).ctrl = 0x00000003 := rfl

@[simp] theorem hardReset_status (rest : List HostInput) (s : State) :
    (hardReset rest s).status = 0x00000000 := rfl

@[simp] theorem hardReset_src (rest : List HostInput) (s : State) :
    (hardReset rest s).src = s.src := rfl

@[simp] theorem hardReset_snk (rest : List HostInput) (s : State) :
    (hardReset rest s).snk = s.snk := rfl

@[simp] theorem hardReset_capb (rest : List HostInput) (s : State) :
    (hardReset rest s).capb = s.capb := rfl

@[simp] theorem hardReset_port (rest : List HostInput) (s : State) :
    (hardReset rest s).port = rest := rfl

@[simp] theorem hardReset_io (rest : List HostInput) (s : State) :
    (hardReset rest s).io = s.io := rfl

@[simp] theorem hardReset_resp (rest : List HostInput) (s : State) :
    (hardReset rest s).resp = none := rfl

@[simp] theorem hardReset_draws (rest : List HostInput) (s : State) :
    (hardReset rest s).draws = s.draws := rfl

/-! ### Reading the buffer that a field selects -/

@[simp] theorem buf_wbuf (s : State) : s.buf .wbuf = s.wbuf := rfl

@[simp] theorem buf_rbuf (s : State) : s.buf .rbuf = s.rbuf := rfl

@[simp] theorem setBuf_buf (b : Buf) (B : Buffer) (s : State) : (s.setBuf b B).buf b = B := by
  cases b <;> rfl

@[simp] theorem buf_setBuf_wbuf (B : Buffer) (s : State) : (s.setBuf .wbuf B).wbuf = B := rfl

@[simp] theorem buf_setBuf_rbuf (B : Buffer) (s : State) : (s.setBuf .rbuf B).rbuf = B := rfl

@[simp] theorem rewind_buf (b c : Buf) (s : State) : (s.rewind b).buf c = s.buf c := by
  cases b <;> rfl

@[simp] theorem respond_buf (b : Buf) (c : Code) (n : Nat) (l : List Quad) (s : State) :
    (respond c n l s).buf b = s.buf b := by
  cases b <;> rfl

@[simp] theorem raise_buf (b : Buf) (c : Code) (n : Nat) (s : State) :
    (raise c n s).buf b = s.buf b := by
  cases b <;> rfl

@[simp] theorem Buffer.cleared_len (B : Buffer) : B.cleared.len = 0 := rfl

@[simp] theorem Buffer.cleared_mem (B : Buffer) : B.cleared.mem = B.mem := rfl

@[simp] theorem Buffer.cleared_bits (B : Buffer) : B.cleared.bits = [] := rfl

end Sys2Proof.Machine
end

