-- ==== Sys2Proof/Laws/Buffer.lean ====
section
/-! SUPPORT. What the storage primitives do to a bit buffer, said once each (20_memory.md R55 to R57):
the effect on the bit sequence, the bytes left alone, and that the invariant of a buffer is kept. -/

namespace Sys2Proof.Machine

/-! ### Capacity -/

theorem holdsBits_iff (c : Capacity) (n : Nat) : holdsBits c n = true ↔ FitsBits c n := by
  cases c <;> simp [holdsBits, FitsBits]

theorem holdsBytes_iff (c : Capacity) (n : Nat) : holdsBytes c n = true ↔ FitsBytes c n := by
  cases c <;> simp [holdsBytes, FitsBytes]

theorem fitsBits_of_bytes {c : Capacity} {k n : Nat} (h : FitsBytes c k) (hn : n ≤ 8 * k) :
    FitsBits c n := fun j hj => by have := h j hj; omega

theorem fitsBytes_mono {c : Capacity} {k n : Nat} (h : FitsBytes c k) (hn : n ≤ k) :
    FitsBytes c n := fun j hj => Nat.le_trans hn (h j hj)

theorem fitsBytes_of_bits {c : Capacity} {k n : Nat} (h : FitsBits c n) (hk : 8 * k ≤ n + 7) :
    FitsBytes c k := fun j hj => by have := h j hj; omega

/-! ### The bit sequence of a buffer -/

@[simp] theorem Buffer.bits_length (B : Buffer) : B.bits.length = B.len := by simp [Buffer.bits]

theorem Buffer.bits_getElem (B : Buffer) (a : Nat) (h : a < B.bits.length) :
    B.bits[a] = B.bitAt a := by simp [Buffer.bits]

@[simp] theorem Buffer.empty_bits : Buffer.empty.bits = [] := rfl

theorem Buffer.bits_eq_nil {B : Buffer} : B.bits = [] ↔ B.len = 0 := by
  rw [← List.length_eq_zero_iff, Buffer.bits_length]

/-- A bit sequence is the bits of a buffer when the length and every bit agree. -/
theorem Buffer.bits_eq {B : Buffer} {s : List Bool} (hl : B.len = s.length)
    (h : ∀ a (ha : a < s.length), B.bitAt a = s[a]) : B.bits = s := by
  apply List.ext_getElem (by simpa using hl)
  intro a h1 h2
  rw [Buffer.bits_getElem, h a h2]

/-! ### Appending bits -/

/-- The byte that one turn of `AppendBits` leaves in the byte it writes. -/
theorem appendBit_read {B : Buffer} (h : Memory.wf B.mem) (x : Bool) (b : Nat) :
    memRead (B.appendBit x).mem b =
      if b = B.len / 8 then
        setBit (if B.len % 8 = 0 then 0 else memRead B.mem b) (7 - B.len % 8) x
      else memRead B.mem b := by
  have hw : Memory.wf (if B.len % 8 = 0 then memWrite B.mem (B.len / 8) 0 else B.mem) := by
    split
    · exact memWrite_wf h _ _
    · exact h
  simp only [Buffer.appendBit]
  rw [memRead_memWrite hw]
  by_cases hb : b = B.len / 8
  · subst hb
    by_cases h8 : B.len % 8 = 0
    · simp [h8, memRead_memWrite h]
    · simp [h8]
  · by_cases h8 : B.len % 8 = 0
    · simp [hb, h8, memRead_memWrite h]
    · simp [hb, h8]

@[simp] theorem Buffer.appendBit_len (B : Buffer) (x : Bool) : (B.appendBit x).len = B.len + 1 := rfl

theorem Buffer.appendBit_wf {B : Buffer} (h : Memory.wf B.mem) (x : Bool) :
    Memory.wf (B.appendBit x).mem := by
  simp only [Buffer.appendBit]
  apply memWrite_wf
  split
  · exact memWrite_wf h _ _
  · exact h

/-- One bit appended: the new bit at the old length, every earlier bit as before. -/
theorem Buffer.appendBit_bits {B : Buffer} (h : Memory.wf B.mem) (x : Bool) :
    (B.appendBit x).bits = B.bits ++ [x] := by
  apply Buffer.bits_eq (by simp)
  intro a ha
  have ha' : a < B.len + 1 := by simpa using ha
  rw [Buffer.bitAt, appendBit_read h]
  by_cases hlt : a < B.len
  · rw [List.getElem_append_left (by simpa using hlt), Buffer.bits_getElem, Buffer.bitAt]
    by_cases hb : a / 8 = B.len / 8
    · have h8 : B.len % 8 ≠ 0 := by omega
      rw [if_pos hb, if_neg h8, setBit_getLsbD _ _ _ _ (by omega), if_neg (by omega)]
    · rw [if_neg hb]
  · obtain rfl : a = B.len := by omega
    rw [if_pos rfl, setBit_getLsbD _ _ _ _ (by omega), if_pos rfl]
    simp

/-- `AppendBits(B, s)`: `Bits(B) <- Bits(B) ++ s` (R55). -/
theorem Buffer.appendBits_bits {B : Buffer} (h : Memory.wf B.mem) (s : List Bool) :
    (B.appendBits s).bits = B.bits ++ s := by
  induction s generalizing B with
  | nil => simp [Buffer.appendBits]
  | cons x s ih =>
    have : B.appendBits (x :: s) = (B.appendBit x).appendBits s := rfl
    rw [this, ih (Buffer.appendBit_wf h x), Buffer.appendBit_bits h]
    simp

@[simp] theorem Buffer.appendBits_nil (B : Buffer) : B.appendBits [] = B := rfl

theorem Buffer.appendBits_cons (B : Buffer) (x : Bool) (s : List Bool) :
    B.appendBits (x :: s) = (B.appendBit x).appendBits s := rfl

theorem Buffer.appendBits_append (B : Buffer) (s t : List Bool) :
    B.appendBits (s ++ t) = (B.appendBits s).appendBits t := by simp [Buffer.appendBits]

@[simp] theorem Buffer.appendBits_len (B : Buffer) (s : List Bool) :
    (B.appendBits s).len = B.len + s.length := by
  induction s generalizing B with
  | nil => rfl
  | cons x s ih =>
    rw [Buffer.appendBits_cons, ih, Buffer.appendBit_len, List.length_cons]; omega

theorem Buffer.appendBits_wf {B : Buffer} (h : Memory.wf B.mem) (s : List Bool) :
    Memory.wf (B.appendBits s).mem := by
  induction s generalizing B with
  | nil => exact h
  | cons x s ih => exact ih (Buffer.appendBit_wf h x)

/-- The bytes that `AppendBits` leaves alone. -/
theorem Buffer.appendBits_frame {B : Buffer} (h : Memory.wf B.mem) (s : List Bool) :
    SameBytesOutside (B.len / 8) (storeEnd B.len s.length) B (B.appendBits s) := by
  induction s generalizing B with
  | nil => intro a _; rfl
  | cons x s ih =>
    intro a ha
    have hne : a ≠ B.len / 8 := by
      simp only [storeEnd, List.length_cons] at ha
      rw [if_neg (by omega)] at ha
      omega
    have hread : memRead (B.appendBit x).mem a = memRead B.mem a := by
      rw [appendBit_read h, if_neg hne]
    rw [Buffer.appendBits_cons, ← hread]
    apply ih (Buffer.appendBit_wf h x)
    simp only [storeEnd, List.length_cons, Buffer.appendBit_len] at ha ⊢
    rw [if_neg (by omega)] at ha
    split
    · omega
    · omega

/-! ### The invariant of a buffer -/

/-- The padding clause, bit by bit: in the last live byte every bit past the length is 0. -/
theorem padding_iff (B : Buffer) : PaddingZero B ↔
    (∀ j, B.len % 8 ≠ 0 → j < 8 - B.len % 8 → (memRead B.mem (B.len / 8)).getLsbD j = false) := by
  rw [PaddingZero, byte_mod_eq_zero_iff]
  exact ⟨fun h j h1 h2 => h h1 j h2, fun h h1 j h2 => h j h1 h2⟩

theorem Buffer.Ok.wf {c : Capacity} {B : Buffer} (h : Buffer.Ok c B) : Memory.wf B.mem := h.2.1

theorem Buffer.Ok.fits {c : Capacity} {B : Buffer} (h : Buffer.Ok c B) : FitsBits c B.len :=
  (holdsBits_iff _ _).1 h.1

theorem Buffer.Ok.padding {c : Capacity} {B : Buffer} (h : Buffer.Ok c B) (j : Nat)
    (h8 : B.len % 8 ≠ 0) (hj : j < 8 - B.len % 8) :
    (memRead B.mem (B.len / 8)).getLsbD j = false := (padding_iff B).1 h.2.2.2 j h8 hj

/-- A cell of a written store lies within the capacity when the written byte does. -/
theorem memWrite_cells {c : Capacity} {m : Memory} {a : Nat} {y : Byte}
    (h : ∀ cell ∈ m, holdsBytes c (cell.1 + 1) = true) (ha : FitsBytes c (a + 1)) :
    ∀ cell ∈ memWrite m a y, holdsBytes c (cell.1 + 1) = true := by
  intro cell hc
  rcases mem_memWrite hc with hc | ⟨hc, -⟩
  · exact h cell hc
  · rw [hc]; exact (holdsBytes_iff _ _).2 ha

theorem memWriteAll_cells {c : Capacity} {m : Memory} {a : Nat} {ys : List Byte}
    (h : ∀ cell ∈ m, holdsBytes c (cell.1 + 1) = true) (ha : FitsBytes c (a + ys.length)) :
    ∀ cell ∈ memWriteAll m a ys, holdsBytes c (cell.1 + 1) = true := by
  intro cell hc
  rcases mem_memWriteAll hc with hc | ⟨-, hc⟩
  · exact h cell hc
  · exact (holdsBytes_iff _ _).2 (fitsBytes_mono ha hc)

theorem Buffer.appendBit_ok {c : Capacity} {B : Buffer} (h : Buffer.Ok c B) (x : Bool)
    (hf : FitsBits c (B.len + 1)) : Buffer.Ok c (B.appendBit x) := by
  refine ⟨(holdsBits_iff _ _).2 hf, Buffer.appendBit_wf h.wf x, ?_, ?_⟩
  · have hb : FitsBytes c (B.len / 8 + 1) := fitsBytes_of_bits hf (by omega)
    simp only [Buffer.appendBit]
    apply memWrite_cells _ hb
    split
    · exact memWrite_cells h.2.2.1 hb
    · exact h.2.2.1
  · rw [padding_iff]
    intro j h8 hj
    simp only [Buffer.appendBit_len] at h8 hj ⊢
    have hd : (B.len + 1) / 8 = B.len / 8 := by omega
    rw [hd, appendBit_read h.wf, if_pos rfl, setBit_getLsbD _ _ _ _ (by omega), if_neg (by omega)]
    by_cases h0 : B.len % 8 = 0
    · simp [h0]
    · rw [if_neg h0]
      exact h.padding j h0 (by omega)

/-- `AppendBits` keeps the invariant where the bits fit. -/
theorem Buffer.appendBits_ok {c : Capacity} {B : Buffer} (h : Buffer.Ok c B) (s : List Bool)
    (hf : FitsBits c (B.len + s.length)) : Buffer.Ok c (B.appendBits s) := by
  induction s generalizing B with
  | nil => exact h
  | cons x s ih =>
    simp only [List.length_cons] at hf
    refine ih (Buffer.appendBit_ok h x fun k hk => ?_) fun k hk => ?_
    · have := hf k hk; omega
    · have := hf k hk; simp only [Buffer.appendBit_len]; omega

/-- `AppendBits` in the words of the statements. -/
theorem Buffer.appendBits_appended {c : Capacity} {B : Buffer} (h : Buffer.Ok c B) (s : List Bool)
    (hf : FitsBits c (B.len + s.length)) : Appended s B (B.appendBits s) :=
  ⟨Buffer.appendBits_bits h.wf s, Buffer.appendBits_len B s, (Buffer.appendBits_ok h s hf).2.2.2,
    Buffer.appendBits_frame h.wf s⟩

/-! ### Appending a byte -/

@[simp] theorem Buffer.appendByte_len (B : Buffer) (y : Byte) :
    (B.appendByte y).len = 8 * (B.nbytes + 1) := rfl

theorem Buffer.appendByte_wf {B : Buffer} (h : Memory.wf B.mem) (y : Byte) :
    Memory.wf (B.appendByte y).mem := memWrite_wf h _ _

/-- `AppendByte(B, y)`: `Bits(B)`, the zero padding of the abandoned byte, the 8 bits of `y` (R57). -/
theorem Buffer.appendByte_bits {c : Capacity} {B : Buffer} (h : Buffer.Ok c B) (y : Byte) :
    (B.appendByte y).bits =
      B.bits ++ List.replicate ((8 - B.len % 8) % 8) false ++ bitsOfByte y := by
  apply Buffer.bits_eq
  · simp [Buffer.nbytes]; omega
  · intro a ha
    simp only [List.length_append, Buffer.bits_length, List.length_replicate, bitsOfByte_length] at ha
    rw [Buffer.bitAt, Buffer.appendByte, memRead_memWrite h.wf]
    rcases Nat.lt_or_ge a (8 * B.nbytes) with hlt | hge
    · have hne : a / 8 ≠ B.nbytes := by omega
      rw [if_neg hne, List.getElem_append_left (by simp only [List.length_append,
        Buffer.bits_length, List.length_replicate]; simp only [Buffer.nbytes] at hlt; omega)]
      by_cases hal : a < B.len
      · rw [List.getElem_append_left (by simpa using hal), Buffer.bits_getElem, Buffer.bitAt]
      · rw [List.getElem_append_right (by simpa using hal), List.getElem_replicate]
        have e : a / 8 = B.len / 8 := by simp only [Buffer.nbytes] at hlt; omega
        rw [e]
        refine h.padding _ ?_ ?_ <;> simp only [Buffer.nbytes] at hlt <;> omega
    · have he : a / 8 = B.nbytes := by simp only [Buffer.nbytes] at hge ⊢; omega
      rw [if_pos he, List.getElem_append_right (by simp only [List.length_append,
        Buffer.bits_length, List.length_replicate]; simp only [Buffer.nbytes] at hge; omega),
        bitsOfByte_getElem]
      congr 1
      simp only [List.length_append, Buffer.bits_length, List.length_replicate]
      simp only [Buffer.nbytes] at hge he
      omega

/-- The bytes that `AppendByte` leaves alone. -/
theorem Buffer.appendByte_frame {B : Buffer} (h : Memory.wf B.mem) (y : Byte) :
    SameBytesOutside B.nbytes (B.nbytes + 1) B (B.appendByte y) := by
  intro a ha
  rw [Buffer.appendByte, memRead_memWrite h, if_neg (by omega)]

/-- `AppendByte` keeps the invariant where the byte fits. -/
theorem Buffer.appendByte_ok {c : Capacity} {B : Buffer} (h : Buffer.Ok c B) (y : Byte)
    (hf : FitsBytes c (B.nbytes + 1)) : Buffer.Ok c (B.appendByte y) := by
  refine ⟨(holdsBits_iff _ _).2 (fitsBits_of_bytes hf (by simp)), Buffer.appendByte_wf h.wf y,
    memWrite_cells h.2.2.1 hf, fun h8 => ?_⟩
  simp at h8

/-! ### Loading a whole buffer -/

@[simp] theorem Buffer.set_len (B : Buffer) (bytes : List Byte) (L : Nat) :
    (B.set bytes L).len = L := by
  simp only [Buffer.set]; split <;> rfl

theorem Buffer.set_wf {B : Buffer} (h : Memory.wf B.mem) (bytes : List Byte) (L : Nat) :
    Memory.wf (B.set bytes L).mem := by
  simp only [Buffer.set]
  split
  · exact memWriteAll_wf h _ _
  · exact memWrite_wf (memWriteAll_wf h _ _) _ _

/-- What every byte of a loaded buffer reads as: the given byte, the last live one with its padding
cleared, and the old byte past the live ones. -/
theorem Buffer.set_read {B : Buffer} (h : Memory.wf B.mem) (bytes : List Byte) (L b : Nat)
    (hL : L ≤ 8 * bytes.length) :
    memRead (B.set bytes L).mem b =
      if b < (L + 7) / 8 then
        if L % 8 ≠ 0 ∧ b = L / 8 then clearLow (bytes.getD b 0) (8 - L % 8) else bytes.getD b 0
      else memRead B.mem b := by
  have hlen : (bytes.take ((L + 7) / 8)).length = (L + 7) / 8 := by
    rw [List.length_take]; omega
  have hread : ∀ b, memRead (memWriteAll B.mem 0 (bytes.take ((L + 7) / 8))) b =
      if b < (L + 7) / 8 then bytes.getD b 0 else memRead B.mem b := by
    intro b
    rw [memRead_memWriteAll h, hlen]
    by_cases hb : b < (L + 7) / 8
    · rw [if_pos (by omega), if_pos hb]
      simp [List.getD_eq_getElem?_getD, hb]
    · rw [if_neg (by omega), if_neg hb]
  simp only [Buffer.set]
  split
  · rename_i h8
    rw [hread]
    by_cases hb : b < (L + 7) / 8
    · rw [if_pos hb, if_pos hb, if_neg (by omega)]
    · rw [if_neg hb, if_neg hb]
  · rename_i h8
    have hk : (L + 7) / 8 - 1 = L / 8 := by omega
    rw [memRead_memWrite (memWriteAll_wf h _ _), hk, hread]
    by_cases hb : b = L / 8
    · subst hb
      have hlt : L / 8 < (L + 7) / 8 := by omega
      rw [if_pos rfl, if_pos hlt, if_pos hlt, if_pos ⟨h8, rfl⟩]
    · rw [if_neg hb, hread]
      by_cases hb2 : b < (L + 7) / 8
      · rw [if_pos hb2, if_pos hb2, if_neg (by simp [hb])]
      · rw [if_neg hb2, if_neg hb2]

/-- `SetBuffer(B, bytes, L)`: `Bits(B) <- Unpack(bytes)[0..L]` (R56). -/
theorem Buffer.set_bits {B : Buffer} (h : Memory.wf B.mem) (bytes : List Byte) (L : Nat)
    (hL : L ≤ 8 * bytes.length) : (B.set bytes L).bits = (unpack bytes).take L := by
  apply Buffer.bits_eq
  · rw [Buffer.set_len, List.length_take, unpack_length]; omega
  · intro a ha
    have haL : a < L := by rw [List.length_take] at ha; omega
    rw [Buffer.bitAt, Buffer.set_read h bytes L _ hL, if_pos (by omega), List.getElem_take,
      unpack_getElem]
    split
    · rename_i h8
      rw [clearLow_getLsbD]
      have : 8 - L % 8 ≤ 7 - a % 8 := by omega
      simp [this]
    · rfl

/-- The bytes that `SetBuffer` leaves alone. -/
theorem Buffer.set_frame {B : Buffer} (h : Memory.wf B.mem) (bytes : List Byte) (L : Nat)
    (hL : L ≤ 8 * bytes.length) : SameBytesOutside 0 ((L + 7) / 8) B (B.set bytes L) := by
  intro a ha
  rw [Buffer.set_read h bytes L a hL, if_neg (by omega)]

/-- `SetBuffer` clears the padding of the last live byte. -/
theorem Buffer.set_padding {B : Buffer} (h : Memory.wf B.mem) (bytes : List Byte) (L : Nat)
    (hL : L ≤ 8 * bytes.length) : PaddingZero (B.set bytes L) := by
  rw [padding_iff]
  intro j h8 hj
  rw [Buffer.set_len] at h8 hj ⊢
  rw [Buffer.set_read h bytes L _ hL, if_pos (by omega), if_pos ⟨h8, rfl⟩, clearLow_getLsbD]
  have : ¬ 8 - L % 8 ≤ j := by omega
  simp [this]

/-- `SetBuffer` in the words of the statements. -/
theorem Buffer.set_loaded {B : Buffer} (h : Memory.wf B.mem) (bytes : List Byte) (L : Nat)
    (hL : L ≤ 8 * bytes.length) : Loaded ((unpack bytes).take L) B (B.set bytes L) := by
  have hl : ((unpack bytes).take L).length = L := by rw [List.length_take, unpack_length]; omega
  refine ⟨Buffer.set_bits h bytes L hL, by rw [Buffer.set_len, hl], Buffer.set_padding h bytes L hL, ?_⟩
  rw [hl]
  exact Buffer.set_frame h bytes L hL

/-- `SetBuffer` keeps the invariant where its bytes fit. -/
theorem Buffer.set_ok {c : Capacity} {B : Buffer} (h : Buffer.Ok c B) (bytes : List Byte) (L : Nat)
    (hL : L ≤ 8 * bytes.length) (hf : FitsBytes c ((L + 7) / 8)) : Buffer.Ok c (B.set bytes L) := by
  have hlen : (bytes.take ((L + 7) / 8)).length ≤ (L + 7) / 8 := by
    rw [List.length_take]; omega
  refine ⟨?_, Buffer.set_wf h.wf bytes L, ?_, Buffer.set_padding h.wf bytes L hL⟩
  · rw [Buffer.set_len]
    exact (holdsBits_iff _ _).2 (fitsBits_of_bytes hf (by omega))
  · have hc : ∀ cell ∈ memWriteAll B.mem 0 (bytes.take ((L + 7) / 8)),
        holdsBytes c (cell.1 + 1) = true :=
      memWriteAll_cells h.2.2.1 (fitsBytes_mono hf (by omega))
    simp only [Buffer.set]
    split
    · exact hc
    · exact memWrite_cells hc (fitsBytes_mono hf (by omega))

/-- Emptying a buffer keeps the invariant: the store is not written. -/
theorem Buffer.cleared_ok {c : Capacity} {B : Buffer} (h : Buffer.Ok c B) : Buffer.Ok c B.cleared :=
  ⟨(holdsBits_iff _ _).2 fun _ _ => Nat.zero_le _, h.wf, h.2.2.1, fun h8 => absurd rfl h8⟩

theorem Buffer.empty_ok (c : Capacity) : Buffer.Ok c Buffer.empty :=
  ⟨(holdsBits_iff _ _).2 fun _ _ => Nat.zero_le _, ⟨List.Pairwise.nil, by simp [Buffer.empty]⟩,
    by simp [Buffer.empty], fun h8 => absurd rfl h8⟩

/-! ### The bytes of a buffer -/

@[simp] theorem Buffer.bytes_length (B : Buffer) : B.bytes.length = B.nbytes := by simp [Buffer.bytes]

/-- `Bytes(B) = Pack(Bits(B))` (40_bitbuffer.md R116): the padding of the last byte is 0. -/
theorem Buffer.bytes_eq_pack {c : Capacity} {B : Buffer} (h : Buffer.Ok c B) :
    B.bytes = pack B.bits := by
  apply unpack_injective
  rw [unpack_pack, Buffer.bits_length]
  apply List.ext_getElem
  · simp [Buffer.nbytes]; omega
  · intro a h1 h2
    have ha : a < 8 * B.nbytes := by simpa using h1
    rw [unpack_getElem, Buffer.bytes, List.getD_eq_getElem?_getD, List.getElem?_map,
      List.getElem?_range (by omega)]
    simp only [Option.map_some, Option.getD_some]
    by_cases hal : a < B.len
    · rw [List.getElem_append_left (by simpa using hal), Buffer.bits_getElem, Buffer.bitAt]
    · rw [List.getElem_append_right (by simpa using hal), List.getElem_replicate]
      have e : a / 8 = B.len / 8 := by simp only [Buffer.nbytes] at ha; omega
      rw [e]
      refine h.padding _ ?_ ?_ <;> simp only [Buffer.nbytes] at ha <;> omega

end Sys2Proof.Machine
end

