-- ==== Sys2Proof/Laws/Codec.lean ====
section
/-! SUPPORT. What the front-of-stream decoders and the exact decoders answer on every bit sequence: one
codeword of an acceptable value, one too large, or none (43_unary.md R162, R163, 44_gamma.md R177,
R178, 45_delta.md R192, R193), and what the stream loop makes of that. -/

namespace Sys2Proof.Machine

/-! ### The three answers of a decoder -/

/-- What a front-of-stream decoder of the codewords `word v`, `v >= low`, answers. -/
structure Peels (peel : List Bool → Peeled) (word : Nat → List Bool) (low limit : Nat) (err : Code) :
    Prop where
  accepts : ∀ v rest, low ≤ v → v ≤ limit → peel (word v ++ rest) = .ok (v, (word v).length)
  overflows : ∀ v rest, low ≤ v → limit < v → peel (word v ++ rest) = .error .overflowError
  rejects : ∀ s, (∀ v rest, low ≤ v → s ≠ word v ++ rest) → peel s = .error err

/-- What an exact decoder answers. -/
structure Exacts (exact : List Bool → Except Code Nat) (word : Nat → List Bool) (low limit : Nat)
    (err : Code) : Prop where
  accepts : ∀ v, low ≤ v → v ≤ limit → exact (word v) = .ok v
  overflows : ∀ v, low ≤ v → limit < v → exact (word v) = .error .overflowError
  rejects : ∀ s, (∀ v, low ≤ v → s ≠ word v) → exact s = .error err

/-- The codewords that a front-of-stream decoder accepts are prefix-free: two that begin one bit
sequence are the same. -/
theorem Peels.prefixFree {peel : List Bool → Peeled} {word : Nat → List Bool} {low limit : Nat}
    {err : Code} (hp : Peels peel word low limit err) {u v : Nat} {x y : List Bool}
    (hu : low ≤ u ∧ u ≤ limit) (hv : low ≤ v ∧ v ≤ limit) (h : word u ++ x = word v ++ y) :
    u = v ∧ x = y := by
  have h1 := hp.accepts u x hu.1 hu.2
  rw [h, hp.accepts v y hv.1 hv.2] at h1
  obtain rfl : v = u := by injection h1 with h1; exact congrArg Prod.fst h1
  exact ⟨rfl, List.append_cancel_left h⟩

/-- Some width accepts both of two values. -/
theorem le_two_pow_pred (u v : Nat) : u ≤ 2 ^ (u + v) - 1 ∧ v ≤ 2 ^ (u + v) - 1 := by
  have := Nat.lt_two_pow_self (n := u + v)
  omega

/-! ### Unary -/

@[simp] theorem unaryWord_length (n : Nat) : (unaryWord n).length = n + 1 := by simp [unaryWord]

theorem firstZero_unaryWord (n : Nat) (rest : List Bool) : firstZero (unaryWord n ++ rest) = some n := by
  rw [unaryWord, List.append_assoc, List.singleton_append, firstZero_replicate_append]

/-- A sequence with a first zero begins with a unary codeword. -/
theorem unary_of_firstZero {s : List Bool} {n : Nat} (h : firstZero s = some n) :
    s = unaryWord n ++ s.drop (n + 1) := by
  rw [unaryWord, List.append_assoc, List.singleton_append]
  exact firstZero_some h

theorem peelU_peels (W : Nat) : Peels (peelU W) unaryWord 0 (2 ^ W - 1) .unaryCodeError where
  accepts v rest _ hv := by
    rw [peelU, firstZero_unaryWord]
    simp only
    rw [if_neg (by omega), unaryWord_length]
  overflows v rest _ hv := by
    rw [peelU, firstZero_unaryWord]
    simp only
    rw [if_pos hv]
  rejects s h := by
    rw [peelU]
    rcases hz : firstZero s with _ | n
    · rfl
    · exact absurd (unary_of_firstZero hz) (h n _ (Nat.zero_le n))

theorem exactU_exacts (W : Nat) : Exacts (exactU W) unaryWord 0 (2 ^ W - 1) .unaryCodeError := by
  have hword : ∀ v, ¬ (unaryWord v = [] ∨ (unaryWord v).getLastD true ≠ false ∨
      (unaryWord v).dropLast.any (fun x => !x) = true) := by
    intro v
    simp [unaryWord, List.getLastD_eq_getLast?]
  refine ⟨fun v _ hv => ?_, fun v _ hv => ?_, fun s h => ?_⟩
  · rw [exactU, if_neg (hword v)]
    simp only [unaryWord_length, Nat.add_sub_cancel]
    rw [if_neg (by omega)]
  · rw [exactU, if_neg (hword v)]
    simp only [unaryWord_length, Nat.add_sub_cancel]
    rw [if_pos hv]
  · rw [exactU]
    split
    · rfl
    · rename_i hc
      exfalso
      simp only [not_or, not_not] at hc
      obtain ⟨h1, h2, h3⟩ := hc
      obtain ⟨l, x, rfl⟩ : ∃ l x, s = l ++ [x] := ⟨s.dropLast, s.getLast h1,
        (List.dropLast_append_getLast h1).symm⟩
      have hx : x = false := by simpa [List.getLastD_eq_getLast?] using h2
      have hl : l = List.replicate l.length true := by
        apply List.eq_replicate_of_mem
        intro y hy
        simp only [List.dropLast_concat, Bool.not_eq_true, List.any_eq_false] at h3
        simpa using h3 y hy
      exact h l.length (Nat.zero_le _) (by rw [unaryWord, ← hl, hx])

/-- `U` is prefix-free (43_unary.md R166 clause b). -/
theorem unaryWord_prefixFree {u v : Nat} {x y : List Bool} (h : unaryWord u ++ x = unaryWord v ++ y) :
    u = v ∧ x = y :=
  (peelU_peels (u + v)).prefixFree ⟨u.zero_le, (le_two_pow_pred u v).1⟩
    ⟨v.zero_le, (le_two_pow_pred u v).2⟩ h

/-! ### Gamma -/

theorem gammaWord_eq (v : Nat) : gammaWord v = unaryWord (bitlen v - 1) ++ offset v := rfl

theorem gammaWord_length (v : Nat) : (gammaWord v).length = 2 * (bitlen v - 1) + 1 := by
  rw [gammaWord_eq, List.length_append, unaryWord_length, offset_length]; omega

/-- The gamma codeword given by its offset bits. -/
theorem gammaWord_of_offset (o : List Bool) :
    gammaWord (2 ^ o.length + natOf o) = unaryWord o.length ++ o := by
  rw [gammaWord_eq, bitlen_pow_add, offset_pow_add, Nat.add_sub_cancel]

theorem drop_unaryWord (n : Nat) (s : List Bool) : (unaryWord n ++ s).drop (n + 1) = s := by
  rw [List.drop_append, List.drop_eq_nil_of_le (by simp)]
  simp

/-- `v` fits `W - 1` bits, in the two ways the rules say it. -/
theorem bitlen_lt_iff {v W : Nat} (hW : 1 ≤ W) (hv : 1 ≤ v) :
    bitlen v - 1 + 1 ≥ W ↔ 2 ^ (W - 1) - 1 < v := by
  have h1 := @bitlen_le_iff v (W - 1)
  have h2 := bitlen_pos hv
  have h3 := Nat.two_pow_pos (W - 1)
  omega

theorem peelG_peels {W : Nat} (hW : 1 ≤ W) :
    Peels (peelG W) gammaWord 1 (2 ^ (W - 1) - 1) .gammaCodeError := by
  have key : ∀ v rest, 1 ≤ v → peelG W (gammaWord v ++ rest) =
      if bitlen v - 1 + 1 ≥ W then .error .overflowError else .ok (v, (gammaWord v).length) := by
    intro v rest hv
    rw [peelG, gammaWord_eq, List.append_assoc, firstZero_unaryWord]
    have hlen : ¬ (unaryWord (bitlen v - 1) ++ (offset v ++ rest)).length - (bitlen v - 1 + 1) <
        bitlen v - 1 := by simp
    simp only
    rw [if_neg hlen, subseq_eq, drop_unaryWord, List.take_left' (by simp), pow_add_natOf_offset hv,
      ← gammaWord_eq, gammaWord_length]
  refine ⟨fun v rest hv hl => ?_, fun v rest hv hl => ?_, fun s h => ?_⟩
  · rw [key v rest hv, if_neg (by rw [bitlen_lt_iff hW hv]; omega)]
  · rw [key v rest hv, if_pos ((bitlen_lt_iff hW hv).2 hl)]
  · rw [peelG]
    rcases hz : firstZero s with _ | n
    · rfl
    · simp only
      split
      · rfl
      · rename_i hlen
        exfalso
        have hs := unary_of_firstZero hz
        have ho : ((s.drop (n + 1)).take n).length = n := by
          rw [List.length_take, List.length_drop]; omega
        refine h (2 ^ n + natOf ((s.drop (n + 1)).take n)) ((s.drop (n + 1)).drop n)
          (by have := Nat.two_pow_pos n; omega) ?_
        have := gammaWord_of_offset ((s.drop (n + 1)).take n)
        rw [ho] at this
        rw [this, List.append_assoc, List.take_append_drop]
        exact hs

theorem exactG_exacts {W : Nat} (hW : 1 ≤ W) :
    Exacts (exactG W) gammaWord 1 (2 ^ (W - 1) - 1) .gammaCodeError := by
  have key : ∀ v, 1 ≤ v → exactG W (gammaWord v) =
      if bitlen v - 1 + 1 ≥ W then .error .overflowError else .ok v := by
    intro v hv
    rw [exactG, gammaWord_eq, firstZero_unaryWord]
    have hlen : ¬ (unaryWord (bitlen v - 1) ++ offset v).length - (bitlen v - 1 + 1) ≠
        bitlen v - 1 := by simp
    simp only
    rw [if_neg hlen, subseq_to_end, drop_unaryWord, pow_add_natOf_offset hv]
  refine ⟨fun v hv hl => ?_, fun v hv hl => ?_, fun s h => ?_⟩
  · rw [key v hv, if_neg (by rw [bitlen_lt_iff hW hv]; omega)]
  · rw [key v hv, if_pos ((bitlen_lt_iff hW hv).2 hl)]
  · rw [exactG]
    rcases hz : firstZero s with _ | n
    · rfl
    · simp only
      split
      · rfl
      · rename_i hlen
        exfalso
        have hs := unary_of_firstZero hz
        have ho : (s.drop (n + 1)).length = n := by rw [List.length_drop]; omega
        refine h (2 ^ n + natOf (s.drop (n + 1))) (by have := Nat.two_pow_pos n; omega) ?_
        have := gammaWord_of_offset (s.drop (n + 1))
        rw [ho] at this
        rw [this]
        exact hs

/-- `G` is prefix-free (44_gamma.md R181 clause b). -/
theorem gammaWord_prefixFree {u v : Nat} {x y : List Bool} (hu : 1 ≤ u) (hv : 1 ≤ v)
    (h : gammaWord u ++ x = gammaWord v ++ y) : u = v ∧ x = y :=
  (peelG_peels (W := u + v + 1) (by omega)).prefixFree ⟨hu, (le_two_pow_pred u v).1⟩
    ⟨hv, (le_two_pow_pred u v).2⟩ h

/-! ### Delta -/

theorem deltaWord_length {v : Nat} (hv : 1 ≤ v) :
    (deltaWord v).length = 2 * (bitlen (bitlen v) - 1) + bitlen v := by
  have := bitlen_pos hv
  rw [deltaWord, List.length_append, gammaWord_length, offset_length]; omega

/-- The parts of a delta codeword in a row. -/
theorem deltaWord_eq (v : Nat) :
    deltaWord v = unaryWord (bitlen (bitlen v) - 1) ++ (offset (bitlen v) ++ offset v) := by
  rw [deltaWord, gammaWord_eq, List.append_assoc]

/-- The delta codeword given by its length bits and its offset bits. -/
theorem deltaWord_of_parts (lb o : List Bool) (h : 2 ^ lb.length + natOf lb = o.length + 1) :
    deltaWord (2 ^ o.length + natOf o) = unaryWord lb.length ++ (lb ++ o) := by
  rw [deltaWord_eq, bitlen_pow_add, offset_pow_add, ← h, bitlen_pow_add, offset_pow_add,
    Nat.add_sub_cancel]

theorem drop_two (n : Nat) (a b : List Bool) (ha : a.length = n) :
    (unaryWord n ++ (a ++ b)).drop (n + 1 + n) = b := by
  rw [← List.drop_drop, drop_unaryWord, List.drop_left' ha]

theorem bitlen_bitlen (v : Nat) (hv : 1 ≤ v) :
    2 ^ (bitlen (bitlen v) - 1) + natOf (offset (bitlen v)) = bitlen v :=
  pow_add_natOf_offset (bitlen_pos hv)

theorem bitlen_ge_iff {v W : Nat} (hW : 1 ≤ W) (hv : 1 ≤ v) :
    bitlen v ≥ W ↔ 2 ^ (W - 1) - 1 < v := by
  rw [← bitlen_lt_iff hW hv, Nat.sub_add_cancel (bitlen_pos hv)]

theorem peelD_peels {W : Nat} (hW : 1 ≤ W) :
    Peels (peelD W) deltaWord 1 (2 ^ (W - 1) - 1) .deltaCodeError := by
  have key : ∀ v rest, 1 ≤ v → peelD W (deltaWord v ++ rest) =
      if bitlen v ≥ W then .error .overflowError else .ok (v, (deltaWord v).length) := by
    intro v rest hv
    have hN := bitlen_pos hv
    rw [peelD, deltaWord_eq, List.append_assoc, List.append_assoc, firstZero_unaryWord]
    set M := bitlen (bitlen v) - 1 with hM
    have h1 : ¬ (unaryWord M ++ (offset (bitlen v) ++ (offset v ++ rest))).length - (M + 1) < M := by
      simp only [List.length_append, unaryWord_length, offset_length, ← hM]; omega
    simp only
    rw [if_neg h1, subseq_eq, drop_unaryWord, List.take_left' (by rw [offset_length]), hM,
      bitlen_bitlen v hv, ← hM]
    have h2 : ¬ (unaryWord M ++ (offset (bitlen v) ++ (offset v ++ rest))).length - (M + 1 + M) <
        bitlen v - 1 := by
      simp only [List.length_append, unaryWord_length, offset_length, ← hM]; omega
    rw [if_neg h2, subseq_eq, drop_two M _ _ (by rw [offset_length]), List.take_left' (by simp),
      pow_add_natOf_offset hv]
    have h3 : M + 1 + M + (bitlen v - 1) =
        (unaryWord M ++ (offset (bitlen v) ++ offset v)).length := by
      simp only [List.length_append, unaryWord_length, offset_length, ← hM]; omega
    rw [h3]
  refine ⟨fun v rest hv hl => ?_, fun v rest hv hl => ?_, fun s h => ?_⟩
  · rw [key v rest hv, if_neg (by rw [bitlen_ge_iff hW hv]; omega)]
  · rw [key v rest hv, if_pos ((bitlen_ge_iff hW hv).2 hl)]
  · rw [peelD]
    rcases hz : firstZero s with _ | n
    · rfl
    · simp only
      split
      · rfl
      · rename_i hl1
        rw [subseq_eq]
        have hs := unary_of_firstZero hz
        set lb := (s.drop (n + 1)).take n with hlb
        have hlbl : lb.length = n := by
          rw [hlb, List.length_take, List.length_drop]; omega
        split
        · rfl
        · rename_i hl2
          exfalso
          set len := 2 ^ n + natOf lb - 1 with hlen
          set o := ((s.drop (n + 1)).drop n).take len with ho
          have hol : o.length = len := by
            rw [ho, List.length_take, List.length_drop, List.length_drop]; omega
          refine h (2 ^ o.length + natOf o) (((s.drop (n + 1)).drop n).drop len)
            (by have := Nat.two_pow_pos o.length; omega) ?_
          rw [deltaWord_of_parts lb o (by
            rw [hlbl, hol, hlen]; have := Nat.two_pow_pos n; omega), hlbl]
          rw [List.append_assoc, List.append_assoc, ho, List.take_append_drop, hlb,
            List.take_append_drop]
          exact hs

theorem exactD_exacts {W : Nat} (hW : 1 ≤ W) :
    Exacts (exactD W) deltaWord 1 (2 ^ (W - 1) - 1) .deltaCodeError := by
  have key : ∀ v, 1 ≤ v → exactD W (deltaWord v) =
      if bitlen v ≥ W then .error .overflowError else .ok v := by
    intro v hv
    have hN := bitlen_pos hv
    rw [exactD, deltaWord_eq, firstZero_unaryWord]
    set M := bitlen (bitlen v) - 1 with hM
    have h1 : ¬ (unaryWord M ++ (offset (bitlen v) ++ offset v)).length - (M + 1) < M := by
      simp only [List.length_append, unaryWord_length, offset_length, ← hM]; omega
    simp only
    rw [if_neg h1, subseq_eq, drop_unaryWord, List.take_left' (by rw [offset_length]), hM,
      bitlen_bitlen v hv, ← hM]
    have h2 : ¬ (unaryWord M ++ (offset (bitlen v) ++ offset v)).length - (M + 1 + M) ≠
        bitlen v - 1 := by
      simp only [List.length_append, unaryWord_length, offset_length, ← hM]; omega
    rw [if_neg h2, subseq_to_end, drop_two M _ _ (by rw [offset_length]), pow_add_natOf_offset hv]
  refine ⟨fun v hv hl => ?_, fun v hv hl => ?_, fun s h => ?_⟩
  · rw [key v hv, if_neg (by rw [bitlen_ge_iff hW hv]; omega)]
  · rw [key v hv, if_pos ((bitlen_ge_iff hW hv).2 hl)]
  · rw [exactD]
    rcases hz : firstZero s with _ | n
    · rfl
    · simp only
      split
      · rfl
      · rename_i hl1
        rw [subseq_eq]
        have hs := unary_of_firstZero hz
        set lb := (s.drop (n + 1)).take n with hlb
        have hlbl : lb.length = n := by
          rw [hlb, List.length_take, List.length_drop]; omega
        split
        · rfl
        · rename_i hl2
          exfalso
          set o := (s.drop (n + 1)).drop n with ho
          have hol : o.length = 2 ^ n + natOf lb - 1 := by
            rw [ho, List.length_drop, List.length_drop]; omega
          refine h (2 ^ o.length + natOf o) (by have := Nat.two_pow_pos o.length; omega) ?_
          rw [deltaWord_of_parts lb o (by
            rw [hlbl, hol]; have := Nat.two_pow_pos n; omega), hlbl, hlb, ho, List.take_append_drop]
          exact hs

/-- `D` is prefix-free (45_delta.md R196 clause b). -/
theorem deltaWord_prefixFree {u v : Nat} {x y : List Bool} (hu : 1 ≤ u) (hv : 1 ≤ v)
    (h : deltaWord u ++ x = deltaWord v ++ y) : u = v ∧ x = y :=
  (peelD_peels (W := u + v + 1) (by omega)).prefixFree ⟨hu, (le_two_pow_pred u v).1⟩
    ⟨hv, (le_two_pow_pred u v).2⟩ h

/-! ### The stream loop -/

/-- What the loop of a stream decoder makes of codewords of acceptable values `vs` and a `tail`: with no
tail all the values, else the error at the tail's address. -/
theorem decodeStream_words {peel : List Bool → Peeled} {word : Nat → List Bool} {low limit : Nat}
    {err : Code} (hp : Peels peel word low limit err) (hpos : ∀ v, low ≤ v → word v ≠ [])
    (vs : List Nat) (hvs : ∀ v ∈ vs, low ≤ v ∧ v ≤ limit) (tail : List Bool) (fuel c : Nat)
    (hf : (vs.flatMap word ++ tail).length ≤ fuel) :
    (tail = [] → decodeStream peel fuel c (vs.flatMap word ++ tail) = .ok vs) ∧
    (∀ e, tail ≠ [] → peel tail = .error e →
      decodeStream peel fuel c (vs.flatMap word ++ tail) =
        .error (e, c + (vs.flatMap word).length)) := by
  induction vs generalizing fuel c with
  | nil =>
    constructor
    · rintro rfl
      cases fuel <;> simp [decodeStream]
    · intro e ht he
      cases fuel with
      | zero =>
        exfalso
        simp only [List.flatMap_nil, List.nil_append, Nat.le_zero, List.length_eq_zero_iff] at hf
        exact ht hf
      | succ fuel => simp [decodeStream, ht, he]
  | cons v vs ih =>
    have hv := hvs v (by simp)
    have hne := hpos v hv.1
    have hlen : 0 < (word v).length := List.length_pos_iff.2 hne
    simp only [List.flatMap_cons, List.append_assoc, List.length_append] at hf ⊢
    obtain ⟨fuel, rfl⟩ : ∃ k, fuel = k + 1 := ⟨fuel - 1, by omega⟩
    have hrest := ih (fun u hu => hvs u (by simp [hu])) fuel (c + (word v).length)
      (by simp only [List.length_append]; omega)
    have hnil : ¬ (word v ++ (vs.flatMap word ++ tail) = []) := by simp [hne]
    have hstep : ∀ r, decodeStream peel fuel (c + (word v).length) (vs.flatMap word ++ tail) = r →
        decodeStream peel (fuel + 1) c (word v ++ (vs.flatMap word ++ tail)) =
          (match r with
            | .error e => .error e
            | .ok out => .ok (v :: out)) := by
      intro r hr
      rw [decodeStream, if_neg hnil, hp.accepts v _ hv.1 hv.2]
      simp only
      rw [List.drop_left' rfl, hr]
      all_goals (cases r <;> rfl)
    constructor
    · intro ht
      rw [hstep _ (hrest.1 ht)]
    · intro e ht he
      rw [hstep _ (hrest.2 e ht he)]
      simp only [Nat.add_assoc]

theorem unaryWord_ne_nil (v : Nat) : unaryWord v ≠ [] := by simp [unaryWord]

theorem gammaWord_ne_nil (v : Nat) : gammaWord v ≠ [] := by simp [gammaWord_eq, unaryWord]

theorem deltaWord_ne_nil (v : Nat) : deltaWord v ≠ [] := by simp [deltaWord_eq, unaryWord]

end Sys2Proof.Machine
end

