-- ==== Sys2Proof/Laws/Decode.lean ====
section
/-! SUPPORT. No word selects two rows of the opcode map, and what the decoder makes of a word that
selects a row or none (30_encoding.md R84, R85). -/

namespace Sys2Proof

/-- Every two rows differ in a bit that both masks cover. -/
theorem rows_disjoint :
    rows.Pairwise (fun r q => r.mask &&& q.mask &&& (r.pattern ^^^ q.pattern) ≠ 0) := by decide

/-- A bit that both masks cover and in which the patterns differ tells the rows apart. -/
theorem not_both {w : Word} {r q : Row} (h : r.mask &&& q.mask &&& (r.pattern ^^^ q.pattern) ≠ 0)
    (hr : w &&& r.mask = r.pattern) : w &&& q.mask ≠ q.pattern := by
  intro hq
  apply h
  rw [← hr, ← hq]
  apply BitVec.eq_of_getLsbD_eq
  intro i _
  simp only [BitVec.getLsbD_and, BitVec.getLsbD_xor]
  cases w.getLsbD i <;> cases r.mask.getLsbD i <;> cases q.mask.getLsbD i <;> simp

/-- No word selects two rows. -/
theorem row_unique {w : Word} {r q : Row} (hr : r ∈ rows) (hq : q ∈ rows)
    (h1 : w &&& r.mask = r.pattern) (h2 : w &&& q.mask = q.pattern) : r = q := by
  obtain ⟨i, hi, rfl⟩ := List.getElem_of_mem hr
  obtain ⟨j, hj, rfl⟩ := List.getElem_of_mem hq
  have hd := List.pairwise_iff_getElem.1 rows_disjoint
  rcases Nat.lt_trichotomy i j with h | h | h
  · exact absurd h2 (not_both (hd i j hi hj h) h1)
  · subst h; rfl
  · exact absurd h1 (not_both (hd j i hj hi h) h2)

/-- A word that selects a row decodes as the row's fields say. -/
theorem decode_row {c : Command} {r : Row} (hr : r ∈ rows) (h : c.cmd &&& r.mask = r.pattern) :
    decode c = (match r.build c with
      | some i => .ok i
      | none => .error .fieldConstraint) := by
  have hf : rows.find? (fun r => r.selects c.cmd) = some r := by
    rcases hf : rows.find? (fun r => r.selects c.cmd) with _ | q
    · have := List.find?_eq_none.1 hf r hr
      simp [Row.selects, h] at this
    · have h1 := List.find?_some hf
      have h2 := List.mem_of_find?_eq_some hf
      simp only [Row.selects, beq_iff_eq] at h1
      rw [hf, row_unique hr h2 h h1]
  rw [decode, hf]
  all_goals rfl

/-- A word that selects no row is illegal. -/
theorem decode_none {c : Command} (h : ∀ r ∈ rows, c.cmd &&& r.mask ≠ r.pattern) :
    decode c = .error .unknownOpcode ∨ decode c = .error .strayBit := by
  have hf : rows.find? (fun r => r.selects c.cmd) = none :=
    List.find?_eq_none.2 (by simpa [Row.selects] using h)
  rw [decode, hf]
  simp only
  split
  · exact .inr rfl
  · exact .inl rfl

/-- What decodes comes from a row. -/
theorem row_of_decode {c : Command} {i : Instr} (h : decode c = .ok i) :
    ∃ r ∈ rows, c.cmd &&& r.mask = r.pattern ∧ r.build c = some i := by
  by_cases hn : ∀ r ∈ rows, c.cmd &&& r.mask ≠ r.pattern
  · rcases decode_none hn with e | e <;> rw [e] at h <;> cases h
  · push Not at hn
    obtain ⟨r, hr, hs⟩ := hn
    refine ⟨r, hr, hs, ?_⟩
    rw [decode_row hr hs] at h
    rcases hb : r.build c with _ | j <;> rw [hb] at h
    · cases h
    · injection h with h; rw [h]

/-- The masks cover the opcode. -/
theorem mask_covers_op : ∀ r ∈ rows, r.mask &&& 0xFF000000 = 0xFF000000 := by decide

/-- A word that selects a row has the row's opcode. -/
theorem op_of_selects {c : Command} {r : Row} (hr : r ∈ rows) (h : c.cmd &&& r.mask = r.pattern) :
    r.pattern.extractLsb' 24 8 = c.op := by
  rw [← h, Command.op]
  apply BitVec.eq_of_getLsbD_eq
  intro i hi
  have hc := congrArg (fun x : Word => x.getLsbD (24 + i)) (mask_covers_op r hr)
  have hm : ∀ i : Fin 8, (0xFF000000 : Word).getLsbD (24 + i.val) = true := by decide
  have hi' := hm ⟨i, hi⟩
  simp only [BitVec.getLsbD_and] at hc
  rw [hi', Bool.and_true] at hc
  simp only [BitVec.getLsbD_extractLsb', hi, decide_true, Bool.true_and, BitVec.getLsbD_and, hc,
    Bool.and_true]

/-! ### The fields of a laid out word (R82) -/

theorem layWord_wsel (op : BitVec 8) (sel : BitVec 3) (b : BitVec 1) (imm : BitVec 16) :
    (layWord op sel b imm).extractLsb' 21 3 = sel := by
  apply BitVec.eq_of_getLsbD_eq
  intro i hi
  simp only [layWord, BitVec.getLsbD_extractLsb', BitVec.getLsbD_append]
  interval_cases i <;> simp

theorem layWord_buf (op : BitVec 8) (sel : BitVec 3) (b : BitVec 1) (imm : BitVec 16) :
    (layWord op sel b imm).getLsbD 20 = b.getLsbD 0 := by
  simp only [layWord, BitVec.getLsbD_append]
  rfl

theorem layWord_imm (op : BitVec 8) (sel : BitVec 3) (b : BitVec 1) (imm : BitVec 16) (k : Nat)
    (hk : k ≤ 16) : (layWord op sel b imm).extractLsb' 0 k = imm.extractLsb' 0 k := by
  apply BitVec.eq_of_getLsbD_eq
  intro i hi
  simp only [layWord, BitVec.getLsbD_extractLsb', BitVec.getLsbD_append, Nat.zero_add]
  rw [if_pos (by omega)]

theorem layWord_op (op : BitVec 8) (sel : BitVec 3) (b : BitVec 1) (imm : BitVec 16) :
    (layWord op sel b imm).extractLsb' 24 8 = op := by
  apply BitVec.eq_of_getLsbD_eq
  intro i hi
  simp only [layWord, BitVec.getLsbD_extractLsb', BitVec.getLsbD_append]
  interval_cases i <;> simp

/-- The width that a word of format `W` selects. -/
@[simp] theorem wordW_width (op : BitVec 8) (w : Width) (o : Quad) :
    widthOf (Command.mk (wordW op w) o).wsel = some w := by
  rw [Command.wsel, wordW, layWord_wsel]
  cases w <;> decide

/-- The buffer that a word of format `B` selects. -/
@[simp] theorem wordB_buf (op : BitVec 8) (b : Buf) (imm : BitVec 16) (o : Quad) :
    (Command.mk (wordB op b imm) o).buf = b := by
  rw [Command.buf, wordB, layWord_buf]
  cases b <;> decide

/-- Every well-formed command has its own opcode (R84). -/
theorem encode_op (i : Instr) : (encode i).op = i.opcode := by
  cases i <;> exact layWord_op _ _ _ _

end Sys2Proof
end

