-- ==== Sys2Proof/Laws/Ops.lean ====
section
/-! SUPPORT. What the shared operations can do, said once each: the `STATUS` update, responding and
raising, the byte streams, and the end of the encoders. -/

namespace Sys2Proof.Machine

/-! ### `STATUS` -/

/-- Which codes set which bit of `STATUS`: the flag word of a code. -/
theorem flagWord_getLsbD (c : Code) (k : Nat) :
    (if c = .ok then 0#32 else 1#32 <<< (16 + c.num.toNat)).getLsbD k =
      decide (c ≠ .ok ∧ k = 16 + c.num.toNat) := by
  rcases Nat.lt_or_ge k 32 with hk | hk
  · by_cases hc : c = .ok
    · simp [hc]
    · rw [if_neg hc, BitVec.getLsbD_shiftLeft, BitVec.getLsbD_one]
      by_cases h : k = 16 + c.num.toNat
      · subst h; simp [hc, hk]
      · have : ¬ (16 + c.num.toNat ≤ k ∧ k - (16 + c.num.toNat) = 0) := by omega
        by_cases h2 : k < 16 + c.num.toNat
        · simp [h, h2]
        · have h3 : k - (16 + c.num.toNat) ≠ 0 := by omega
          simp [h, h2, h3]
  · rw [BitVec.getLsbD_of_ge _ _ hk]
    have h16 : c.num.toNat < 16 := c.num.isLt
    have : ¬ (c ≠ .ok ∧ k = 16 + c.num.toNat) := by omega
    exact (decide_eq_false this).symm

/-- The mask that `LAST` is cleared with keeps the bits from 4 up. -/
theorem lastMask_getLsbD {k : Nat} (h4 : 4 ≤ k) (h32 : k < 32) :
    (0xFFFFFFF0#32).getLsbD k = true := by
  have : ∀ j : Fin 32, 4 ≤ j.val → (0xFFFFFFF0#32).getLsbD j.val = true := by decide
  exact this ⟨k, h32⟩ h4

theorem lastMask_low {k : Nat} (h4 : k < 4) : (0xFFFFFFF0#32).getLsbD k = false := by
  have : ∀ j : Fin 4, (0xFFFFFFF0#32).getLsbD j.val = false := by decide
  exact this ⟨k, h4⟩

/-- The `STATUS` update in bits (60_exceptions.md R247). -/
theorem recordStatus_getLsbD (c : Code) (st : Word) (k : Nat) :
    (recordStatus c st).getLsbD k =
      if k < 4 then c.num.getLsbD k
      else (st.getLsbD k || decide (c ≠ .ok ∧ k = 16 + c.num.toNat)) := by
  rw [recordStatus, BitVec.getLsbD_or, flagWord_getLsbD, BitVec.getLsbD_or, BitVec.getLsbD_and,
    BitVec.getLsbD_setWidth]
  rcases Nat.lt_or_ge k 32 with hk | hk
  · by_cases h4 : k < 4
    · have : ¬ (c ≠ .ok ∧ k = 16 + c.num.toNat) := by omega
      rw [lastMask_low h4, decide_eq_false this, if_pos h4]
      simp [hk]
    · have hge : 4 ≤ k := by omega
      rw [lastMask_getLsbD hge hk, BitVec.getLsbD_of_ge c.num k hge]
      simp [h4]
  · have h4 : ¬ k < 4 := by omega
    have : ¬ k < 32 := by omega
    simp [h4, this, BitVec.getLsbD_of_ge _ _ hk]

/-- `recordStatus` is the update that the statements name. -/
theorem recordStatus_recorded (c : Code) (st : Word) : StatusRecorded c st (recordStatus c st) := by
  constructor
  · apply BitVec.eq_of_getLsbD_eq
    intro j hj
    rw [statusLast, BitVec.getLsbD_extractLsb', Nat.zero_add, recordStatus_getLsbD, if_pos hj]
    simp [hj]
  · intro k hk
    rw [recordStatus_getLsbD, if_neg (by omega)]
    simp

/-- The update is the only word that `StatusRecorded` allows. -/
theorem statusRecorded_unique {c : Code} {st st' : Word} (h : StatusRecorded c st st') :
    st' = recordStatus c st := by
  apply BitVec.eq_of_getLsbD_eq
  intro k _
  obtain ⟨h1, h2⟩ := h
  rw [recordStatus_getLsbD]
  split
  · rename_i h4
    rw [← h1, statusLast, BitVec.getLsbD_extractLsb', Nat.zero_add]
    simp [h4]
  · rename_i h4
    have := h2 k (by omega)
    rw [Bool.eq_iff_iff]
    simpa using this

/-- `STATUS` keeps its reserved bits and its range of codes. -/
theorem recordStatus_ok {st : Word} (h : StatusOk st) (c : Code) : StatusOk (recordStatus c st) := by
  constructor
  · apply BitVec.eq_of_getLsbD_eq
    intro k hk
    have hm := congrArg (fun x : Word => x.getLsbD k) h.1
    simp only [BitVec.getLsbD_and, BitVec.getLsbD_zero] at hm ⊢
    rw [recordStatus_getLsbD]
    have hmask : ∀ j : Fin 32, (0xF001FFF0#32).getLsbD j.val = true →
        ¬ j.val < 4 ∧ ∀ c : Code, ¬ (c ≠ .ok ∧ j.val = 16 + c.num.toNat) := by
      intro j hj
      refine ⟨fun h4 => ?_, fun c => ?_⟩
      · revert hj h4; revert j; decide
      · revert hj; revert j; cases c <;> decide
    cases hb : (0xF001FFF0#32).getLsbD k
    · simp
    · obtain ⟨h4, hc⟩ := hmask ⟨k, hk⟩ hb
      rw [hb, Bool.and_true] at hm
      have h4' : ¬ k < 4 := h4
      have hc' : ¬ (c ≠ .ok ∧ k = 16 + c.num.toNat) := hc c
      rw [if_neg h4', hm]
      simpa using hc'
  · rw [(recordStatus_recorded c st).1]
    cases c <;> decide

theorem statusOk_zero : StatusOk 0 := by decide

/-- `SETCTL` keeps the reserved bits of `CTRL`. -/
theorem writeCtl_ok {ctrl : Word} (h : CtrlOk ctrl) (ctl : BitVec 2) : CtrlOk (writeCtl ctl ctrl) := by
  have : ∀ x : BitVec 2, ((0#32 ||| x.setWidth 32) &&& 0xFFFFFFFC#32) = 0#32 := by decide
  simp only [CtrlOk, writeCtl] at h ⊢
  rw [h]
  exact this ctl

/-! ### Responses -/

theorem quad_toNat (s : State) {n : Nat} (h : n < 2 ^ 128) : (s.quad n).toNat = n := by
  rw [State.quad, if_pos h, BitVec.toNat_ofNat, Nat.mod_eq_of_lt h]

@[simp] theorem quad_of_toNat (s : State) (q : Quad) : s.quad q.toNat = q := by
  rw [State.quad, if_pos q.isLt]; simp

theorem answer_reports (c : Code) (n : Nat) (l : List Quad) (u : State) :
    Reports (answer c n l u) c n l :=
  ⟨u.quad n, rfl, quad_toNat u⟩

theorem respond_reports (c : Code) (n : Nat) (l : List Quad) (u : State) :
    Reports (respond c n l u) c n l :=
  ⟨u.quad n, rfl, quad_toNat u⟩

/-- A response from a state whose `STATUS` is still that of `s` completes a command begun in `s`. -/
theorem respond_completes (c : Code) (n : Nat) (l : List Quad) {s u : State}
    (h : u.status = s.status) : Completes s (respond c n l u) c n l :=
  ⟨respond_reports c n l u, by rw [respond_status, h]; exact recordStatus_recorded c s.status⟩

/-- An error raised in such a state. -/
theorem raise_fails (c : Code) (n : Nat) {s u : State} (h : u.status = s.status) :
    FailsFrom s u (raise c n u) c n :=
  ⟨respond_completes c n [] h, rfl⟩

/-! ### Byte streams -/

/-- `SrcReadAll()` has two outcomes (10_state.md R30). -/
theorem srcReadAll_cases (s : State) :
    (s.io.read = none ∧ srcReadAll s = (.ok s.src, { s with src := [] })) ∨
    (∃ f, s.io.read = some f ∧ srcReadAll s = (.error f.info, { s with src := s.src.drop f.moved })) := by
  rcases h : s.io.read with _ | f
  · exact Or.inl ⟨rfl, by simp [srcReadAll, h]⟩
  · exact Or.inr ⟨f, rfl, by simp [srcReadAll, h]⟩

theorem srcReadAll_ok {s : State} (h : s.io.read = none) :
    srcReadAll s = (.ok s.src, { s with src := [] }) := by simp [srcReadAll, h]

theorem srcReadAll_error {s : State} {f : IoFail} (h : s.io.read = some f) :
    srcReadAll s = (.error f.info, { s with src := s.src.drop f.moved }) := by simp [srcReadAll, h]

/-- `SnkWrite(bytes)` has two outcomes (R31). -/
theorem snkWrite_ok {s : State} (h : s.io.write = none) (bytes : List Byte) :
    snkWrite bytes s = (none, { s with snk := s.snk ++ bytes.map .byte }) := by simp [snkWrite, h]

theorem snkWrite_error {s : State} {f : IoFail} (h : s.io.write = some f) (bytes : List Byte) :
    snkWrite bytes s =
      (some f.info, { s with snk := s.snk ++ (bytes.take f.moved).map .byte }) := by simp [snkWrite, h]

/-- `SnkFlush()` has two outcomes (R31). -/
theorem snkFlush_ok {s : State} (h : s.io.flush = none) :
    snkFlush s = (none, { s with snk := s.snk ++ [.flush] }) := by simp [snkFlush, h]

theorem snkFlush_error {s : State} {info : Quad} (h : s.io.flush = some info) :
    snkFlush s = (some info, s) := by simp [snkFlush, h]

/-! ### The end of the encoders -/

/-- The codeword is appended whole where it fits. -/
theorem emitCodeword_fits {s : State} {n : Nat} (h : FitsBits s.capb (s.wbuf.len + n)) (cw : List Bool) :
    emitCodeword n cw s = respond .ok n [] { s with wbuf := s.wbuf.appendBits cw } := by
  rw [emitCodeword, if_pos ((holdsBits_iff _ _).2 h)]

/-- Nothing is appended where it does not. -/
theorem emitCodeword_full {s : State} {n : Nat} (h : ¬ FitsBits s.capb (s.wbuf.len + n))
    (cw : List Bool) : emitCodeword n cw s = raise .capacityError (s.wbuf.len + n) s := by
  rw [emitCodeword, if_neg (fun hc => h ((holdsBits_iff _ _).1 hc))]

end Sys2Proof.Machine
end

