-- ==== Sys2Proof/Laws/Stream.lean ====
section
/-! SUPPORT. The sentinel framing (41_bitwriter.md R142, 42_bitreader.md R151, R152): the bytes the writer
emits, and what the reader recovers from a stream that ends in a sentinel and padding. -/

namespace Sys2Proof.Machine

/-! ### The least significant set bit of a byte -/

/-- `top8` is the least set bit, and undefined exactly at 0 (00_scope.md R14). -/
theorem top8_spec : ∀ y : Byte, (∀ p, top8 y = some p ↔
    p < 8 ∧ y.getLsbD p = true ∧ ∀ j, j < p → y.getLsbD j = false) ∧ (top8 y = none ↔ y = 0) := by
  intro y
  have hsome : ∀ p, top8 y = some p ↔
      p < 8 ∧ y.getLsbD p = true ∧ ∀ j, j < p → y.getLsbD j = false := by
    intro p
    rw [top8, List.find?_range_eq_some]
    simp only [List.mem_range, Bool.not_eq_eq_eq_not, Bool.not_true]
    tauto
  refine ⟨hsome, ?_⟩
  rw [top8, List.find?_eq_none]
  constructor
  · intro h
    apply BitVec.eq_of_getLsbD_eq
    intro j hj
    simpa using h j (List.mem_range.2 hj)
  · rintro rfl
    simp

/-! ### What the writer emits -/

/-- The bits that leave: the payload, and the sentinel when the writer's flag is set. -/
def sentBits (wsent : Bool) (payload : List Bool) : List Bool :=
  if wsent then payload ++ [true] else payload

/-- The stream holds those bits and fewer than 8 zero bits of padding (R142). -/
theorem streamBytes_padded (wsent : Bool) (payload : List Bool) :
    PaddedBytes (sentBits wsent payload) (streamBytes wsent payload) :=
  ⟨_, Nat.mod_lt _ (by decide), by rw [streamBytes, unpack_pack]; rfl⟩

/-- The number of bytes of the stream (R142). -/
theorem streamBytes_length (wsent : Bool) (payload : List Bool) :
    (streamBytes wsent payload).length =
      if wsent then payload.length / 8 + 1 else (payload.length + 7) / 8 := by
  cases wsent <;> simp [streamBytes]
  omega

/-! ### What the reader recovers -/

/-- The last byte of a stream, bit by bit. -/
theorem last_byte_getLsbD {bytes : List Byte} (hne : bytes ≠ []) (j : Nat) (hj : j < 8) :
    (bytes.getLastD 0).getLsbD j = (unpack bytes).getD (8 * bytes.length - 1 - j) false := by
  have hpos : 0 < bytes.length := List.length_pos_iff.2 hne
  have ha : 8 * bytes.length - 1 - j < (unpack bytes).length := by simp; omega
  rw [List.getD_eq_getElem?_getD, List.getElem?_eq_getElem ha, Option.getD_some, unpack_getElem,
    show (8 * bytes.length - 1 - j) / 8 = bytes.length - 1 by omega,
    show 7 - (8 * bytes.length - 1 - j) % 8 = j by omega]
  rw [List.getLastD_eq_getLast?, List.getLast?_eq_getElem?, List.getD_eq_getElem?_getD]

/-- A stream of a payload, a sentinel and fewer than 8 bits of padding: the reader's last byte has its
least set bit at the sentinel. -/
theorem top8_of_stream {bytes : List Byte} {payload : List Bool} {k : Nat} (hk : k < 8)
    (h : unpack bytes = payload ++ [true] ++ List.replicate k false) :
    bytes ≠ [] ∧ top8 (bytes.getLastD 0) = some k := by
  have hlen := congrArg List.length h
  simp only [unpack_length, List.length_append, List.length_singleton, List.length_replicate] at hlen
  have hne : bytes ≠ [] := by
    rintro rfl
    simp only [List.length_nil] at hlen
    omega
  refine ⟨hne, ((top8_spec _).1 k).2 ⟨hk, ?_, fun j hj => ?_⟩⟩
  · rw [last_byte_getLsbD hne k hk, h, show 8 * bytes.length - 1 - k = payload.length by omega]
    simp
  · rw [last_byte_getLsbD hne j (by omega), h, List.getD_eq_getElem?_getD,
      List.getElem?_append_right (by simp; omega)]
    simp

/-- Bits of a byte list after one byte of it is replaced. -/
theorem unpack_take_set {bytes : List Byte} {n : Nat} (y : Byte) (hn : n < bytes.length) (L : Nat)
    (h : ∀ j, 8 * n + j < L → j < 8 → y.getLsbD (7 - j) = (bytes.getD n 0).getLsbD (7 - j)) :
    (unpack (bytes.set n y)).take L = (unpack bytes).take L := by
  apply List.ext_getElem
  · simp
  · intro a h1 h2
    simp only [List.length_take, unpack_length, List.length_set] at h1
    rw [List.getElem_take, List.getElem_take, unpack_getElem, unpack_getElem]
    by_cases ha : a / 8 = n
    · subst ha
      have := h (a % 8) (by omega) (by omega)
      rw [← this]
      congr 1
      simp [List.getD_eq_getElem?_getD, hn]
    · congr 1
      rw [List.getD_eq_getElem?_getD, List.getElem?_set_ne (fun hc => ha hc.symm),
        List.getD_eq_getElem?_getD]

/-- The reader's steps 3 and 4: from a stream that ends in a sentinel and padding it keeps the payload,
and its length is exact (R151, R152). -/
theorem stripSentinel_of_stream {bytes : List Byte} {payload : List Bool} {k : Nat} (hk : k < 8)
    (h : unpack bytes = payload ++ [true] ++ List.replicate k false) :
    ∃ bytes', stripSentinel bytes = some (bytes', payload.length) ∧
      payload.length ≤ 8 * bytes'.length ∧ (unpack bytes').take payload.length = payload := by
  obtain ⟨hne, htop⟩ := top8_of_stream hk h
  have hlen := congrArg List.length h
  simp only [unpack_length, List.length_append, List.length_singleton, List.length_replicate] at hlen
  have hpos : 0 < bytes.length := List.length_pos_iff.2 hne
  have htake : (unpack bytes).take payload.length = payload := by
    rw [h, List.append_assoc, List.take_left' rfl]
  rw [stripSentinel]
  simp only [htop]
  by_cases h7 : k = 7
  · refine ⟨bytes.take (bytes.length - 1), ?_, ?_, ?_⟩
    · rw [if_pos h7, show 8 * (bytes.length - 1) = payload.length by omega]
    · rw [List.length_take]; omega
    · have e : bytes.take (bytes.length - 1) ++ bytes.drop (bytes.length - 1) = bytes :=
        List.take_append_drop _ _
      have e2 := congrArg unpack e
      rw [unpack_append] at e2
      rw [← e2, List.take_append_of_le_length (by simp; omega)] at htake
      exact htake
  · refine ⟨bytes.set (bytes.length - 1) (setBit (bytes.getLastD 0) k false), ?_, ?_, ?_⟩
    · rw [if_neg h7, show 8 * (bytes.length - 1) + (7 - k) = payload.length by omega]
    · rw [List.length_set]; omega
    · rw [unpack_take_set _ (by omega)]
      · exact htake
      · intro j hj hj8
        rw [setBit_getLsbD _ _ _ _ hk, if_neg (by omega)]
        congr 1
        rw [List.getLastD_eq_getLast?, List.getLast?_eq_getElem?, List.getD_eq_getElem?_getD]

/-- The reader refuses a stream whose last byte has no set bit. -/
theorem stripSentinel_none {bytes : List Byte} : stripSentinel bytes = none ↔ bytes.getLastD 0 = 0 := by
  rw [stripSentinel, ← (top8_spec (bytes.getLastD 0)).2]
  rcases h : top8 (bytes.getLastD 0) with _ | p
  · simp
  · simp only [reduceCtorEq, iff_false]
    split <;> simp

/-- A stream with a set bit in its last byte is a payload, a sentinel and padding. -/
theorem stream_of_last_ne_zero {bytes : List Byte} (hne : bytes ≠ []) (h : bytes.getLastD 0 ≠ 0) :
    ∃ payload k, k < 8 ∧ unpack bytes = payload ++ [true] ++ List.replicate k false := by
  rcases ht : top8 (bytes.getLastD 0) with _ | p
  · exact absurd ((top8_spec _).2.1 ht) h
  · obtain ⟨h1, h2, h3⟩ := ((top8_spec _).1 p).1 ht
    have hpos : 0 < bytes.length := List.length_pos_iff.2 hne
    refine ⟨(unpack bytes).take (8 * bytes.length - 1 - p), p, h1, ?_⟩
    have hl : (unpack bytes).length = 8 * bytes.length := unpack_length bytes
    apply List.ext_getElem
    · simp only [List.length_append, List.length_take, List.length_singleton, List.length_replicate, hl]
      omega
    · intro a ha1 ha2
      rw [hl] at ha1
      have key : ∀ j, j < 8 → a = 8 * bytes.length - 1 - j →
          (unpack bytes)[a]'(by rw [hl]; exact ha1) = (bytes.getLastD 0).getLsbD j := by
        intro j hj hja
        rw [last_byte_getLsbD hne j hj, ← hja, List.getD_eq_getElem?_getD,
          List.getElem?_eq_getElem (by rw [hl]; exact ha1), Option.getD_some]
      have htl : ((unpack bytes).take (8 * bytes.length - 1 - p)).length = 8 * bytes.length - 1 - p := by
        rw [List.length_take, hl]; omega
      rcases Nat.lt_trichotomy a (8 * bytes.length - 1 - p) with hlt | heq | hgt
      · rw [List.getElem_append_left (by rw [List.length_append, htl, List.length_singleton]; omega),
          List.getElem_append_left (by omega), List.getElem_take]
      · rw [List.getElem_append_left (by rw [List.length_append, htl, List.length_singleton]; omega),
          List.getElem_append_right (by omega)]
        rw [key p h1 heq, h2]
        simp
      · rw [List.getElem_append_right (by rw [List.length_append, htl, List.length_singleton]; omega),
          List.getElem_replicate, key (8 * bytes.length - 1 - a) (by omega) (by omega), h3 _ (by omega)]

end Sys2Proof.Machine
end

