-- ==== Sys2Proof/Laws/Exec.lean ====
section
/-! SUPPORT. For each command one lemma that says once every way it can end, so that a claim over all
commands cites these and unfolds no meaning. A command with no branch needs none: its meaning is one
`respond`. -/

namespace Sys2Proof

theorem Width.one_le_bits (w : Width) : 1 ≤ w.bits := by cases w <;> decide

end Sys2Proof

namespace Sys2Proof.Machine

/-! ### Bit buffer -/

/-- The invariant holds of the buffer a command selects. -/
theorem Inv.buf {s : State} (h : Inv s) (b : Buf) : Buffer.Ok s.capb (s.buf b) := by
  cases b
  · exact h.2.1
  · exact h.2.2.1

theorem exec_push_cases (b : Buf) (x : Bool) (s : State) :
    (FitsBits s.capb ((s.buf b).len + 1) ∧ exec (.push b x) s =
      .next (respond .ok ((s.buf b).len + 1) [] (s.setBuf b ((s.buf b).appendBits [x])))) ∨
    (¬ FitsBits s.capb ((s.buf b).len + 1) ∧ exec (.push b x) s =
      .next (raise .capacityError ((s.buf b).len + 1) s)) := by
  rw [← holdsBits_iff]
  by_cases h : holdsBits s.capb ((s.buf b).len + 1) = true
  · exact .inl ⟨h, by simp only [exec, execPush]; rw [if_pos h, Buffer.appendBits_len]; rfl⟩
  · exact .inr ⟨h, by simp only [exec, execPush]; rw [if_neg h]⟩

theorem exec_pushb_cases (b : Buf) (y : Byte) (s : State) :
    (FitsBytes s.capb ((s.buf b).nbytes + 1) ∧ exec (.pushb b y) s =
      .next (respond .ok (8 * ((s.buf b).nbytes + 1)) [] (s.setBuf b ((s.buf b).appendByte y)))) ∨
    (¬ FitsBytes s.capb ((s.buf b).nbytes + 1) ∧ exec (.pushb b y) s =
      .next (raise .capacityError (8 * ((s.buf b).nbytes + 1)) s)) := by
  rw [← holdsBytes_iff]
  by_cases h : holdsBytes s.capb ((s.buf b).nbytes + 1) = true
  · exact .inl ⟨h, by simp only [exec, execPushb]; rw [if_pos h, Buffer.appendByte_len]⟩
  · exact .inr ⟨h, by simp only [exec, execPushb]; rw [if_neg h]⟩

theorem exec_ext_cases (b : Buf) (n : Nat) (opv : Quad) (s : State) :
    (FitsBits s.capb ((s.buf b).len + n) ∧ exec (.ext b n opv) s =
      .next (respond .ok ((s.buf b).len + n) []
        (s.setBuf b ((s.buf b).appendBits (bitsOperand n opv))))) ∨
    (¬ FitsBits s.capb ((s.buf b).len + n) ∧ exec (.ext b n opv) s =
      .next (raise .capacityError ((s.buf b).len + n) s)) := by
  rw [← holdsBits_iff]
  by_cases h : holdsBits s.capb ((s.buf b).len + n) = true
  · refine .inl ⟨h, ?_⟩
    simp only [exec, execExt]
    rw [if_pos h, Buffer.appendBits_len, bitsOperand, lowBits_length]
  · exact .inr ⟨h, by simp only [exec, execExt]; rw [if_neg h]⟩

/-- The state after `SrcReadAll()` has taken every byte. -/
abbrev State.drained (s : State) : State := { s with src := [] }

theorem exec_bload_cases (b : Buf) (opv : Quad) (s : State) :
    (∃ f, s.io.read = some f ∧ exec (.bload b opv) s =
      .next (raise .ioError f.info.toNat { s with src := s.src.drop f.moved })) ∨
    (s.io.read = none ∧ ¬ FitsBytes s.capb s.src.length ∧ exec (.bload b opv) s =
      .next (raise .capacityError (8 * s.src.length) s.drained)) ∨
    (s.io.read = none ∧ FitsBytes s.capb s.src.length ∧
      ¬ (8 * s.src.length ≤ opv.toNat + 8 ∧ opv.toNat ≤ 8 * s.src.length) ∧ exec (.bload b opv) s =
      .next (raise .lengthError opv.toNat s.drained)) ∨
    (s.io.read = none ∧ FitsBytes s.capb s.src.length ∧ 8 * s.src.length ≤ opv.toNat + 8 ∧
      opv.toNat ≤ 8 * s.src.length ∧ exec (.bload b opv) s =
      .next (respond .ok opv.toNat []
        ((s.drained.setBuf b ((s.buf b).set s.src opv.toNat)).rewind b))) := by
  rw [← holdsBytes_iff]
  simp only [exec, execBload]
  rcases srcReadAll_cases s with ⟨hr, h⟩ | ⟨f, hr, h⟩
  · refine .inr ?_
    rw [h]
    simp only
    by_cases hf : holdsBytes s.capb s.src.length = true
    · by_cases hl : 8 * s.src.length ≤ opv.toNat + 8 ∧ opv.toNat ≤ 8 * s.src.length
      · refine .inr (.inr ⟨hr, hf, hl.1, hl.2, ?_⟩)
        rw [if_neg (not_not.2 hf), if_neg (not_not.2 hl)]
        cases b <;> rfl
      · refine .inr (.inl ⟨hr, hf, hl, ?_⟩)
        rw [if_neg (not_not.2 hf), if_pos hl]
    · refine .inl ⟨hr, hf, ?_⟩
      rw [if_pos hf]
  · exact .inl ⟨f, hr, by rw [h]⟩

theorem exec_reserve_cases (b : Buf) (opv : Quad) (s : State) :
    (FitsBits s.capb ((s.buf b).len + opv.toNat) ∧ exec (.reserve b opv) s =
      .next (respond .ok (capacityBits s.capb) [] s)) ∨
    (¬ FitsBits s.capb ((s.buf b).len + opv.toNat) ∧ exec (.reserve b opv) s =
      .next (raise .capacityError ((s.buf b).len + opv.toNat) s)) := by
  rw [← holdsBits_iff]
  by_cases h : holdsBits s.capb ((s.buf b).len + opv.toNat) = true
  · exact .inl ⟨h, by simp only [exec, execReserve]; rw [if_pos h]⟩
  · exact .inr ⟨h, by simp only [exec, execReserve]; rw [if_neg h]⟩

/-! ### Writer and reader -/

/-- The bytes `WFIN` emits in `s`. -/
abbrev State.stream (s : State) : List Byte := streamBytes (ctrlWsent s.ctrl) s.wbuf.bits

theorem exec_wfin_cases (s : State) :
    (s.wbuf.len = 0 ∧ exec .wfin s = .next (respond .ok 0 [] s)) ∨
    (s.wbuf.len ≠ 0 ∧ ∃ f, s.io.write = some f ∧ exec .wfin s =
      .next (raise .ioError f.info.toNat
        { s with snk := s.snk ++ (s.stream.take f.moved).map .byte })) ∨
    (s.wbuf.len ≠ 0 ∧ s.io.write = none ∧ ∃ info, s.io.flush = some info ∧ exec .wfin s =
      .next (raise .ioError info.toNat { s with snk := s.snk ++ s.stream.map .byte })) ∨
    (s.wbuf.len ≠ 0 ∧ s.io.write = none ∧ s.io.flush = none ∧ exec .wfin s =
      .next (respond .ok s.stream.length []
        { s with wbuf := s.wbuf.cleared, snk := s.snk ++ s.stream.map .byte ++ [.flush] })) := by
  by_cases h0 : s.wbuf.len = 0
  · exact .inl ⟨h0, by simp only [exec, execWfin]; rw [if_pos h0]⟩
  · refine .inr ?_
    simp only [exec, execWfin]
    rw [if_neg h0]
    rcases hw : s.io.write with _ | f
    · refine .inr ?_
      rcases hf : s.io.flush with _ | info
      · exact .inr ⟨h0, rfl, rfl, by simp only [snkWrite, hw, snkFlush, hf]⟩
      · exact .inl ⟨h0, rfl, info, rfl, by simp only [snkWrite, hw, snkFlush, hf]⟩
    · exact .inl ⟨h0, f, rfl, by simp only [snkWrite, hw]⟩

/-- A reader that has read a stream. -/
abbrev State.read (s : State) (bytes : List Byte) (L : Nat) : State :=
  { s with src := [], rbuf := s.rbuf.set bytes L, cur := 0 }

theorem exec_rread_cases (s : State) :
    (∃ f, s.io.read = some f ∧ exec .rread s =
      .next (raise .ioError f.info.toNat { s with src := s.src.drop f.moved })) ∨
    (s.io.read = none ∧ ¬ FitsBytes s.capb s.src.length ∧ exec .rread s =
      .next (raise .capacityError (8 * s.src.length) s.drained)) ∨
    (s.io.read = none ∧ FitsBytes s.capb s.src.length ∧ s.src = [] ∧ exec .rread s =
      .next (respond .ok 0 [] { s with src := [], rbuf := s.rbuf.cleared, cur := 0 })) ∨
    (s.io.read = none ∧ FitsBytes s.capb s.src.length ∧ s.src ≠ [] ∧ ctrlRsent s.ctrl = false ∧
      exec .rread s =
      .next (respond .ok (8 * s.src.length) [] (s.read s.src (8 * s.src.length)))) ∨
    (s.io.read = none ∧ FitsBytes s.capb s.src.length ∧ s.src ≠ [] ∧ ctrlRsent s.ctrl = true ∧
      s.src.getLastD 0 = 0 ∧ exec .rread s =
      .next (raise .noTerminatingBitError s.src.length s.drained)) ∨
    (s.io.read = none ∧ FitsBytes s.capb s.src.length ∧ s.src ≠ [] ∧ ctrlRsent s.ctrl = true ∧
      ∃ payload k bytes, k < 8 ∧ unpack s.src = payload ++ [true] ++ List.replicate k false ∧
        payload.length ≤ 8 * bytes.length ∧ (unpack bytes).take payload.length = payload ∧
        exec .rread s = .next (respond .ok payload.length [] (s.read bytes payload.length))) := by
  rw [← holdsBytes_iff]
  simp only [exec, execRread]
  rcases srcReadAll_cases s with ⟨hr, h⟩ | ⟨f, hr, h⟩
  · refine .inr ?_
    rw [h]
    simp only
    by_cases hf : holdsBytes s.capb s.src.length = true
    · refine .inr ?_
      rw [if_neg (not_not.2 hf)]
      by_cases h0 : s.src = []
      · exact .inl ⟨hr, hf, h0, by rw [if_pos (by rw [h0]; rfl)]⟩
      · refine .inr ?_
        rw [if_neg (fun h => h0 (List.length_eq_zero_iff.1 h))]
        rcases hs : ctrlRsent s.ctrl with _ | _
        · exact .inl ⟨hr, hf, h0, rfl, rfl⟩
        · refine .inr ?_
          rw [if_neg (by decide)]
          by_cases hl : s.src.getLastD 0 = 0
          · exact .inl ⟨hr, hf, h0, rfl, hl, by rw [stripSentinel_none.2 hl]⟩
          · obtain ⟨payload, k, hk, hu⟩ := stream_of_last_ne_zero h0 hl
            obtain ⟨bytes, h1, h2, h3⟩ := stripSentinel_of_stream hk hu
            exact .inr ⟨hr, hf, h0, rfl, payload, k, bytes, hk, hu, h2, h3, by rw [h1]; rfl⟩
    · exact .inl ⟨hr, hf, by rw [if_pos hf]⟩
  · exact .inl ⟨f, hr, by rw [h]⟩

/-! ### The ends of the bit-sequence commands -/

theorem emitCodeword_cases (n : Nat) (cw : List Bool) (s : State) :
    (FitsBits s.capb (s.wbuf.len + n) ∧
      emitCodeword n cw s = respond .ok n [] { s with wbuf := s.wbuf.appendBits cw }) ∨
    (¬ FitsBits s.capb (s.wbuf.len + n) ∧
      emitCodeword n cw s = raise .capacityError (s.wbuf.len + n) s) := by
  by_cases h : FitsBits s.capb (s.wbuf.len + n)
  · exact .inl ⟨h, emitCodeword_fits h cw⟩
  · exact .inr ⟨h, emitCodeword_full h cw⟩

theorem finishExact_cases (r : Except Code Nat) (s : State) :
    (∃ n, r = .ok n ∧ finishExact r s = respond .ok n [] s) ∨
    (∃ c, r = .error c ∧ finishExact r s = raise c s.cur s) := by
  rcases r with c | n
  · exact .inr ⟨c, rfl, rfl⟩
  · exact .inl ⟨n, rfl, rfl⟩

theorem finishNext_cases (r : Peeled) (s : State) :
    (∃ n used, r = .ok (n, used) ∧
      finishNext r s = respond .ok n [] { s with cur := s.cur + used }) ∨
    (∃ c, r = .error c ∧ finishNext r s = raise c s.cur s) := by
  rcases r with c | ⟨n, used⟩
  · exact .inr ⟨c, rfl, rfl⟩
  · exact .inl ⟨n, used, rfl, rfl⟩

theorem finishStream_cases (peel : List Bool → Peeled) (s : State) :
    (∃ out, decodeStream peel s.rem.length s.cur s.rem = .ok out ∧
      finishStream peel s = respond .ok out.length (valueItems out) { s with cur := s.rbuf.len }) ∨
    (∃ c a, decodeStream peel s.rem.length s.cur s.rem = .error (c, a) ∧
      finishStream peel s = raise c a s) := by
  rw [finishStream]
  rcases decodeStream peel s.rem.length s.cur s.rem with ⟨c, a⟩ | out
  · exact .inr ⟨c, a, rfl, rfl⟩
  · exact .inl ⟨out, rfl, rfl⟩

/-- A front-of-stream decoder succeeds only on a codeword of an acceptable value. -/
theorem Peels.of_ok {peel : List Bool → Peeled} {word : Nat → List Bool} {low limit : Nat} {err : Code}
    (h : Peels peel word low limit err) {s : List Bool} {v used : Nat} (hs : peel s = .ok (v, used)) :
    low ≤ v ∧ v ≤ limit ∧ used = (word v).length ∧ ∃ rest, s = word v ++ rest := by
  by_cases hw : ∀ u rest, low ≤ u → s ≠ word u ++ rest
  · rw [h.rejects s hw] at hs; cases hs
  · push Not at hw
    obtain ⟨u, rest, hu, hs'⟩ := hw
    rcases Nat.lt_or_ge limit u with hl | hl
    · rw [hs', h.overflows u rest hu hl] at hs; cases hs
    · rw [hs', h.accepts u rest hu hl] at hs
      injection hs with hs
      injection hs with h1 h2
      subst h1
      exact ⟨hu, hl, h2.symm, rest, hs'⟩

/-- It fails with the code error or `OverflowError` and never with `OK`. -/
theorem Peels.of_error {peel : List Bool → Peeled} {word : Nat → List Bool} {low limit : Nat}
    {err : Code} (h : Peels peel word low limit err) {s : List Bool} {c : Code}
    (hs : peel s = .error c) : c = err ∨ c = .overflowError := by
  by_cases hw : ∀ u rest, low ≤ u → s ≠ word u ++ rest
  · rw [h.rejects s hw] at hs; injection hs with hs; exact .inl hs.symm
  · push Not at hw
    obtain ⟨u, rest, hu, hs'⟩ := hw
    rcases Nat.lt_or_ge limit u with hl | hl
    · rw [hs', h.overflows u rest hu hl] at hs; injection hs with hs; exact .inr hs.symm
    · rw [hs', h.accepts u rest hu hl] at hs; cases hs

/-- An exact decoder fails with the code error or `OverflowError`. -/
theorem Exacts.of_error {exact : List Bool → Except Code Nat} {word : Nat → List Bool}
    {low limit : Nat} {err : Code} (h : Exacts exact word low limit err) {s : List Bool} {c : Code}
    (hs : exact s = .error c) : c = err ∨ c = .overflowError := by
  by_cases hw : ∀ u, low ≤ u → s ≠ word u
  · rw [h.rejects s hw] at hs; injection hs with hs; exact .inl hs.symm
  · push Not at hw
    obtain ⟨u, hu, rfl⟩ := hw
    rcases Nat.lt_or_ge limit u with hl | hl
    · rw [h.overflows u hu hl] at hs; injection hs with hs; exact .inr hs.symm
    · rw [h.accepts u hu hl] at hs; cases hs

/-- The stream loop fails with an error of the front-of-stream decoder. -/
theorem decodeStream_error {peel : List Bool → Peeled} {P : Code → Prop}
    (h : ∀ s c, peel s = .error c → P c) (fuel : Nat) :
    ∀ (a : Nat) (s : List Bool) (c : Code) (b : Nat),
      decodeStream peel fuel a s = .error (c, b) → P c := by
  induction fuel with
  | zero => intro a s c b hd; cases hd
  | succ fuel ih =>
    intro a s c b hd
    rw [decodeStream] at hd
    split at hd
    · cases hd
    · split at hd
      · injection hd with hd; injection hd with hd; subst hd; exact h _ _ ‹_›
      · split at hd
        · injection hd with hd; subst hd; exact ih _ _ _ _ ‹_›
        · cases hd

/-- The number of bits `Rem` has. -/
theorem State.rem_length (s : State) : s.rem.length = s.rbuf.len - s.cur := by
  simp [State.rem, Buffer.slice, subseq]

theorem exec_genc_cases (w : Width) (opv : Quad) (s : State) :
    (valueOperand w opv = 0 ∧ exec (.genc w opv) s = .next (raise .zeroInputError 0 s)) ∨
    (1 ≤ valueOperand w opv ∧ exec (.genc w opv) s =
      .next (emitCodeword (gammaWord (valueOperand w opv)).length (gammaWord (valueOperand w opv)) s)) := by
  rcases Nat.eq_zero_or_pos (valueOperand w opv) with h | h
  · exact .inl ⟨h, by simp only [exec, execGenc, loi, h, if_true]⟩
  · refine .inr ⟨h, ?_⟩
    simp only [exec, execGenc, loi, if_neg (Nat.ne_of_gt h)]
    rw [gammaWord_length]

theorem exec_denc_cases (w : Width) (opv : Quad) (s : State) :
    (valueOperand w opv = 0 ∧ exec (.denc w opv) s = .next (raise .zeroInputError 0 s)) ∨
    (1 ≤ valueOperand w opv ∧ exec (.denc w opv) s =
      .next (emitCodeword (deltaWord (valueOperand w opv)).length (deltaWord (valueOperand w opv)) s)) := by
  rcases Nat.eq_zero_or_pos (valueOperand w opv) with h | h
  · exact .inl ⟨h, by simp only [exec, execDenc, loi, h, if_true]⟩
  · refine .inr ⟨h, ?_⟩
    simp only [exec, execDenc, loi, if_neg (Nat.ne_of_gt h)]
    rw [deltaWord_length h]

/-! ### Variable-Byte -/

theorem exec_vbenc_cases (w : Width) (opv : Quad) (s : State) :
    (∃ f, s.io.write = some f ∧ exec (.vbenc w opv) s =
      .next (raise .ioError f.info.toNat
        { s with snk := s.snk ++ ((vbGroup (valueOperand w opv)).take f.moved).map .byte })) ∨
    (s.io.write = none ∧ exec (.vbenc w opv) s =
      .next (respond .ok (vbGroup (valueOperand w opv)).length []
        { s with snk := s.snk ++ (vbGroup (valueOperand w opv)).map .byte })) := by
  simp only [exec, execVbenc]
  rcases hw : s.io.write with _ | f
  · exact .inr ⟨rfl, by rw [snkWrite_ok hw]⟩
  · exact .inl ⟨f, rfl, by rw [snkWrite_error hw]⟩

theorem exec_vbdec1_cases (w : Width) (s : State) :
    (∃ f, s.io.read = some f ∧ exec (.vbdec1 w) s =
      .next (raise .ioError f.info.toNat { s with src := s.src.drop f.moved })) ∨
    (s.io.read = none ∧ ∃ c, exactVb w.bits s.src = .error c ∧ exec (.vbdec1 w) s =
      .next (raise c 0 s.drained)) ∨
    (s.io.read = none ∧ ∃ v, exactVb w.bits s.src = .ok v ∧ exec (.vbdec1 w) s =
      .next (respond .ok v [] s.drained)) := by
  simp only [exec, execVbdec1]
  rcases srcReadAll_cases s with ⟨hr, h⟩ | ⟨f, hr, h⟩ <;> rw [h]
  · refine .inr ?_
    rcases hv : exactVb w.bits s.src with c | v
    · exact .inl ⟨hr, c, rfl, by simp only [hv]⟩
    · exact .inr ⟨hr, v, rfl, by simp only [hv]⟩
  · exact .inl ⟨f, hr, rfl⟩

theorem exec_vbdecs_cases (w : Width) (s : State) :
    (∃ f, s.io.read = some f ∧ exec (.vbdecs w) s =
      .next (raise .ioError f.info.toNat { s with src := s.src.drop f.moved })) ∨
    (s.io.read = none ∧ ∃ c a, vbStream w.bits s.src 0 0 0 = .error (c, a) ∧ exec (.vbdecs w) s =
      .next (raise c a s.drained)) ∨
    (s.io.read = none ∧ ∃ out, vbStream w.bits s.src 0 0 0 = .ok out ∧ exec (.vbdecs w) s =
      .next (respond .ok out.length (valueItems out) s.drained)) := by
  simp only [exec, execVbdecs]
  rcases srcReadAll_cases s with ⟨hr, h⟩ | ⟨f, hr, h⟩ <;> rw [h]
  · refine .inr ?_
    rcases hv : vbStream w.bits s.src 0 0 0 with ⟨c, a⟩ | v
    · exact .inl ⟨hr, c, a, rfl, by simp only [hv]⟩
    · exact .inr ⟨hr, v, rfl, by simp only [hv]⟩
  · exact .inl ⟨f, hr, rfl⟩

theorem exactVb_error {W : Nat} {g : List Byte} {c : Code} (h : exactVb W g = .error c) :
    c = .vbCodeError ∨ c = .overflowError := by
  rw [exactVb] at h
  repeat' split at h
  all_goals cases h
  all_goals simp

theorem vbStream_error {W : Nat} (g : List Byte) : ∀ (acc start i : Nat) (c : Code) (a : Nat),
    vbStream W g acc start i = .error (c, a) → c = .vbCodeError ∨ c = .overflowError := by
  induction g with
  | nil =>
    intro acc start i c a h
    rw [vbStream] at h
    split at h <;> cases h
    exact .inl rfl
  | cons y ys ih =>
    intro acc start i c a h
    rw [vbStream] at h
    split at h
    · split at h
      · cases h; exact .inr rfl
      · split at h
        · injection h with h; subst h; exact ih _ _ _ _ _ ‹_›
        · cases h
    · exact ih _ _ _ _ _ h

/-! ### Numeric support -/

theorem exec_clz_cases (w : Width) (opv : Quad) (s : State) :
    (valueOperand w opv = 0 ∧ exec (.clz w opv) s = .next (raise .zeroInputError 0 s)) ∨
    (valueOperand w opv ≠ 0 ∧ exec (.clz w opv) s =
      .next (respond .ok (w.bits - bitlen (valueOperand w opv)) [] s)) := by
  by_cases h : valueOperand w opv = 0
  · exact .inl ⟨h, by simp only [exec, execClz, clz, h, if_true]⟩
  · exact .inr ⟨h, by simp only [exec, execClz, clz, if_neg h]⟩

theorem exec_top_cases (opv : Quad) (s : State) :
    (top8 (byteOperand opv) = none ∧ exec (.top opv) s = .next (raise .zeroInputError 0 s)) ∨
    (∃ p, top8 (byteOperand opv) = some p ∧ exec (.top opv) s = .next (respond .ok p [] s)) := by
  rcases h : top8 (byteOperand opv) with _ | p
  · exact .inl ⟨rfl, by simp only [exec, execTop, h]⟩
  · exact .inr ⟨p, rfl, by simp only [exec, execTop, h]⟩

end Sys2Proof.Machine
end

