-- ==== Sys2Proof/Laws/VarByte.lean ====
section
/-! SUPPORT. The Variable-Byte codec (46_varbyte.md): the group of a value, what the decoders answer on a
well-formed group, and what the stream loop makes of a list of groups. -/

namespace Sys2Proof.Machine

/-! ### Bytes of a group -/

theorem byte_getLsbD_seven (y : Byte) : y.getLsbD 7 = decide (128 ≤ y.toNat) := by
  rw [BitVec.getLsbD, Nat.testBit_eq_decide_div_mod_eq]
  have := y.isLt
  apply decide_eq_decide.2
  omega

theorem vbAccumulate_eq (acc : Nat) (y : Byte) : vbAccumulate acc y = 128 * acc + y.toNat % 128 := rfl

theorem foldl_vbAccumulate (g : List Byte) (a : Nat) :
    g.foldl vbAccumulate a = a * 128 ^ g.length + vbSum g := by
  induction g generalizing a with
  | nil => simp [vbSum]
  | cons y ys ih =>
    rw [List.foldl_cons, ih, vbAccumulate_eq, vbSum, List.length_cons]
    ring

/-- The accumulation of R207 is its sum. -/
theorem vbValue_eq_vbSum (g : List Byte) : vbValue g = vbSum g := by
  rw [vbValue, foldl_vbAccumulate]; simp

theorem vbSum_append (g h : List Byte) : vbSum (g ++ h) = vbSum g * 128 ^ h.length + vbSum h := by
  rw [← vbValue_eq_vbSum, vbValue, List.foldl_append, foldl_vbAccumulate, foldl_vbAccumulate]; simp

/-! ### The group of a value -/

/-- The digits of a value: below 128, at least one, and worth the value. -/
theorem vbDigits_spec (fuel v : Nat) (h : v < 2 ^ fuel ∨ v < 128) :
    ∃ init d, vbDigits fuel v = init ++ [d] ∧ d < 128 ∧ (∀ e ∈ init, e < 128) ∧
      (init.foldl (fun a e => 128 * a + e) 0) * 128 + d = v ∧
      (init.head? ≠ some 0) := by
  induction fuel generalizing v with
  | zero =>
    have hv : v < 128 := by simp at h; omega
    exact ⟨[], v % 128, rfl, by omega, by simp, by simp; omega, by simp⟩
  | succ fuel ih =>
    rw [vbDigits]
    split
    · rename_i hv
      exact ⟨[], v % 128, rfl, by omega, by simp, by simp; omega, by simp⟩
    · rename_i hv
      have hv' : v / 128 < 2 ^ fuel ∨ v / 128 < 128 := by
        rcases h with h | h
        · left
          rw [Nat.pow_succ] at h
          omega
        · omega
      obtain ⟨init, d, h1, h2, h3, h4, h5⟩ := ih (v / 128) hv'
      refine ⟨init ++ [d], v % 128, by rw [h1], by omega, ?_, ?_, ?_⟩
      · intro e he
        rcases List.mem_append.1 he with he | he
        · exact h3 e he
        · rw [List.mem_singleton.1 he]; exact h2
      · rw [List.foldl_append]
        simp only [List.foldl_cons, List.foldl_nil]
        omega
      · cases init with
        | nil =>
          simp only [List.foldl_nil] at h4
          simp only [List.nil_append, List.head?_cons, ne_eq, Option.some.injEq]
          omega
        | cons e es => simpa using h5

theorem vbMark_append (l : List Nat) (d : Nat) :
    vbMark (l ++ [d]) = l.map (BitVec.ofNat 8) ++ [BitVec.ofNat 8 (d + 128)] := by
  induction l with
  | nil => rfl
  | cons e l ih =>
    cases l with
    | nil => rfl
    | cons f l =>
      simp only [List.cons_append] at ih ⊢
      rw [vbMark, ih]; simp

theorem vbSum_map_ofNat (l : List Nat) (h : ∀ e ∈ l, e < 128) :
    vbSum (l.map (BitVec.ofNat 8)) = l.foldl (fun a e => 128 * a + e) 0 := by
  induction l using List.reverseRecOn with
  | nil => rfl
  | append_singleton l e ih =>
    have he : e < 128 := h e (by simp)
    rw [List.map_append, vbSum_append, ih fun x hx => h x (by simp [hx]), List.foldl_append]
    simp only [List.map_cons, List.map_nil, List.length_singleton, vbSum, List.length_nil,
      List.foldl_cons, List.foldl_nil, BitVec.toNat_ofNat]
    omega

/-- `VB(v)` is a well-formed group of value `v` whose first digit is not 0 unless it is alone (R205,
R210 clause d). -/
theorem vbGroup_spec (v : Nat) :
    ∃ init last, vbGroup v = init ++ [last] ∧ (∀ y ∈ init, y.getLsbD 7 = false) ∧
      last.getLsbD 7 = true ∧ vbSum (vbGroup v) = v ∧ init.head? ≠ some 0 := by
  obtain ⟨init, d, h1, h2, h3, h4, h5⟩ := vbDigits_spec (bitlen v) v (Or.inl (lt_two_pow_bitlen v))
  refine ⟨init.map (BitVec.ofNat 8), BitVec.ofNat 8 (d + 128), ?_, ?_, ?_, ?_, ?_⟩
  · rw [vbGroup, h1, vbMark_append]
  · intro y hy
    obtain ⟨e, he, rfl⟩ := List.mem_map.1 hy
    have := h3 e he
    rw [byte_getLsbD_seven, BitVec.toNat_ofNat]
    simp; omega
  · rw [byte_getLsbD_seven, BitVec.toNat_ofNat]
    simp; omega
  · rw [vbGroup, h1, vbMark_append, vbSum_append, vbSum_map_ofNat init h3]
    simp only [List.length_singleton, vbSum, List.length_nil, BitVec.toNat_ofNat]
    omega
  · cases init with
    | nil => simp
    | cons e es =>
      have he := h3 e (by simp)
      simp only [List.head?_cons, ne_eq, Option.some.injEq, List.map_cons] at h5 ⊢
      intro hc
      have := congrArg BitVec.toNat hc
      rw [BitVec.toNat_ofNat] at this
      simp at this
      omega

theorem vbGroup_isVbGroup (v : Nat) : IsVbGroup (vbGroup v) := by
  obtain ⟨init, last, h1, h2, h3, -, -⟩ := vbGroup_spec v
  exact ⟨init, last, h1, h2, h3⟩

@[simp] theorem vbSum_vbGroup (v : Nat) : vbSum (vbGroup v) = v := by
  obtain ⟨_, _, -, -, -, h, -⟩ := vbGroup_spec v
  exact h

/-! ### The single-group decoder -/

theorem exactVb_group {W : Nat} {g : List Byte} (h : IsVbGroup g) :
    exactVb W g = if vbSum g > 2 ^ W - 1 then .error .overflowError else .ok (vbSum g) := by
  obtain ⟨init, last, rfl, hi, hl⟩ := h
  have h1 : ¬ init.any vbLast = true := by
    simp only [Bool.not_eq_true, List.any_eq_false]
    intro y hy
    rw [vbLast, hi y hy]
  rw [exactVb, if_neg (by simp), List.dropLast_concat, if_neg h1]
  simp only [vbLast, List.getLastD_eq_getLast?, List.getLast?_append, List.getLast?_singleton,
    Option.some_or, Option.getD_some, hl, vbValue_eq_vbSum]
  simp

theorem exactVb_not_group {W : Nat} {g : List Byte} (h : ¬ IsVbGroup g) :
    exactVb W g = .error .vbCodeError := by
  rw [exactVb]
  split
  · rfl
  · rename_i hne
    split
    · rfl
    · rename_i hany
      split
      · rfl
      · rename_i hlast
        exfalso
        apply h
        refine ⟨g.dropLast, g.getLast hne, (List.dropLast_append_getLast hne).symm, ?_, ?_⟩
        · intro y hy
          simp only [Bool.not_eq_true, List.any_eq_false] at hany
          simpa [vbLast] using hany y hy
        · rw [List.getLastD_eq_getLast?, List.getLast?_eq_getLast_of_ne_nil hne, Option.getD_some] at hlast
          simpa [vbLast] using hlast

/-! ### The stream decoder -/

/-- The loop over one group: its value, then the loop over what follows. -/
theorem vbStream_group {W : Nat} {g : List Byte} (h : IsVbGroup g) (rest : List Byte)
    (acc start i : Nat) :
    vbStream W (g ++ rest) acc start i =
      if acc * 128 ^ g.length + vbSum g > 2 ^ W - 1 then .error (.overflowError, start)
      else
        match vbStream W rest 0 (i + g.length) (i + g.length) with
        | .error e => .error e
        | .ok out => .ok ((acc * 128 ^ g.length + vbSum g) :: out) := by
  obtain ⟨init, last, rfl, hi, hl⟩ := h
  induction init generalizing acc i with
  | nil =>
    simp only [List.nil_append, List.singleton_append, List.length_singleton]
    have e : vbAccumulate acc last = acc * 128 ^ 1 + vbSum [last] := by
      rw [vbAccumulate_eq, vbSum, vbSum, List.length_nil]; ring
    rw [vbStream]
    simp only [vbLast, hl, if_true, e]
    all_goals (cases vbStream W rest 0 (i + 1) (i + 1) <;> rfl)
  | cons y ys ih =>
    have hy : y.getLsbD 7 = false := hi y (by simp)
    have := ih (vbAccumulate acc y) (i + 1) fun z hz => hi z (by simp [hz])
    simp only [List.cons_append]
    rw [vbStream]
    simp only [vbLast, hy, Bool.false_eq_true, if_false]
    rw [this]
    have e1 : vbAccumulate acc y * 128 ^ (ys ++ [last]).length + vbSum (ys ++ [last]) =
        acc * 128 ^ (y :: (ys ++ [last])).length + vbSum (y :: (ys ++ [last])) := by
      rw [vbAccumulate_eq, List.length_cons, vbSum]; ring
    have e2 : i + 1 + (ys ++ [last]).length = i + (y :: (ys ++ [last])).length := by
      rw [List.length_cons]; omega
    rw [e1, e2]

/-- The loop over bytes none of which ends a group. -/
theorem vbStream_tail {W : Nat} {tail : List Byte} (h : ∀ y ∈ tail, y.getLsbD 7 = false)
    (acc start i : Nat) :
    vbStream W tail acc start i =
      if start ≠ i + tail.length then .error (.vbCodeError, start) else .ok [] := by
  induction tail generalizing acc i with
  | nil => simp [vbStream]
  | cons y ys ih =>
    have hy : y.getLsbD 7 = false := h y (by simp)
    rw [vbStream]
    simp only [vbLast, hy, Bool.false_eq_true, if_false]
    rw [ih fun z hz => h z (by simp [hz]), List.length_cons, show i + 1 + ys.length = i + (ys.length + 1) by omega]

/-- The loop over groups of acceptable values and then a tail. -/
theorem vbStream_groups {W : Nat} (gs : List (List Byte))
    (hgs : ∀ g ∈ gs, IsVbGroup g ∧ vbSum g ≤ 2 ^ W - 1) (tail : List Byte) (i : Nat) :
    vbStream W (gs.flatten ++ tail) 0 i i =
      match vbStream W tail 0 (i + gs.flatten.length) (i + gs.flatten.length) with
      | .error e => .error e
      | .ok out => .ok (gs.map vbSum ++ out) := by
  induction gs generalizing i with
  | nil =>
    simp only [List.flatten_nil, List.nil_append, List.length_nil, Nat.add_zero, List.map_nil]
    cases vbStream W tail 0 i i <;> rfl
  | cons g gs ih =>
    have hg := hgs g (by simp)
    rw [List.flatten_cons, List.append_assoc, vbStream_group hg.1]
    simp only [Nat.zero_mul, Nat.zero_add]
    rw [if_neg (by omega), ih (fun x hx => hgs x (by simp [hx])), List.length_append, ← Nat.add_assoc]
    cases vbStream W tail 0 (i + g.length + gs.flatten.length) (i + g.length + gs.flatten.length) <;> rfl

end Sys2Proof.Machine
end

