-- ==== Sys2Proof/Laws/Ends.lean ====
section
/-! SUPPORT. Every way a command can end, said once for all commands: a claim over all commands is a
case analysis on `Ends` and unfolds no meaning. -/

namespace Sys2Proof

open Machine

/-! ### Kinds of commands -/

/-- The commands that can succeed and change nothing but `STATUS` (`WFIN` on an empty writer). -/
def Instr.queries : Instr → Bool
  | .tobits _ | .tobytes _ | .len _ | .isempty _ | .cap _ | .reserve _ _ | .wfin
  | .udec1 _ | .gdec1 _ | .ddec1 _ | .clz _ _ | .top _ | .popcnt _ _ => true
  | _ => false

/-- The commands that append bits to buffer `b`. -/
def Instr.appends (b : Buf) : Instr → Bool
  | .push c _ | .ext c _ _ => c = b
  | .uenc _ _ | .genc _ _ | .denc _ _ => b = .wbuf
  | _ => false

/-- The commands that read the source. -/
def Instr.readsSource : Instr → Bool
  | .rread | .bload _ _ | .vbdec1 _ | .vbdecs _ => true
  | _ => false

/-- The commands that may fail with nothing changed but `STATUS`. -/
def Instr.mayFail : Instr → Bool
  | .push _ _ | .pushb _ _ | .ext _ _ _ | .reserve _ _ | .uenc _ _ | .udec1 _ | .udecn _ | .udecs _
  | .genc _ _ | .gdec1 _ | .gdecn _ | .gdecs _ | .denc _ _ | .ddec1 _ | .ddecn _ | .ddecs _
  | .clz _ _ | .top _ => true
  | _ => false

/-- The single decoders of the front of the stream. -/
def Instr.decodesNext : Instr → Bool
  | .udecn _ | .gdecn _ | .ddecn _ => true
  | _ => false

/-- The stream decoders of bit sequences. -/
def Instr.decodesStream : Instr → Bool
  | .udecs _ | .gdecs _ | .ddecs _ => true
  | _ => false

/-- The byte decoders. -/
def Instr.decodesBytes : Instr → Bool
  | .vbdec1 _ | .vbdecs _ => true
  | _ => false

/-- The bytes a command offers to the sink. -/
def Instr.sinkBytes (s : State) : Instr → Option (List Byte)
  | .wfin => some s.stream
  | .vbenc w opv => some (vbGroup (valueOperand w opv))
  | _ => none

end Sys2Proof

namespace Sys2Proof.Machine

/-! ### How a command ends -/

/-- `Ends i s t`: `t` is one of the states in which the command `i`, run in `s`, may end. -/
inductive Ends (i : Instr) (s : State) : State → Prop where
  | answered (r : Reg) : i = .rdreg r → Ends i s (answer .ok (readReg s r) [] s)
  | blockReset : i = .sreset → Ends i s (respond .ok 0 [] (resetBlock s))
  | control (ctl : BitVec 2) : i = .setctl ctl →
      Ends i s (respond .ok ctl.toNat [] { s with ctrl := writeCtl ctl s.ctrl })
  | queried (n : Nat) (l : List Quad) : i.queries = true → Ends i s (respond .ok n l s)
  | failed (c : Code) (n : Nat) : i.mayFail = true → c ≠ .ok → c ≠ .ioError → Ends i s (raise c n s)
  | appended (b : Buf) (x : List Bool) (n : Nat) : i.appends b = true →
      FitsBits s.capb ((s.buf b).len + x.length) →
      Ends i s (respond .ok n [] (s.setBuf b ((s.buf b).appendBits x)))
  | byteAppended (b : Buf) (y : Byte) (n : Nat) : i = .pushb b y →
      FitsBytes s.capb ((s.buf b).nbytes + 1) →
      Ends i s (respond .ok n [] (s.setBuf b ((s.buf b).appendByte y)))
  | cleared (b : Buf) : i = .clear b →
      Ends i s (respond .ok 0 [] ((s.setBuf b (s.buf b).cleared).rewind b))
  | sourceFailed (f : IoFail) : i.readsSource = true → s.io.read = some f →
      Ends i s (raise .ioError f.info.toNat { s with src := s.src.drop f.moved })
  | sourceRefused (c : Code) (n : Nat) : i.readsSource = true → s.io.read = none → c ≠ .ok →
      c ≠ .ioError → Ends i s (raise c n s.drained)
  | loaded (b : Buf) (opv : Quad) : i = .bload b opv → s.io.read = none →
      FitsBytes s.capb s.src.length → opv.toNat ≤ 8 * s.src.length →
      Ends i s (respond .ok opv.toNat []
        ((s.drained.setBuf b ((s.buf b).set s.src opv.toNat)).rewind b))
  | readEmpty : i = .rread → s.io.read = none →
      Ends i s (respond .ok 0 [] { s with src := [], rbuf := s.rbuf.cleared, cur := 0 })
  | readStream (bytes : List Byte) (L : Nat) : i = .rread → s.io.read = none →
      FitsBytes s.capb s.src.length → L ≤ 8 * bytes.length → L ≤ 8 * s.src.length →
      Ends i s (respond .ok L [] (s.read bytes L))
  | finished : i = .wfin → s.io.write = none → s.io.flush = none →
      Ends i s (respond .ok s.stream.length []
        { s with wbuf := s.wbuf.cleared, snk := s.snk ++ s.stream.map .byte ++ [.flush] })
  | sinkFailed (out : List Byte) (k n : Nat) : i.sinkBytes s = some out →
      Ends i s (raise .ioError n { s with snk := s.snk ++ (out.take k).map .byte })
  | emitted (w : Width) (opv : Quad) : i = .vbenc w opv → s.io.write = none →
      Ends i s (respond .ok (vbGroup (valueOperand w opv)).length []
        { s with snk := s.snk ++ (vbGroup (valueOperand w opv)).map .byte })
  | decodedBytes (n : Nat) (l : List Quad) : i.decodesBytes = true → s.io.read = none →
      Ends i s (respond .ok n l s.drained)
  | advanced (n used : Nat) : i.decodesNext = true → 0 < used → used ≤ s.rem.length →
      Ends i s (respond .ok n [] { s with cur := s.cur + used })
  | decodedStream (n : Nat) (l : List Quad) : i.decodesStream = true →
      Ends i s (respond .ok n l { s with cur := s.rbuf.len })

/-- The three encoders end in `emitCodeword`. -/
theorem emitCodeword_ends {i : Instr} (ha : i.appends .wbuf = true) (hf : i.mayFail = true)
    (s : State) (cw : List Bool) : Ends i s (emitCodeword cw.length cw s) := by
  rcases emitCodeword_cases cw.length cw s with ⟨h, e⟩ | ⟨-, e⟩ <;> rw [e]
  · exact .appended .wbuf cw cw.length ha h
  · exact .failed .capacityError _ hf (by decide) (by decide)

/-- The exact decoders end in `finishExact`. -/
theorem finishExact_ends {i : Instr} (hq : i.queries = true) (hf : i.mayFail = true) (s : State)
    {exact : List Bool → Except Code Nat} {word : Nat → List Bool} {low limit : Nat} {err : Code}
    (h : Exacts exact word low limit err) (h1 : err ≠ .ok) (h2 : err ≠ .ioError) :
    Ends i s (finishExact (exact s.rem) s) := by
  rcases finishExact_cases (exact s.rem) s with ⟨n, -, e⟩ | ⟨c, hc, e⟩ <;> rw [e]
  · exact .queried n [] hq
  · rcases h.of_error hc with rfl | rfl
    · exact .failed _ _ hf h1 h2
    · exact .failed _ _ hf (by decide) (by decide)

/-- The single decoders of the front end in `finishNext`. -/
theorem finishNext_ends {i : Instr} (hq : i.decodesNext = true) (hf : i.mayFail = true) (s : State)
    {peel : List Bool → Peeled} {word : Nat → List Bool} {low limit : Nat} {err : Code}
    (h : Peels peel word low limit err) (hpos : ∀ v, word v ≠ []) (h1 : err ≠ .ok)
    (h2 : err ≠ .ioError) : Ends i s (finishNext (peel s.rem) s) := by
  rcases finishNext_cases (peel s.rem) s with ⟨n, used, hp, e⟩ | ⟨c, hc, e⟩ <;> rw [e]
  · obtain ⟨-, -, rfl, rest, hr⟩ := h.of_ok hp
    refine .advanced n _ hq (List.length_pos_iff.2 (hpos n)) ?_
    have := congrArg List.length hr
    rw [List.length_append] at this
    omega
  · rcases h.of_error hc with rfl | rfl
    · exact .failed _ _ hf h1 h2
    · exact .failed _ _ hf (by decide) (by decide)

/-- The stream decoders end in `finishStream`. -/
theorem finishStream_ends {i : Instr} (hq : i.decodesStream = true) (hf : i.mayFail = true) (s : State)
    {peel : List Bool → Peeled} {word : Nat → List Bool} {low limit : Nat} {err : Code}
    (h : Peels peel word low limit err) (h1 : err ≠ .ok) (h2 : err ≠ .ioError) :
    Ends i s (finishStream peel s) := by
  rcases finishStream_cases peel s with ⟨out, -, e⟩ | ⟨c, a, hc, e⟩ <;> rw [e]
  · exact .decodedStream _ _ hq
  · rcases decodeStream_error (P := fun c => c = err ∨ c = .overflowError)
      (fun _ _ => h.of_error) _ _ _ _ _ hc with rfl | rfl
    · exact .failed _ _ hf h1 h2
    · exact .failed _ _ hf (by decide) (by decide)

/-- Every command, in every state, ends in one of these ways. -/
theorem exec_ends (i : Instr) (s : State) : ∃ t, exec i s = .next t ∧ Ends i s t := by
  cases i with
  | setctl ctl => exact ⟨_, rfl, .control ctl rfl⟩
  | rdreg r => exact ⟨_, rfl, .answered r rfl⟩
  | sreset => exact ⟨_, rfl, .blockReset rfl⟩
  | push b x =>
    rcases exec_push_cases b x s with ⟨h, e⟩ | ⟨-, e⟩
    · exact ⟨_, e, .appended b [x] _ (by simp [Instr.appends]) h⟩
    · exact ⟨_, e, .failed _ _ rfl (by decide) (by decide)⟩
  | pushb b y =>
    rcases exec_pushb_cases b y s with ⟨h, e⟩ | ⟨-, e⟩
    · exact ⟨_, e, .byteAppended b y _ rfl h⟩
    · exact ⟨_, e, .failed _ _ rfl (by decide) (by decide)⟩
  | ext b n opv =>
    rcases exec_ext_cases b n opv s with ⟨h, e⟩ | ⟨-, e⟩
    · exact ⟨_, e, .appended b _ _ (by simp [Instr.appends]) (by simpa [bitsOperand] using h)⟩
    · exact ⟨_, e, .failed _ _ rfl (by decide) (by decide)⟩
  | bload b opv =>
    rcases exec_bload_cases b opv s with ⟨f, hr, e⟩ | ⟨hr, -, e⟩ | ⟨hr, -, -, e⟩ | ⟨hr, h, -, hl, e⟩
    · exact ⟨_, e, .sourceFailed f rfl hr⟩
    · exact ⟨_, e, .sourceRefused _ _ rfl hr (by decide) (by decide)⟩
    · exact ⟨_, e, .sourceRefused _ _ rfl hr (by decide) (by decide)⟩
    · exact ⟨_, e, .loaded b opv rfl hr h hl⟩
  | tobits b => exact ⟨_, rfl, .queried _ _ rfl⟩
  | tobytes b => exact ⟨_, rfl, .queried _ _ rfl⟩
  | len b => exact ⟨_, rfl, .queried _ _ rfl⟩
  | isempty b => exact ⟨_, rfl, .queried _ _ rfl⟩
  | clear b => exact ⟨_, rfl, .cleared b rfl⟩
  | cap b => exact ⟨_, rfl, .queried _ _ rfl⟩
  | reserve b opv =>
    rcases exec_reserve_cases b opv s with ⟨-, e⟩ | ⟨-, e⟩
    · exact ⟨_, e, .queried _ _ rfl⟩
    · exact ⟨_, e, .failed _ _ rfl (by decide) (by decide)⟩
  | wfin =>
    rcases exec_wfin_cases s with ⟨-, e⟩ | ⟨-, f, -, e⟩ | ⟨-, -, info, -, e⟩ | ⟨-, hw, hf, e⟩
    · exact ⟨_, e, .queried _ _ rfl⟩
    · exact ⟨_, e, .sinkFailed s.stream f.moved _ rfl⟩
    · have h := Ends.sinkFailed (i := .wfin) s.stream s.stream.length info.toNat rfl
      rw [List.take_length] at h
      exact ⟨_, e, h⟩
    · exact ⟨_, e, .finished rfl hw hf⟩
  | rread =>
    rcases exec_rread_cases s with ⟨f, hr, e⟩ | ⟨hr, -, e⟩ | ⟨hr, -, -, e⟩ | ⟨hr, h, -, -, e⟩ |
      ⟨hr, -, -, -, -, e⟩ | ⟨hr, h, -, -, x, k, bytes, -, hu, hl, -, e⟩
    · exact ⟨_, e, .sourceFailed f rfl hr⟩
    · exact ⟨_, e, .sourceRefused _ _ rfl hr (by decide) (by decide)⟩
    · exact ⟨_, e, .readEmpty rfl hr⟩
    · exact ⟨_, e, .readStream _ _ rfl hr h (Nat.le_refl _) (Nat.le_refl _)⟩
    · exact ⟨_, e, .sourceRefused _ _ rfl hr (by decide) (by decide)⟩
    · refine ⟨_, e, .readStream _ _ rfl hr h hl ?_⟩
      have := congrArg List.length hu
      simp at this
      omega
  | uenc w opv =>
    have h := emitCodeword_ends (i := .uenc w opv) rfl rfl s (unaryWord (valueOperand w opv))
    rw [unaryWord_length] at h
    exact ⟨_, rfl, h⟩
  | udec1 w =>
    exact ⟨_, rfl, finishExact_ends rfl rfl s (exactU_exacts w.bits) (by decide) (by decide)⟩
  | udecn w =>
    exact ⟨_, rfl, finishNext_ends rfl rfl s (peelU_peels w.bits) unaryWord_ne_nil (by decide) (by decide)⟩
  | udecs w =>
    exact ⟨_, rfl, finishStream_ends rfl rfl s (peelU_peels w.bits) (by decide) (by decide)⟩
  | genc w opv =>
    rcases exec_genc_cases w opv s with ⟨-, e⟩ | ⟨-, e⟩
    · exact ⟨_, e, .failed _ _ rfl (by decide) (by decide)⟩
    · exact ⟨_, e, emitCodeword_ends rfl rfl s _⟩
  | gdec1 w =>
    exact ⟨_, rfl, finishExact_ends rfl rfl s (exactG_exacts w.one_le_bits) (by decide) (by decide)⟩
  | gdecn w =>
    exact ⟨_, rfl, finishNext_ends rfl rfl s (peelG_peels w.one_le_bits) gammaWord_ne_nil (by decide)
      (by decide)⟩
  | gdecs w =>
    exact ⟨_, rfl, finishStream_ends rfl rfl s (peelG_peels w.one_le_bits) (by decide) (by decide)⟩
  | denc w opv =>
    rcases exec_denc_cases w opv s with ⟨-, e⟩ | ⟨-, e⟩
    · exact ⟨_, e, .failed _ _ rfl (by decide) (by decide)⟩
    · exact ⟨_, e, emitCodeword_ends rfl rfl s _⟩
  | ddec1 w =>
    exact ⟨_, rfl, finishExact_ends rfl rfl s (exactD_exacts w.one_le_bits) (by decide) (by decide)⟩
  | ddecn w =>
    exact ⟨_, rfl, finishNext_ends rfl rfl s (peelD_peels w.one_le_bits) deltaWord_ne_nil (by decide)
      (by decide)⟩
  | ddecs w =>
    exact ⟨_, rfl, finishStream_ends rfl rfl s (peelD_peels w.one_le_bits) (by decide) (by decide)⟩
  | vbenc w opv =>
    rcases exec_vbenc_cases w opv s with ⟨f, -, e⟩ | ⟨hw, e⟩
    · exact ⟨_, e, .sinkFailed _ f.moved _ rfl⟩
    · exact ⟨_, e, .emitted w opv rfl hw⟩
  | vbdec1 w =>
    rcases exec_vbdec1_cases w s with ⟨f, hr, e⟩ | ⟨hr, c, hc, e⟩ | ⟨hr, v, -, e⟩
    · exact ⟨_, e, .sourceFailed f rfl hr⟩
    · rcases exactVb_error hc with rfl | rfl <;>
        exact ⟨_, e, .sourceRefused _ _ rfl hr (by decide) (by decide)⟩
    · exact ⟨_, e, .decodedBytes _ _ rfl hr⟩
  | vbdecs w =>
    rcases exec_vbdecs_cases w s with ⟨f, hr, e⟩ | ⟨hr, c, a, hc, e⟩ | ⟨hr, v, -, e⟩
    · exact ⟨_, e, .sourceFailed f rfl hr⟩
    · rcases vbStream_error _ _ _ _ _ _ hc with rfl | rfl <;>
        exact ⟨_, e, .sourceRefused _ _ rfl hr (by decide) (by decide)⟩
    · exact ⟨_, e, .decodedBytes _ _ rfl hr⟩
  | clz w opv =>
    rcases exec_clz_cases w opv s with ⟨-, e⟩ | ⟨-, e⟩
    · exact ⟨_, e, .failed _ _ rfl (by decide) (by decide)⟩
    · exact ⟨_, e, .queried _ _ rfl⟩
  | top opv =>
    rcases exec_top_cases opv s with ⟨-, e⟩ | ⟨p, -, e⟩
    · exact ⟨_, e, .failed _ _ rfl (by decide) (by decide)⟩
    · exact ⟨_, e, .queried _ _ rfl⟩
  | popcnt w opv => exact ⟨_, rfl, .queried _ _ rfl⟩

/-- The form a claim over all commands uses. -/
theorem ends_of_exec {i : Instr} {s t : State} (h : exec i s = .next t) : Ends i s t := by
  obtain ⟨u, e, hu⟩ := exec_ends i s
  rw [h] at e
  injection e with e
  subst e
  exact hu

end Sys2Proof.Machine
end

