-- ==== Sys2Proof/Laws/PerInstr.lean ====
section
/-! SUPPORT. The family `Opcode`: of every instruction, its encoded word carries the instruction's opcode in
field `op` and 0 in field `z` (30_encoding.md R82, R84). -/

namespace Sys2Proof.Laws.Opcode

/-- Field `op` is the opcode and field `z`, bits 19:16, is 0. -/
def Statement (i : Instr) : Prop :=
  (encode i).op = i.opcode ∧ (encode i).cmd.extractLsb' 16 4 = 0

/-- Field `z` of a laid out word. -/
theorem layWord_z (op : BitVec 8) (sel : BitVec 3) (b : BitVec 1) (imm : BitVec 16) :
    (layWord op sel b imm).extractLsb' 16 4 = 0 := by
  apply BitVec.eq_of_getLsbD_eq
  intro i hi
  simp only [layWord, BitVec.getLsbD_extractLsb', BitVec.getLsbD_append]
  interval_cases i <;> simp

theorem setctl (c : BitVec 2) : Statement (.setctl c) := ⟨encode_op _, layWord_z _ _ _ _⟩

theorem rdreg (r : Reg) : Statement (.rdreg r) := ⟨encode_op _, layWord_z _ _ _ _⟩

theorem sreset : Statement .sreset := ⟨encode_op _, layWord_z _ _ _ _⟩

theorem push (b : Buf) (x : Bool) : Statement (.push b x) := ⟨encode_op _, layWord_z _ _ _ _⟩

theorem pushb (b : Buf) (y : Byte) : Statement (.pushb b y) := ⟨encode_op _, layWord_z _ _ _ _⟩

theorem ext (b : Buf) (n : Nat) (v : Quad) : Statement (.ext b n v) := ⟨encode_op _, layWord_z _ _ _ _⟩

theorem bload (b : Buf) (v : Quad) : Statement (.bload b v) := ⟨encode_op _, layWord_z _ _ _ _⟩

theorem tobits (b : Buf) : Statement (.tobits b) := ⟨encode_op _, layWord_z _ _ _ _⟩

theorem tobytes (b : Buf) : Statement (.tobytes b) := ⟨encode_op _, layWord_z _ _ _ _⟩

theorem len (b : Buf) : Statement (.len b) := ⟨encode_op _, layWord_z _ _ _ _⟩

theorem isempty (b : Buf) : Statement (.isempty b) := ⟨encode_op _, layWord_z _ _ _ _⟩

theorem clear (b : Buf) : Statement (.clear b) := ⟨encode_op _, layWord_z _ _ _ _⟩

theorem cap (b : Buf) : Statement (.cap b) := ⟨encode_op _, layWord_z _ _ _ _⟩

theorem reserve (b : Buf) (v : Quad) : Statement (.reserve b v) := ⟨encode_op _, layWord_z _ _ _ _⟩

theorem wfin : Statement .wfin := ⟨encode_op _, layWord_z _ _ _ _⟩

theorem rread : Statement .rread := ⟨encode_op _, layWord_z _ _ _ _⟩

theorem uenc (w : Width) (v : Quad) : Statement (.uenc w v) := ⟨encode_op _, layWord_z _ _ _ _⟩

theorem udec1 (w : Width) : Statement (.udec1 w) := ⟨encode_op _, layWord_z _ _ _ _⟩

theorem udecn (w : Width) : Statement (.udecn w) := ⟨encode_op _, layWord_z _ _ _ _⟩

theorem udecs (w : Width) : Statement (.udecs w) := ⟨encode_op _, layWord_z _ _ _ _⟩

theorem genc (w : Width) (v : Quad) : Statement (.genc w v) := ⟨encode_op _, layWord_z _ _ _ _⟩

theorem gdec1 (w : Width) : Statement (.gdec1 w) := ⟨encode_op _, layWord_z _ _ _ _⟩

theorem gdecn (w : Width) : Statement (.gdecn w) := ⟨encode_op _, layWord_z _ _ _ _⟩

theorem gdecs (w : Width) : Statement (.gdecs w) := ⟨encode_op _, layWord_z _ _ _ _⟩

theorem denc (w : Width) (v : Quad) : Statement (.denc w v) := ⟨encode_op _, layWord_z _ _ _ _⟩

theorem ddec1 (w : Width) : Statement (.ddec1 w) := ⟨encode_op _, layWord_z _ _ _ _⟩

theorem ddecn (w : Width) : Statement (.ddecn w) := ⟨encode_op _, layWord_z _ _ _ _⟩

theorem ddecs (w : Width) : Statement (.ddecs w) := ⟨encode_op _, layWord_z _ _ _ _⟩

theorem vbenc (w : Width) (v : Quad) : Statement (.vbenc w v) := ⟨encode_op _, layWord_z _ _ _ _⟩

theorem vbdec1 (w : Width) : Statement (.vbdec1 w) := ⟨encode_op _, layWord_z _ _ _ _⟩

theorem vbdecs (w : Width) : Statement (.vbdecs w) := ⟨encode_op _, layWord_z _ _ _ _⟩

theorem clz (w : Width) (v : Quad) : Statement (.clz w v) := ⟨encode_op _, layWord_z _ _ _ _⟩

theorem top (v : Quad) : Statement (.top v) := ⟨encode_op _, layWord_z _ _ _ _⟩

theorem popcnt (w : Width) (v : Quad) : Statement (.popcnt w v) := ⟨encode_op _, layWord_z _ _ _ _⟩

end Sys2Proof.Laws.Opcode
end

