-- ==== Sys2Proof/Laws/Pseudo.lean ====
section
/-! SUPPORT. The host's run of a pseudo-instruction against the machine's own step (30_encoding.md
R87). -/

namespace Sys2Proof.Machine

/-- Issuing a command that a word stands for is one step with that command at the front of the port. -/
theorem issue_eq_step {i : Instr} (h : decode (encode i) = .ok i) (io : IoChoice) (s : State) :
    step { s with port := .command (encode i) io :: s.port } = issue i io s := by
  simp only [step, runCommand, h]
  rfl

@[simp] theorem runList_nil (ios : Nat → IoChoice) (s : State) : runList [] ios s = .next s := rfl

@[simp] theorem lastOk_respond (c : Code) (n : Nat) (l : List Quad) (s : State) :
    lastOk (respond c n l s) = decide (c = .ok) := rfl

end Sys2Proof.Machine
end

