-- ==== Sys2Proof/Tests/Slice0.lean ====
section
/-! SUPPORT. Tests. The expected results come from the spec's own tables (95_test_vectors.md, 30_encoding.md
R86); each test names its row. The theorems `witness_<Name>` show, for the obligation of that name, states
and operands that meet its hypotheses, clause by clause. -/

namespace Sys2Proof.Machine

/-! ## Small states -/

/-- A bit sequence as the spec writes it. -/
def bitsOf (s : String) : List Bool := s.toList.map (· == '1')

/-- The reset state with these bits in the writer. -/
def wr (s : String) : State := { State.reset with wbuf := Buffer.empty.appendBits (bitsOf s) }

/-- The reset state with these bits in the reader. -/
def rd (s : String) : State := { State.reset with rbuf := Buffer.empty.appendBits (bitsOf s) }

/-- The reset state with these bytes in the source. -/
def sr (l : List Nat) : State := { State.reset with src := l.map (BitVec.ofNat 8) }

/-- Two bytes of capacity, and `n` ones in each buffer. -/
def full (n : Nat) : State :=
  { State.reset with
    capb := .bytes 2
    wbuf := Buffer.empty.appendBits (List.replicate n true)
    rbuf := Buffer.empty.appendBits (List.replicate n true) }

/-- Status, scalar and list of the response. -/
def said (r : Result) : Option (Code × Nat × List Nat) :=
  match r with
  | .next t => t.resp.map fun p => (p.status, p.rv.toNat, p.rlist.map (·.toNat))
  | _ => none

/-- A field of the state a command ends in. -/
def left {α : Type} (f : State → α) (r : Result) : Option α :=
  match r with
  | .next t => some (f t)
  | _ => none

/-! ## Well-formedness -/

/-- R82: `EXT` with `n` = 129 is refused, `n` = 128 is not. -/
theorem test_wellFormed_ext :
    ¬ (Instr.ext .wbuf 129 0).WellFormed ∧ (Instr.ext .wbuf 128 0).WellFormed := by decide

/-! ## Decoding: words written out field by field from R82 and R84 (op, wsel, b, z, imm) -/

theorem test_decode_system :
    decode ⟨0b00000001_000_0_0000_0000000000000010, 0⟩ = .ok (.setctl 2) ∧
    decode ⟨0b00000010_000_0_0000_0000000000000001, 0⟩ = .ok (.rdreg .status) ∧
    decode ⟨0b00000010_000_0_0000_0000000000000010, 0⟩ = .ok (.rdreg .cur) ∧
    decode ⟨0b00000011_000_0_0000_0000000000000000, 0⟩ = .ok .sreset := by decide

/-- E1 to E4, R86 and the rows of format `B`. -/
theorem test_decode_buffer :
    decode ⟨0b00010000_000_0_0000_0000000000000001, 0⟩ = .ok (.push .wbuf true) ∧
    decode ⟨0b00010000_000_1_0000_0000000000000000, 0⟩ = .ok (.push .rbuf false) ∧
    decode ⟨0b00010001_000_1_0000_0000000010111000, 0⟩ = .ok (.pushb .rbuf 0xB8) ∧
    decode ⟨0b00010010_000_0_0000_0000000010000000, 5⟩ = .ok (.ext .wbuf 128 5) ∧
    decode ⟨0b00010011_000_1_0000_0000000000000000, 13⟩ = .ok (.bload .rbuf 13) ∧
    decode ⟨0b00010100_000_0_0000_0000000000000000, 0⟩ = .ok (.tobits .wbuf) ∧
    decode ⟨0b00010101_000_1_0000_0000000000000000, 0⟩ = .ok (.tobytes .rbuf) ∧
    decode ⟨0b00010110_000_0_0000_0000000000000000, 0⟩ = .ok (.len .wbuf) ∧
    decode ⟨0b00010111_000_1_0000_0000000000000000, 0⟩ = .ok (.isempty .rbuf) ∧
    decode ⟨0b00011000_000_0_0000_0000000000000000, 0⟩ = .ok (.clear .wbuf) ∧
    decode ⟨0b00011001_000_1_0000_0000000000000000, 0⟩ = .ok (.cap .rbuf) ∧
    decode ⟨0b00011010_000_0_0000_0000000000000000, 28⟩ = .ok (.reserve .wbuf 28) := by decide

theorem test_decode_streams :
    decode ⟨0b00100000_000_0_0000_0000000000000000, 0⟩ = .ok .wfin ∧
    decode ⟨0b00100001_000_0_0000_0000000000000000, 0⟩ = .ok .rread := by decide

theorem test_decode_unary :
    decode ⟨0b00110000_000_0_0000_0000000000000000, 3⟩ = .ok (.uenc .w8 3) ∧
    decode ⟨0b00110001_001_0_0000_0000000000000000, 0⟩ = .ok (.udec1 .w16) ∧
    decode ⟨0b00110010_010_0_0000_0000000000000000, 0⟩ = .ok (.udecn .w32) ∧
    decode ⟨0b00110011_011_0_0000_0000000000000000, 0⟩ = .ok (.udecs .w64) := by decide

/-- E5 among them. -/
theorem test_decode_gamma :
    decode ⟨0b01000000_010_0_0000_0000000000000000, 9⟩ = .ok (.genc .w32 9) ∧
    decode ⟨0b01000001_100_0_0000_0000000000000000, 0⟩ = .ok (.gdec1 .w128) ∧
    decode ⟨0b01000010_000_0_0000_0000000000000000, 0⟩ = .ok (.gdecn .w8) ∧
    decode ⟨0b01000011_001_0_0000_0000000000000000, 0⟩ = .ok (.gdecs .w16) := by decide

/-- E6 among them. -/
theorem test_decode_delta :
    decode ⟨0b01010000_011_0_0000_0000000000000000, 9⟩ = .ok (.denc .w64 9) ∧
    decode ⟨0b01010001_010_0_0000_0000000000000000, 0⟩ = .ok (.ddec1 .w32) ∧
    decode ⟨0b01010010_001_0_0000_0000000000000000, 0⟩ = .ok (.ddecn .w16) ∧
    decode ⟨0b01010011_100_0_0000_0000000000000000, 0⟩ = .ok (.ddecs .w128) := by decide

/-- E7 among them. -/
theorem test_decode_bytes :
    decode ⟨0b01100000_010_0_0000_0000000000000000, 824⟩ = .ok (.vbenc .w32 824) ∧
    decode ⟨0b01100001_000_0_0000_0000000000000000, 0⟩ = .ok (.vbdec1 .w8) ∧
    decode ⟨0b01100010_100_0_0000_0000000000000000, 0⟩ = .ok (.vbdecs .w128) ∧
    decode ⟨0b01110000_000_0_0000_0000000000000000, 9⟩ = .ok (.clz .w8 9) ∧
    decode ⟨0b01110001_000_0_0000_0000000000000000, 0x8C⟩ = .ok (.top 0x8C) ∧
    decode ⟨0b01110010_001_0_0000_0000000000000000, 0xB8⟩ = .ok (.popcnt .w16 0xB8) := by decide

/-- E8 to E18: each illegal word, by the clause of R85 it falls under. -/
theorem test_decode_illegal :
    decode ⟨0x00000000, 0⟩ = .error .unknownOpcode ∧
    decode ⟨0xFFFFFFFF, 0⟩ = .error .unknownOpcode ∧
    decode ⟨0x10010001, 0⟩ = .error .strayBit ∧
    decode ⟨0x10000003, 0⟩ = .error .strayBit ∧
    decode ⟨0x30A00000, 0⟩ = .error .fieldConstraint ∧
    decode ⟨0x12000081, 0⟩ = .error .fieldConstraint ∧
    decode ⟨0x12000100, 0⟩ = .error .strayBit ∧
    decode ⟨0x02000003, 0⟩ = .error .fieldConstraint ∧
    decode ⟨0x20100000, 0⟩ = .error .strayBit ∧
    decode ⟨0x71200000, 0⟩ = .error .strayBit ∧
    decode ⟨0x04000000, 0⟩ = .error .unknownOpcode := by decide

/-- R86: the eight assembler lines and their words. -/
theorem test_encode_assembler :
    (encode (.push .wbuf true)).cmd = 0x10000001 ∧ (encode (.pushb .rbuf 0xB8)).cmd = 0x111000B8 ∧
    encode (.ext .wbuf 3 5) = ⟨0x12000003, 5⟩ ∧ encode (.genc .w32 9) = ⟨0x40400000, 9⟩ ∧
    (encode (.ddecs .w8)).cmd = 0x53000000 ∧ encode (.bload .rbuf 13) = ⟨0x13100000, 13⟩ ∧
    (encode (.setctl 3)).cmd = 0x01000003 ∧ (encode (.rdreg .cur)).cmd = 0x02000002 := by decide

theorem test_assembler_text :
    asmText (asmLine (.push .wbuf true)) = "PUSH wb, #1" ∧
    asmText (asmLine (.ext .wbuf 3 5)) = "EXT wb, #3, 5" ∧
    asmText (asmLine (.genc .w32 9)) = "GENC.w32 9" ∧
    asmText (asmLine (.bload .rbuf 13)) = "BLOAD rb, 13" := by decide

/-- The table's numbering: `opv` above the command word; an operand word without bits is 0. -/
theorem test_table_word :
    decodeTableWord 160 (0x40400000 + 9 * 2 ^ 32) = some (.genc .w32 9) ∧
    decodeTableWord 32 0x40400000 = some (.genc .w32 0) ∧
    decodeTableWord 32 0x40A00000 = none := by decide

/-! ## The step -/

/-- The first step after reset runs the word that was placed: S4's command. -/
theorem test_step_runs_placed_word :
    left (fun t => (t.wbuf.bits, t.port, t.status)) (step (State.reset.withFetchWord 160 (0x40000000 + 9 * 2 ^ 32))) =
      some (bitsOf "1110001", [], 0) := by decide

/-- E8, E9: an illegal word answers `IllegalCommand` with the word, and sets `STATUS`. -/
theorem test_step_illegal :
    said (step (State.reset.withFetchWord 32 0xFFFFFFFF)) = some (.illegalCommand, 0xFFFFFFFF, []) ∧
    left (·.status) (step (State.reset.withFetchWord 32 0)) = some 0x0800000B := by decide

/-- X6: an illegal word is answered before the operand is looked at. -/
theorem test_step_illegal_first :
    said (step (State.reset.withFetchWord 32 0x40A00000)) = some (.illegalCommand, 0x40A00000, []) := by
  decide

/-- R276: feeding, the loop back that drops `F` marks, and an idle block. -/
theorem test_step_host :
    left (·.src) (step { sr [1] with port := [.feed [2]] }) = some [1, 2] ∧
    left (fun t => (t.src, t.snk))
      (step { sr [1] with snk := [.byte 2, .flush, .byte 3], port := [.loopBack] }) =
      some ([1, 2, 3], []) ∧
    left id (step State.reset) = some State.reset := by decide

/-- R34, R270: hardware reset. -/
theorem test_step_reset :
    left (fun t => (t.wbuf.len, t.ctrl, t.status))
      (step { wr "101" with ctrl := 0, status := 0x02000009, port := [.reset] }) =
      some (0, 3, 0) := by decide

/-! ## System commands (N8 to N13) -/

theorem test_setctl : said (exec (.setctl 0) State.reset) = some (.ok, 0, []) ∧
    left (·.ctrl) (exec (.setctl 2) State.reset) = some 2 := by decide

theorem test_rdreg : said (exec (.rdreg .ctrl) State.reset) = some (.ok, 3, []) ∧
    left (·.status) (exec (.rdreg .status) { State.reset with status := 0x02000009 }) =
      some 0x02000009 := by decide

theorem test_sreset :
    left (fun t => (t.wbuf.len, t.ctrl, t.status, t.src))
      (exec .sreset { wr "101" with ctrl := 0, status := 0x02000009, src := [7] }) =
      some (0, 3, 0, [7]) := by decide

/-! ## Bit buffer (B1 to B24) -/

/-- B2 and B24. -/
theorem test_push : left (·.wbuf.bytes) (exec (.push .wbuf true) (wr "11111111")) = some [0xFF, 0x80] ∧
    left (fun t => (t.rbuf.len, t.cur)) (exec (.push .rbuf false) { rd "1001011110001" with cur := 13 }) =
      some (14, 13) := by decide

/-- B20. -/
theorem test_push_full : said (exec (.push .wbuf true) (full 16)) = some (.capacityError, 17, []) := by decide

/-- B3 and B5. -/
theorem test_pushb : left (·.wbuf.bytes) (exec (.pushb .wbuf 0xFF) (wr "101")) = some [0xA0, 0xFF] ∧
    said (exec (.pushb .wbuf 1) (wr "01011010")) = some (.ok, 16, []) := by decide

/-- B21. -/
theorem test_pushb_full : said (exec (.pushb .wbuf 0xAA) (full 9)) = some (.capacityError, 24, []) := by decide

/-- B6. -/
theorem test_ext : left (·.wbuf.bytes) (exec (.ext .wbuf 5 22) State.reset) = some [0xB0] ∧
    said (exec (.ext .wbuf 0 22) (wr "10110")) = some (.ok, 5, []) := by decide

/-- B22. -/
theorem test_ext_full : said (exec (.ext .wbuf 7 0x7F) (full 10)) = some (.capacityError, 17, []) ∧
    left (·.wbuf.len) (exec (.ext .wbuf 7 0x7F) (full 10)) = some 10 := by decide

/-- B9 and B12. -/
theorem test_bload : left (·.rbuf.bytes) (exec (.bload .rbuf 8) (sr [0x97, 0x88])) = some [0x97] ∧
    left (·.rbuf.bytes) (exec (.bload .rbuf 3) (sr [0xFF])) = some [0xE0] := by decide

/-- B8 and B11. -/
theorem test_bload_length : said (exec (.bload .rbuf 7) (sr [0x97, 0x88])) = some (.lengthError, 7, []) ∧
    said (exec (.bload .wbuf 0) (sr [])) = some (.ok, 0, []) := by decide

/-- B13. -/
theorem test_tobits : said (exec (.tobits .wbuf) (wr "10110")) = some (.ok, 5, [1, 0, 1, 1, 0]) := by decide

/-- B14. -/
theorem test_tobytes :
    said (exec (.tobytes .wbuf) (wr "1001011110001")) = some (.ok, 2, [0x97, 0x88]) := by decide

/-- B15. -/
theorem test_len : said (exec (.len .wbuf) (wr "10110")) = some (.ok, 5, []) := by decide

theorem test_isempty : said (exec (.isempty .wbuf) State.reset) = some (.ok, 1, []) ∧
    said (exec (.isempty .rbuf) (rd "0")) = some (.ok, 0, []) := by decide

/-- B16 and B17. -/
theorem test_clear :
    left (fun t => (t.rbuf.len, t.cur)) (exec (.clear .rbuf) { rd "1001011110001" with cur := 6 }) =
      some (0, 0) ∧
    left (fun t => (t.rbuf.len, t.cur)) (exec (.clear .wbuf) { rd "1001011110001" with cur := 6 }) =
      some (13, 6) := by decide

/-- B18. -/
theorem test_cap : said (exec (.cap .rbuf) { State.reset with capb := .bytes 16 }) = some (.ok, 128, []) := by
  decide

/-- B19, with 10 bits in a buffer of two bytes. -/
theorem test_reserve : said (exec (.reserve .wbuf 6) (full 10)) = some (.ok, 16, []) ∧
    said (exec (.reserve .wbuf 7) (full 10)) = some (.capacityError, 17, []) := by decide

/-! ## Writer and reader -/

/-- W7 and W8. -/
theorem test_wfin : left (fun t => (t.snk, t.wbuf.len)) (exec .wfin (wr "1011010")) =
      some ([.byte 0xB5, .flush], 0) ∧
    left (·.snk) (exec .wfin (wr "10110100")) = some [.byte 0xB4, .byte 0x80, .flush] := by decide

/-- W0 and W11. -/
theorem test_wfin_edges : left (·.snk) (exec .wfin State.reset) = some [] ∧
    left (·.snk) (exec .wfin { wr "10110100" with ctrl := 0 }) = some [.byte 0xB4, .flush] := by decide

/-- R1 and R2. -/
theorem test_rread : left (·.rbuf.bytes) (exec .rread (sr [0x97, 0x8C])) = some [0x97, 0x88] ∧
    left (·.rbuf.bits) (exec .rread (sr [0xEE, 0x80])) = some (bitsOf "11101110") := by decide

/-- R5 and R10. -/
theorem test_rread_edges : said (exec .rread (sr [0xFF, 0])) = some (.noTerminatingBitError, 2, []) ∧
    said (exec .rread { sr [0xFF, 0] with ctrl := 0 }) = some (.ok, 16, []) := by decide

/-! ## Unary (S1, S2, U2 to U9) -/

theorem test_uenc : left (·.wbuf.bits) (exec (.uenc .w8 0x103) (wr "1")) = some (bitsOf "11110") ∧
    said (exec (.uenc .w8 0) State.reset) = some (.ok, 1, []) := by decide

theorem test_udec1 : said (exec (.udec1 .w8) (rd "1110")) = some (.ok, 3, []) ∧
    said (exec (.udec1 .w8) (rd "1010")) = some (.unaryCodeError, 0, []) := by decide

theorem test_udecn : left (·.cur) (exec (.udecn .w8) { rd "11101110" with cur := 4 }) = some 8 ∧
    said (exec (.udecn .w8) { rd "11101110" with cur := 8 }) = some (.unaryCodeError, 8, []) := by decide

theorem test_udecs : said (exec (.udecs .w8) (rd "11101110")) = some (.ok, 2, [3, 3]) ∧
    said (exec (.udecs .w8) (rd "111011")) = some (.unaryCodeError, 4, []) := by decide

/-! ## Gamma (S4, G16 to G31) -/

theorem test_genc : left (·.wbuf.bits) (exec (.genc .w8 9) State.reset) = some (bitsOf "1110001") ∧
    said (exec (.genc .w8 0x100) State.reset) = some (.zeroInputError, 0, []) := by decide

theorem test_gdec1 : said (exec (.gdec1 .w8) (rd "1110001")) = some (.ok, 9, []) ∧
    said (exec (.gdec1 .w8) (rd "11111110000000")) = some (.gammaCodeError, 0, []) := by decide

theorem test_gdecn : left (·.cur) (exec (.gdecn .w8) { rd "1001011110001" with cur := 6 }) = some 13 ∧
    said (exec (.gdecn .w8) { rd "1001011110001" with cur := 6 }) = some (.ok, 9, []) := by decide

theorem test_gdecs : said (exec (.gdecs .w8) (rd "1001011110001")) = some (.ok, 3, [2, 3, 9]) ∧
    said (exec (.gdecs .w8) (rd "100111111101001000101")) = some (.overflowError, 3, []) := by decide

/-! ## Delta (S5, D17 to D30) -/

theorem test_denc : left (·.wbuf.bits) (exec (.denc .w8 9) State.reset) = some (bitsOf "11000001") ∧
    said (exec (.denc .w8 0) State.reset) = some (.zeroInputError, 0, []) := by decide

theorem test_ddec1 : said (exec (.ddec1 .w8) (rd "11100000000000")) = some (.overflowError, 0, []) ∧
    said (exec (.ddec1 .w16) (rd "11100000000000")) = some (.ok, 128, []) := by decide

theorem test_ddecn : said (exec (.ddecn .w8) (rd "1101101")) = some (.deltaCodeError, 0, []) ∧
    left (·.cur) (exec (.ddecn .w8) (rd "110000011")) = some 8 := by decide

theorem test_ddecs : said (exec (.ddecs .w8) (rd "1100000101000")) = some (.ok, 3, [9, 1, 2]) ∧
    said (exec (.ddecs .w8) (rd "11000001110")) = some (.deltaCodeError, 8, []) := by decide

/-! ## Variable-Byte (S7, S8, V15 to V25) -/

theorem test_vbenc : left (·.snk) (exec (.vbenc .w32 214577) State.reset) =
      some [.byte 0x0D, .byte 0x0C, .byte 0xB1] ∧
    left (·.snk) (exec (.vbenc .w8 0) State.reset) = some [.byte 0x80] := by decide

theorem test_vbdec1 : said (exec (.vbdec1 .w32) (sr [6, 0xB8])) = some (.ok, 824, []) ∧
    said (exec (.vbdec1 .w8) (sr [0x82, 0x80])) = some (.vbCodeError, 0, []) := by decide

theorem test_vbdecs :
    said (exec (.vbdecs .w32) (sr [0x85, 6, 0xB8, 0x0D, 0x0C, 0xB1])) = some (.ok, 3, [5, 824, 214577]) ∧
    said (exec (.vbdecs .w32) (sr [0x85, 6])) = some (.vbCodeError, 1, []) := by decide

/-! ## Numeric support (N1 to N7) -/

theorem test_clz : said (exec (.clz .w32 9) State.reset) = some (.ok, 28, []) ∧
    said (exec (.clz .w8 0x100) State.reset) = some (.zeroInputError, 0, []) := by decide

theorem test_top : said (exec (.top 0x8C) State.reset) = some (.ok, 2, []) ∧
    said (exec (.top 0x100) State.reset) = some (.zeroInputError, 0, []) := by decide

theorem test_popcnt : said (exec (.popcnt .w8 0x1B8) State.reset) = some (.ok, 4, []) ∧
    said (exec (.popcnt .w8 0xFF) State.reset) = some (.ok, 8, []) := by decide

/-! ## Error order (X1) -/

theorem test_zero_before_capacity :
    said (exec (.genc .w8 0) (full 16)) = some (.zeroInputError, 0, []) := by decide

/-! ## Witnesses: the machine's step -/

/-- The invariant holds at reset. -/
theorem reset_inv : Inv State.reset := by decide

/-- A command on the port. -/
def issued (cmd : Word) (opv : Quad) (s : State) : State := { s with port := [.command ⟨cmd, opv⟩ .allOk] }

/-- The environment fails the read after one byte. -/
def readFails (s : State) : State := { s with io := ⟨some ⟨1, 77⟩, none, none⟩ }

/-- The environment fails the write after one byte. -/
def writeFails (s : State) : State := { s with io := ⟨none, some ⟨1, 77⟩, none⟩ }

/-- The environment fails the flush. -/
def flushFails (s : State) : State := { s with io := ⟨none, none, some 77⟩ }

/-- The environment fails the write of the command at index `n` alone, after one byte. -/
def failsAt (n k : Nat) : IoChoice := if k = n then ⟨none, some ⟨1, 77⟩, none⟩ else .allOk

theorem fits_bits {c : Capacity} {n : Nat} (h : holdsBits c n = true) : FitsBits c n :=
  (holdsBits_iff c n).1 h

theorem full_bits {c : Capacity} {n : Nat} (h : holdsBits c n = false) : ¬ FitsBits c n := fun hf => by
  rw [(holdsBits_iff c n).2 hf] at h; cases h

theorem fits_bytes {c : Capacity} {n : Nat} (h : holdsBytes c n = true) : FitsBytes c n :=
  (holdsBytes_iff c n).1 h

theorem full_bytes {c : Capacity} {n : Nat} (h : holdsBytes c n = false) : ¬ FitsBytes c n := fun hf => by
  rw [(holdsBytes_iff c n).2 hf] at h; cases h

theorem witness_ResetAndSoftResetGiveTheTable :
    ({ wr "101" with port := [.reset] } : State).port = .reset :: [] := rfl

theorem witness_ResetLeavesTheStores :
    ∃ t, exec .sreset (wr "101") = .next t ∧ memRead (wr "101").wbuf.mem 0 = 0xA0 := ⟨_, rfl, by decide⟩

theorem witness_EveryStepKeepsInvariant :
    Inv (issued 0x10000001 0 (wr "101")) ∧ ∃ t, step (issued 0x10000001 0 (wr "101")) = .next t :=
  ⟨by decide, _, rfl⟩

theorem witness_StepRunsTheDecodedCommand :
    (issued 0x10000001 0 (wr "101")).port = .command ⟨0x10000001, 0⟩ .allOk :: [] ∧
    decode ⟨0x10000001, 0⟩ = .ok (.push .wbuf true) := by decide

theorem witness_HostInputsActOnStreamsOnly :
    ({ sr [1] with port := [.feed [2]] } : State).port = .feed [2] :: [] ∧
    ({ sr [1] with port := [.drain 1] } : State).port = .drain 1 :: [] ∧
    ({ sr [1] with port := [.loopBack], snk := [.byte 2, .flush] } : State).port = .loopBack :: [] ∧
    ({ sr [1] with port := [.loopBack], snk := [.byte 2, .flush] } : State).snk.filter (· ≠ .flush) =
      [(2 : Byte)].map .byte ∧
    State.reset.port = [] ∧
    ({ sr [1] with port := [.resetDuring ⟨0, 0⟩] } : State).port = .resetDuring ⟨0, 0⟩ :: [] ∧
    ({ sr [1] with port := [.misuse] } : State).port = .misuse :: [] := by decide

/-! ## Witnesses: encoding -/

theorem witness_DecodeOfEncodeIsTheInstruction :
    (Instr.ext .rbuf 128 5).WellFormed ∧ (Instr.ext .rbuf 0 5).WellFormed ∧ Instr.wfin.WellFormed := by
  decide

theorem witness_EncodeOfDecodeIsTheWord :
    decode ⟨0x12000080, 5⟩ = .ok (.ext .wbuf 128 5) ∧ decode ⟨0x20000000, 5⟩ = .ok .wfin := by decide

theorem witness_DecodingFollowsTheOpcodeMap :
    (∃ r ∈ rows, (0x12000080 : Word) &&& r.mask = r.pattern ∧
      (r.build ⟨0x12000080, 5⟩).isSome = true) ∧
    (∃ r ∈ rows, (0x12000081 : Word) &&& r.mask = r.pattern ∧ r.build ⟨0x12000081, 5⟩ = none) ∧
    (∀ r ∈ rows, (0x04000000 : Word) &&& r.mask ≠ r.pattern) := by decide

theorem witness_IllegalWordAnswersIllegalCommand :
    (∀ r ∈ rows, r.pattern.extractLsb' 24 8 ≠ (Command.mk 0x04000000 0).op) ∧
    (∃ r ∈ rows, r.pattern.extractLsb' 24 8 = (Command.mk 0x10000003 0).op ∧
      (0x10000003 : Word) &&& r.mask ≠ r.pattern) ∧
    (∃ r ∈ rows, (0x02000003 : Word) &&& r.mask = r.pattern ∧ r.build ⟨0x02000003, 0⟩ = none) ∧
    (issued 0x02000003 0 State.reset).port = .command ⟨0x02000003, 0⟩ .allOk :: [] ∧
    decode ⟨0x02000003, 0⟩ = .error .fieldConstraint := by decide

/-! ## Witnesses: rules about every command -/

theorem witness_StatusRecordsEveryResponse :
    (∃ t, exec (.rdreg .cur) State.reset = .next t) ∧ (∃ t, exec .sreset State.reset = .next t) ∧
    ((∃ t, exec (.genc .w8 0) State.reset = .next t) ∧ (∀ r, Instr.genc .w8 0 ≠ .rdreg r) ∧
      Instr.genc .w8 0 ≠ .sreset) ∧
    decode ⟨0xFFFFFFFF, 0⟩ = .error .unknownOpcode ∧
    ∃ t, runCommand ⟨0xFFFFFFFF, 0⟩ State.reset = .next t :=
  ⟨⟨_, rfl⟩, ⟨_, rfl⟩, ⟨⟨_, rfl⟩, by simp, by simp⟩, by decide, _, rfl⟩

/-- A failing source read, a failing sink write, an error after a read, and one with no I/O. -/
theorem witness_ErrorsArePrecise :
    said (exec .rread (readFails (sr [1, 2, 3]))) = some (.ioError, 77, []) ∧
    said (exec .wfin (writeFails (wr "10110100"))) = some (.ioError, 77, []) ∧
    said (exec (.vbdec1 .w8) (sr [1, 2])) = some (.vbCodeError, 0, []) ∧
    said (exec (.push .rbuf true) (full 16)) = some (.capacityError, 17, []) ∧
    decode ⟨0x02000003, 0⟩ = .error .fieldConstraint ∧
    said (runCommand ⟨0x02000003, 0⟩ State.reset) = some (.illegalCommand, 0x02000003, []) := by decide

theorem witness_NoCommandDependsOnStatus :
    Instr.rdreg .ctrl ≠ .rdreg .status ∧ ∃ t, exec (.rdreg .ctrl) State.reset = .next t :=
  ⟨by decide, _, rfl⟩

/-- A move forward by one codeword, a move to the end, a move to 0. -/
theorem witness_CursorMovesAsTheRuleSays :
    Inv (rd "1110") ∧ left (·.cur) (exec (.udecn .w8) (rd "1110")) = some 4 ∧
    said (exec (.udecs .w8) (rd "00")) = some (.ok, 2, [0, 0]) ∧
    Inv { rd "00" with cur := 2 } ∧ left (·.cur) (exec (.clear .rbuf) { rd "00" with cur := 2 }) = some 0 := by
  decide

theorem witness_OnlyTheStreamCommandsTouchTheStreams :
    left (·.snk) (exec .wfin (wr "1")) = some [.byte 0xC0, .flush] ∧
    left (·.snk) (exec (.vbenc .w8 1) State.reset) = some [.byte 0x81] ∧
    left (·.snk) (exec (.len .wbuf) State.reset) = some [] ∧
    left (·.src) (exec (.vbdecs .w8) (sr [0x81])) = some [] := by decide

theorem witness_WhoWritesTheBuffersAndControl :
    left (·.ctrl) (exec (.push .wbuf true) State.reset) = some State.reset.ctrl ∧
    left (·.wbuf) (exec (.push .wbuf true) State.reset) ≠ some State.reset.wbuf ∧
    left (·.rbuf) (exec .rread (sr [0x97])) ≠ some (sr [0x97]).rbuf := by decide

/-- Two states that differ in a byte that is not live. -/
theorem witness_OnlyTheBitSequencesAreObservable :
    Inv { State.reset with wbuf := ⟨[(0, 0xA0), (1, 7)], 3⟩ } ∧ Inv (wr "101") ∧
    ({ State.reset with wbuf := ⟨[(0, 0xA0), (1, 7)], 3⟩ } : State).view = (wr "101").view ∧
    ({ State.reset with wbuf := ⟨[(0, 0xA0), (1, 7)], 3⟩ } : State) ≠ wr "101" ∧
    (left (·.resp) (exec (.pushb .wbuf 1) (wr "101"))).isSome = true := by decide

theorem witness_BitDecodersReadTheReaderSideOnly :
    Instr.gdecn .w8 ∈ [Instr.udec1 .w8, .udecn .w8, .udecs .w8, .gdec1 .w8, .gdecn .w8, .gdecs .w8,
      .ddec1 .w8, .ddecn .w8, .ddecs .w8] ∧ ∃ t, exec (.gdecn .w8) (rd "100") = .next t :=
  ⟨by decide, _, rfl⟩

theorem witness_FailingSourceReadComesFirst :
    (readFails (sr [1, 2, 3])).io.read = some ⟨1, 77⟩ ∧
    (Instr.rread = .rread ∨ (∃ b opv, Instr.rread = .bload b opv) ∨ (∃ w, Instr.rread = .vbdec1 w) ∨
      ∃ w, Instr.rread = .vbdecs w) := ⟨rfl, .inl rfl⟩

/-! ## Witnesses: bit buffer -/

/-- The last bit that fits, and the first that does not. -/
theorem witness_PushAppendsOneBit :
    (Inv (full 15) ∧ FitsBits (full 15).capb (((full 15).buf .wbuf).len + 1)) ∧
    (Inv (full 16) ∧ ¬ FitsBits (full 16).capb (((full 16).buf .rbuf).len + 1)) :=
  ⟨⟨by decide, fits_bits (by decide)⟩, by decide, full_bits (by decide)⟩

theorem witness_PushbAppendsAnAlignedByte :
    (Inv (full 8) ∧ FitsBytes (full 8).capb ((((full 8).buf .wbuf).len + 7) / 8 + 1)) ∧
    (Inv (full 9) ∧ ¬ FitsBytes (full 9).capb ((((full 9).buf .rbuf).len + 7) / 8 + 1)) :=
  ⟨⟨by decide, fits_bytes (by decide)⟩, by decide, full_bytes (by decide)⟩

/-- No bit, all 128 bits, and one bit too many. -/
theorem witness_ExtAppendsTheLowBits :
    (Inv (full 16) ∧ 0 ≤ 128 ∧ FitsBits (full 16).capb (((full 16).buf .wbuf).len + 0)) ∧
    (Inv State.reset ∧ 128 ≤ 128 ∧ FitsBits State.reset.capb ((State.reset.buf .rbuf).len + 128)) ∧
    (Inv (full 10) ∧ 7 ≤ 128 ∧ ¬ FitsBits (full 10).capb (((full 10).buf .wbuf).len + 7)) :=
  ⟨⟨by decide, by decide, fits_bits (by decide)⟩, ⟨by decide, by decide, fits_bits (by decide)⟩,
    by decide, by decide, full_bits (by decide)⟩

/-- A failing read; both ends of the range of lengths (two bytes, no byte), too many bytes, and a length on each side. -/
theorem witness_BloadLoadsAnExactLength :
    (Inv (sr [0x97, 0x88]) ∧ (sr [0x97, 0x88]).io.read = none ∧
      FitsBytes (sr [0x97, 0x88]).capb 2 ∧ 8 * (((sr [0x97, 0x88]).src.length : Int) - 1) ≤ (8 : Nat) ∧
      ((16 : Nat) : Int) ≤ 8 * (sr [0x97, 0x88]).src.length) ∧
    (8 * (((sr []).src.length : Int) - 1) ≤ (0 : Nat) ∧ ((0 : Nat) : Int) ≤ 8 * (sr []).src.length) ∧
    ¬ FitsBytes (full 0).capb ({ full 0 with src := [1, 2, 3] } : State).src.length ∧
    ¬ (8 * (((sr [0x97, 0x88]).src.length : Int) - 1) ≤ (7 : Nat) ∧
      ((7 : Nat) : Int) ≤ 8 * (sr [0x97, 0x88]).src.length) ∧
    ¬ (8 * (((sr [0x97, 0x88]).src.length : Int) - 1) ≤ (17 : Nat) ∧
      ((17 : Nat) : Int) ≤ 8 * (sr [0x97, 0x88]).src.length) ∧
    Inv (readFails (sr [1, 2, 3])) ∧ (readFails (sr [1, 2, 3])).io.read = some ⟨1, 77⟩ :=
  ⟨⟨by decide, rfl, fits_bytes (by decide), by decide, by decide⟩, by decide, full_bytes (by decide),
    by decide, by decide, by decide, rfl⟩

/-- A payload of 13 bits, and none. -/
theorem witness_BloadInvertsPack :
    (Inv (sr [0x97, 0x88]) ∧ (sr [0x97, 0x88]).io.read = none ∧
      (sr [0x97, 0x88]).src = pack (bitsOf "1001011110001") ∧ FitsBytes (sr [0x97, 0x88]).capb 2 ∧
      (bitsOf "1001011110001").length < 2 ^ 128) ∧
    (sr []).src = pack [] :=
  ⟨⟨by decide, rfl, by decide, fits_bytes (by decide), by decide⟩, by decide⟩

theorem witness_TobytesAnswersThePackedBits : Inv (wr "1001011110001") := by decide

/-- An empty buffer and one that is not; a capacity that 128 bits hold, the first that they do not, and
no capacity. -/
theorem witness_LenIsemptyCapAnswer :
    ((wr "").buf .wbuf).len = 0 ∧ ((wr "1").buf .wbuf).len ≠ 0 ∧
    ((full 0).capb = .bytes 2 ∧ 8 * 2 < 2 ^ 128) ∧
    (({ State.reset with capb := .bytes (2 ^ 125) } : State).capb = .bytes (2 ^ 125) ∧
      2 ^ 128 ≤ 8 * 2 ^ 125) ∧
    State.reset.capb = .unbounded :=
  ⟨by decide, by decide, ⟨rfl, by decide⟩, ⟨rfl, by decide⟩, rfl⟩

theorem witness_ReserveAsksForRoom :
    FitsBits (full 10).capb (((full 10).buf .wbuf).len + (6 : Quad).toNat) ∧
    ¬ FitsBits (full 10).capb (((full 10).buf .wbuf).len + (7 : Quad).toNat) :=
  ⟨fits_bits (by decide), full_bits (by decide)⟩

/-! ## Witnesses: writer and reader -/

theorem witness_WfinEmitsTheEncodedStream :
    ((wr "1011010").io.write = none ∧ (wr "1011010").io.flush = none ∧ (wr "1011010").wbuf.len ≠ 0) ∧
    (wr "").wbuf.len = 0 ∧
    ((writeFails (wr "101")).wbuf.len ≠ 0 ∧ (writeFails (wr "101")).io.write = some ⟨1, 77⟩) ∧
    ((flushFails (wr "101")).wbuf.len ≠ 0 ∧ (flushFails (wr "101")).io.write = none ∧
      (flushFails (wr "101")).io.flush = some 77) := by decide

/-- No byte, no sentinel, and the sentinel at bit 0 and at bit 7. -/
theorem witness_RreadRecoversTheBits :
    (Inv (sr []) ∧ (sr []).io.read = none ∧ FitsBytes (sr []).capb 0 ∧ (sr []).src = []) ∧
    (Inv { sr [0xE2] with ctrl := 1 } ∧ (sr [0xE2]).src ≠ [] ∧
      ({ sr [0xE2] with ctrl := 1 } : State).ctrl.getLsbD 1 = false) ∧
    (Inv (sr [0xB5]) ∧ (sr [0xB5]).ctrl.getLsbD 1 = true ∧
      unpack (sr [0xB5]).src = bitsOf "1011010" ++ [true] ++ List.replicate 0 false) ∧
    unpack (sr [0x80]).src = [] ++ [true] ++ List.replicate 7 false :=
  ⟨⟨by decide, rfl, fits_bytes (by decide), rfl⟩, by decide, by decide, by decide⟩

/-- A failing read, too many bytes, no sentinel. -/
theorem witness_RreadRecoversTheBits_errors :
    (Inv (readFails (sr [1, 2, 3])) ∧ (readFails (sr [1, 2, 3])).io.read = some ⟨1, 77⟩) ∧
    (Inv { full 0 with src := [1, 2, 3] } ∧ ({ full 0 with src := [1, 2, 3] } : State).io.read = none ∧
      ¬ FitsBytes (full 0).capb ({ full 0 with src := [1, 2, 3] } : State).src.length) ∧
    (Inv (sr [0xFF, 0]) ∧ (sr [0xFF, 0]).io.read = none ∧ FitsBytes (sr [0xFF, 0]).capb (sr [0xFF, 0]).src.length ∧
      (sr [0xFF, 0]).ctrl.getLsbD 1 = true ∧ ∃ l, (sr [0xFF, 0]).src = l ++ [0x00]) :=
  ⟨⟨by decide, rfl⟩, ⟨by decide, rfl, full_bytes (by decide)⟩, by decide, rfl, fits_bytes (by decide),
    by decide, [0xFF], rfl⟩

/-- With and without the sentinel, and a payload that fills its last byte. -/
theorem witness_FramingRoundTrip :
    (Inv (wr "10110100") ∧ (wr "10110100").src = [] ∧ (wr "10110100").snk = [] ∧
      (wr "10110100").io = .allOk ∧ FitsBytes (wr "10110100").capb ((wr "10110100").wbuf.len / 8 + 1) ∧
      (wr "10110100").ctrl = 3) ∧
    (Inv { wr "10110" with ctrl := 0 } ∧ ({ wr "10110" with ctrl := 0 } : State).ctrl = 0) :=
  ⟨⟨by decide, rfl, rfl, rfl, fits_bytes (by decide), rfl⟩, by decide, rfl⟩

/-! ## Witnesses: the codecs -/

theorem witness_UencAppendsTheUnaryCodeword :
    (Inv (full 12) ∧ 3 = (0x103 : Quad).toNat % 2 ^ Width.w8.bits ∧
      FitsBits (full 12).capb ((full 12).wbuf.len + (3 + 1))) ∧
    (Inv (full 13) ∧ ¬ FitsBits (full 13).capb ((full 13).wbuf.len + (3 + 1))) :=
  ⟨⟨by decide, by decide, fits_bits (by decide)⟩, by decide, full_bits (by decide)⟩

/-- Zero; the values 8 and 15 at the two ends of `L` = 3; room and no room. -/
theorem witness_GencAppendsTheGammaCodeword :
    (Inv (full 9) ∧ 0 = (0x100 : Quad).toNat % 2 ^ Width.w8.bits) ∧
    (8 = (8 : Quad).toNat % 2 ^ Width.w8.bits ∧ 2 ^ 3 ≤ 8 ∧ 8 < 2 ^ (3 + 1)) ∧
    (15 = (15 : Quad).toNat % 2 ^ Width.w8.bits ∧ 2 ^ 3 ≤ 15 ∧ 15 < 2 ^ (3 + 1)) ∧
    FitsBits (full 9).capb ((full 9).wbuf.len + (2 * 3 + 1)) ∧
    Inv (full 10) ∧ ¬ FitsBits (full 10).capb ((full 10).wbuf.len + (2 * 3 + 1)) :=
  ⟨by decide, by decide, by decide, fits_bits (by decide), by decide, full_bits (by decide)⟩

/-- Zero; the value 1 (`N` = 1, `M` = 0) and the value 9 (`N` = 4, `M` = 2); room and no room. -/
theorem witness_DencAppendsTheDeltaCodeword :
    (Inv (full 8) ∧ 0 = (0 : Quad).toNat % 2 ^ Width.w8.bits) ∧
    (1 = (1 : Quad).toNat % 2 ^ Width.w8.bits ∧ 1 ≤ 1 ∧ 2 ^ (1 - 1) ≤ 1 ∧ 1 < 2 ^ 1 ∧ 2 ^ 0 ≤ 1 ∧
      1 < 2 ^ (0 + 1)) ∧
    (9 = (9 : Quad).toNat % 2 ^ Width.w8.bits ∧ 1 ≤ 4 ∧ 2 ^ (4 - 1) ≤ 9 ∧ 9 < 2 ^ 4 ∧ 2 ^ 2 ≤ 4 ∧
      4 < 2 ^ (2 + 1)) ∧
    FitsBits (full 8).capb ((full 8).wbuf.len + (2 * 2 + 4)) ∧
    Inv (full 9) ∧ ¬ FitsBits (full 9).capb ((full 9).wbuf.len + (2 * 2 + 4)) :=
  ⟨by decide, by decide, by decide, fits_bits (by decide), by decide, full_bits (by decide)⟩

/-- A state with these bits in the reader. -/
def withRem (x : List Bool) : State := { State.reset with rbuf := Buffer.empty.appendBits x }

theorem withRem_rem (x : List Bool) : (withRem x).rem = x := by
  have hw : Memory.wf Buffer.empty.mem := ⟨List.Pairwise.nil, by simp [Buffer.empty]⟩
  rw [State.rem, Buffer.slice]
  change subseq (Buffer.empty.appendBits x).bits 0 (Buffer.empty.appendBits x).len = x
  rw [← Buffer.bits_length, subseq_to_end, Buffer.appendBits_bits hw]
  simp

/-- The largest value of 8 bits, the smallest too large, and no bits at all. -/
theorem witness_Udec1DecodesExactlyOne :
    ((0 : Nat) ≤ 255 ∧ 255 ≤ 2 ^ Width.w8.bits - 1 ∧ (withRem (unaryWord 255)).rem = unaryWord 255) ∧
    ((0 : Nat) ≤ 256 ∧ 2 ^ Width.w8.bits - 1 < 256 ∧ (withRem (unaryWord 256)).rem = unaryWord 256) ∧
    ∀ v, 0 ≤ v → (withRem []).rem ≠ unaryWord v :=
  ⟨⟨by decide, by decide, withRem_rem _⟩, ⟨by decide, by decide, withRem_rem _⟩,
    fun v _ => by rw [withRem_rem]; exact (unaryWord_ne_nil v).symm⟩

theorem witness_UdecnTakesOneCodeword :
    (255 ≤ 2 ^ Width.w8.bits - 1 ∧
      (withRem (unaryWord 255 ++ [true])).rem = unaryWord 255 ++ [true]) ∧
    (2 ^ Width.w8.bits - 1 < 256 ∧
      (withRem (unaryWord 256 ++ [true])).rem = unaryWord 256 ++ [true]) ∧
    ∀ v rest, 0 ≤ v → (withRem []).rem ≠ unaryWord v ++ rest :=
  ⟨⟨by decide, withRem_rem _⟩, ⟨by decide, withRem_rem _⟩,
    fun v rest _ => by rw [withRem_rem]; simp [unaryWord]⟩

/-- Two values and no tail; a tail too large; a tail with no codeword; and no bits at all. -/
theorem witness_UdecsDecodesTheWholeStream :
    (∀ v ∈ [3, 255], 0 ≤ v ∧ v ≤ 2 ^ Width.w8.bits - 1) ∧
    (withRem ([3, 255].flatMap unaryWord ++ [])).rem = [3, 255].flatMap unaryWord ++ [] ∧
    (withRem ([3].flatMap unaryWord ++ (unaryWord 256 ++ []))).rem =
      [3].flatMap unaryWord ++ (unaryWord 256 ++ []) ∧ 2 ^ Width.w8.bits - 1 < 256 ∧
    (withRem ([3].flatMap unaryWord ++ [true])).rem = [3].flatMap unaryWord ++ [true] ∧
    (∀ v rest, 0 ≤ v → [true] ≠ unaryWord v ++ rest) ∧
    (withRem ([].flatMap unaryWord ++ [])).rem = [].flatMap unaryWord ++ [] :=
  ⟨by decide, withRem_rem _, withRem_rem _, by decide, withRem_rem _,
    fun v rest _ h => by
      cases v <;> simp [unaryWord, List.replicate_succ] at h, withRem_rem _⟩

/-- The value 1, the largest value of 8 bits, the smallest too large, and no bits at all. -/
theorem witness_Gdec1DecodesExactlyOne :
    (1 ≤ 1 ∧ 1 ≤ 2 ^ (Width.w8.bits - 1) - 1 ∧ (withRem (gammaWord 1)).rem = gammaWord 1) ∧
    (127 ≤ 2 ^ (Width.w8.bits - 1) - 1 ∧ (withRem (gammaWord 127)).rem = gammaWord 127) ∧
    (2 ^ (Width.w8.bits - 1) - 1 < 128 ∧ (withRem (gammaWord 128)).rem = gammaWord 128) ∧
    ∀ v, 1 ≤ v → (withRem []).rem ≠ gammaWord v :=
  ⟨⟨by decide, by decide, withRem_rem _⟩, ⟨by decide, withRem_rem _⟩, ⟨by decide, withRem_rem _⟩,
    fun v _ => by rw [withRem_rem]; exact (gammaWord_ne_nil v).symm⟩

theorem witness_GdecnTakesOneCodeword :
    (127 ≤ 2 ^ (Width.w8.bits - 1) - 1 ∧
      (withRem (gammaWord 127 ++ [true])).rem = gammaWord 127 ++ [true]) ∧
    (2 ^ (Width.w8.bits - 1) - 1 < 128 ∧
      (withRem (gammaWord 128 ++ [true])).rem = gammaWord 128 ++ [true]) ∧
    ∀ v rest, 1 ≤ v → (withRem []).rem ≠ gammaWord v ++ rest :=
  ⟨⟨by decide, withRem_rem _⟩, ⟨by decide, withRem_rem _⟩,
    fun v rest _ => by rw [withRem_rem]; simp [gammaWord]⟩

theorem witness_GdecsDecodesTheWholeStream :
    (∀ v ∈ [1, 127], 1 ≤ v ∧ v ≤ 2 ^ (Width.w8.bits - 1) - 1) ∧
    (withRem ([1, 127].flatMap gammaWord ++ [])).rem = [1, 127].flatMap gammaWord ++ [] ∧
    (withRem ([1].flatMap gammaWord ++ (gammaWord 128 ++ []))).rem =
      [1].flatMap gammaWord ++ (gammaWord 128 ++ []) ∧ 2 ^ (Width.w8.bits - 1) - 1 < 128 ∧
    (withRem ([1].flatMap gammaWord ++ [true])).rem = [1].flatMap gammaWord ++ [true] ∧
    ∀ v rest, 1 ≤ v → [true] ≠ gammaWord v ++ rest :=
  ⟨by decide, withRem_rem _, withRem_rem _, by decide, withRem_rem _, fun v rest _ h => by
      rw [gammaWord] at h
      generalize bitlen v - 1 = k at h
      cases k <;> simp [List.replicate_succ] at h⟩

theorem witness_Ddec1DecodesExactlyOne :
    (1 ≤ 1 ∧ 1 ≤ 2 ^ (Width.w8.bits - 1) - 1 ∧ (withRem (deltaWord 1)).rem = deltaWord 1) ∧
    (127 ≤ 2 ^ (Width.w8.bits - 1) - 1 ∧ (withRem (deltaWord 127)).rem = deltaWord 127) ∧
    (2 ^ (Width.w8.bits - 1) - 1 < 128 ∧ (withRem (deltaWord 128)).rem = deltaWord 128) ∧
    ∀ v, 1 ≤ v → (withRem []).rem ≠ deltaWord v :=
  ⟨⟨by decide, by decide, withRem_rem _⟩, ⟨by decide, withRem_rem _⟩, ⟨by decide, withRem_rem _⟩,
    fun v _ => by rw [withRem_rem]; exact (deltaWord_ne_nil v).symm⟩

theorem witness_DdecnTakesOneCodeword :
    (127 ≤ 2 ^ (Width.w8.bits - 1) - 1 ∧
      (withRem (deltaWord 127 ++ [true])).rem = deltaWord 127 ++ [true]) ∧
    (2 ^ (Width.w8.bits - 1) - 1 < 128 ∧
      (withRem (deltaWord 128 ++ [true])).rem = deltaWord 128 ++ [true]) ∧
    ∀ v rest, 1 ≤ v → (withRem []).rem ≠ deltaWord v ++ rest :=
  ⟨⟨by decide, withRem_rem _⟩, ⟨by decide, withRem_rem _⟩,
    fun v rest _ => by rw [withRem_rem]; simp [deltaWord, gammaWord]⟩

theorem witness_DdecsDecodesTheWholeStream :
    (∀ v ∈ [1, 127], 1 ≤ v ∧ v ≤ 2 ^ (Width.w8.bits - 1) - 1) ∧
    (withRem ([1, 127].flatMap deltaWord ++ [])).rem = [1, 127].flatMap deltaWord ++ [] ∧
    (withRem ([1].flatMap deltaWord ++ (deltaWord 128 ++ []))).rem =
      [1].flatMap deltaWord ++ (deltaWord 128 ++ []) ∧ 2 ^ (Width.w8.bits - 1) - 1 < 128 ∧
    (withRem ([1].flatMap deltaWord ++ [true])).rem = [1].flatMap deltaWord ++ [true] ∧
    ∀ v rest, 1 ≤ v → [true] ≠ deltaWord v ++ rest :=
  ⟨by decide, withRem_rem _, withRem_rem _, by decide, withRem_rem _, fun v rest _ h => by
      rw [deltaWord, gammaWord] at h
      generalize bitlen (bitlen v) - 1 = k at h
      cases k <;> simp [List.replicate_succ] at h⟩

/-- What the three stream round trips ask of the state, which is the same. -/
theorem roundTrip_start : Inv State.reset ∧ State.reset.wbuf.len = 0 ∧ State.reset.ctrl = 3 ∧
    State.reset.src = [] ∧ State.reset.snk = [] ∧ ∀ n, FitsBytes State.reset.capb n :=
  ⟨by decide, rfl, rfl, rfl, rfl, fun _ _ h => by cases h⟩

theorem witness_UnaryStreamRoundTrip : Inv State.reset ∧ [3, 0, 255] ≠ [] ∧
    (∀ v ∈ [3, 0, 255], 0 ≤ v ∧ v ≤ 2 ^ Width.w8.bits - 1) ∧
    FitsBytes State.reset.capb (([3, 0, 255].flatMap unaryWord).length / 8 + 1) ∧
    (withRem (unaryWord 255)).rem = unaryWord 255 ∧ unaryWord 255 ++ [] = unaryWord 255 ∧
    (withRem ([3, 0, 255].flatMap unaryWord)).rem = [3, 0, 255].flatMap unaryWord :=
  ⟨reset_inv, by decide, by decide, roundTrip_start.2.2.2.2.2 _, withRem_rem _, List.append_nil _,
    withRem_rem _⟩

theorem witness_GammaStreamRoundTrip : Inv State.reset ∧ [2, 3, 127] ≠ [] ∧
    (∀ v ∈ [2, 3, 127], 1 ≤ v ∧ v ≤ 2 ^ (Width.w8.bits - 1) - 1) ∧
    FitsBytes State.reset.capb (([2, 3, 127].flatMap gammaWord).length / 8 + 1) ∧
    (withRem (gammaWord 127)).rem = gammaWord 127 ∧ gammaWord 127 ++ [] = gammaWord 127 ∧
    (withRem ([2, 3, 127].flatMap gammaWord)).rem = [2, 3, 127].flatMap gammaWord :=
  ⟨reset_inv, by decide, by decide, roundTrip_start.2.2.2.2.2 _, withRem_rem _, List.append_nil _,
    withRem_rem _⟩

theorem witness_DeltaStreamRoundTrip : Inv State.reset ∧ [9, 1, 127] ≠ [] ∧
    (∀ v ∈ [9, 1, 127], 1 ≤ v ∧ v ≤ 2 ^ (Width.w8.bits - 1) - 1) ∧
    FitsBytes State.reset.capb (([9, 1, 127].flatMap deltaWord).length / 8 + 1) ∧
    (withRem (deltaWord 127)).rem = deltaWord 127 ∧ deltaWord 127 ++ [] = deltaWord 127 ∧
    (withRem ([9, 1, 127].flatMap deltaWord)).rem = [9, 1, 127].flatMap deltaWord :=
  ⟨reset_inv, by decide, by decide, roundTrip_start.2.2.2.2.2 _, withRem_rem _, List.append_nil _,
    withRem_rem _⟩

theorem witness_ExactDecodersAreFullPeels :
    peelU 8 (bitsOf "1110") = .ok (3, 4) ∧ peelG 8 (bitsOf "1001") = .ok (2, 3) ∧
    peelD 8 (bitsOf "11000001") = .ok (9, 8) := by decide

/-! ## Witnesses: Variable-Byte and numeric support -/

theorem witness_VbencWritesTheByteGroup :
    State.reset.io.write = none ∧ (writeFails State.reset).io.write = some ⟨1, 77⟩ := by decide

/-- The largest value of 8 bits, the smallest too large, and a group with a high bit too early. -/
theorem witness_Vbdec1DecodesExactlyOneGroup :
    ((sr [1, 0xFF]).io.read = none ∧ IsVbGroup (sr [1, 0xFF]).src ∧
      vbSum (sr [1, 0xFF]).src ≤ 2 ^ Width.w8.bits - 1) ∧
    (IsVbGroup (sr [2, 0x80]).src ∧ 2 ^ Width.w8.bits - 1 < vbSum (sr [2, 0x80]).src) ∧
    ¬ IsVbGroup (sr []).src ∧ (readFails (sr [1, 2])).io.read = some ⟨1, 77⟩ :=
  ⟨⟨rfl, ⟨[1], 0xFF, rfl, by decide, by decide⟩, by decide⟩,
    ⟨⟨[2], 0x80, rfl, by decide, by decide⟩, by decide⟩,
    fun ⟨i, l, h, _⟩ => by simp [sr] at h, rfl⟩

theorem witness_VbdecsDecodesTheWholeStream :
    ((sr [0x85, 1, 0xFF]).io.read = none ∧
      (∀ g ∈ [[(0x85 : Byte)], [1, 0xFF]], IsVbGroup g ∧ vbSum g ≤ 2 ^ Width.w8.bits - 1) ∧
      (sr [0x85, 1, 0xFF]).src = [[(0x85 : Byte)], [1, 0xFF]].flatten ++ []) ∧
    (IsVbGroup [(2 : Byte), 0x80] ∧ 2 ^ Width.w8.bits - 1 < vbSum [(2 : Byte), 0x80] ∧
      (sr [2, 0x80, 6]).src = ([] : List (List Byte)).flatten ++ ([2, 0x80] ++ [6])) ∧
    ((sr [0x85, 6]).src = [[(0x85 : Byte)]].flatten ++ [6] ∧ [(6 : Byte)] ≠ [] ∧
      ∀ y ∈ [(6 : Byte)], y.getLsbD 7 = false) ∧
    (readFails (sr [1, 2])).io.read = some ⟨1, 77⟩ :=
  ⟨⟨rfl, by
      intro g hg
      simp only [List.mem_cons, List.not_mem_nil, or_false] at hg
      rcases hg with rfl | rfl
      · exact ⟨⟨[], 0x85, rfl, by decide, by decide⟩, by decide⟩
      · exact ⟨⟨[1], 0xFF, rfl, by decide, by decide⟩, by decide⟩, by decide⟩,
    ⟨⟨[2], 0x80, rfl, by decide, by decide⟩, by decide, by decide⟩, by decide, rfl⟩

theorem witness_VarByteStreamRoundTrip :
    (State.reset.src = [] ∧ State.reset.snk = [] ∧ [5, 824] ≠ [] ∧
      ∀ v ∈ [5, 824], v ≤ 2 ^ Width.w16.bits - 1) ∧
    (IsVbGroup [(6 : Byte), 0xB8] ∧ ([(6 : Byte), 0xB8].head? ≠ some 0)) ∧
    (IsVbGroup [(0x80 : Byte)] ∧ [(0x80 : Byte)].length = 1) :=
  ⟨by decide, ⟨⟨[6], 0xB8, rfl, by decide, by decide⟩, by decide⟩,
    ⟨[], 0x80, rfl, by decide, by decide⟩, rfl⟩

theorem witness_ClzCountsLeadingZeros :
    (1 = (1 : Quad).toNat % 2 ^ Width.w128.bits ∧ 2 ^ 0 ≤ 1 ∧ 1 < 2 ^ (0 + 1)) ∧
    (255 = (255 : Quad).toNat % 2 ^ Width.w8.bits ∧ 2 ^ 7 ≤ 255 ∧ 255 < 2 ^ (7 + 1)) ∧
    0 = (0x100 : Quad).toNat % 2 ^ Width.w8.bits := by decide

theorem witness_TopFindsTheLeastSetBit :
    (7 < 8 ∧ (0x80 : Quad).getLsbD 7 = true ∧ ∀ j, j < 7 → (0x80 : Quad).getLsbD j = false) ∧
    ∀ j, j < 8 → (0x100 : Quad).getLsbD j = false := by decide

theorem witness_ListFormStopsAtTheFirstError :
    (Instr.genc .w8 2).WellFormed ∧
    said (issue (.genc .w8 2) .allOk State.reset) = some (.ok, 3, []) ∧
    said (issue (.genc .w8 0) .allOk State.reset) = some (.zeroInputError, 0, []) ∧
    (∀ k, k < [(5 : Quad)].length → (failsAt 1 k).write = none) ∧
    (failsAt 1 [(5 : Quad)].length).write = some ⟨1, 77⟩ := by decide

/-- The groups of 5 and 824 are R206's examples; the second write fails after one byte, and the third
command of the list is not run. -/
theorem test_listForm_laterWriteFails :
    left (·.snk) (runPseudo (.vbencList .w32 [5, 824, 5]) (failsAt 1) State.reset) =
      some [.byte 0x85, .byte 0x06] ∧
    said (runPseudo (.vbencList .w32 [5, 824, 5]) (failsAt 1) State.reset) =
      some (.ioError, 77, []) := by decide

end Sys2Proof.Machine
end

section
/-! Proofs about the step: what a command at the front of the port does. -/

namespace Sys2Proof.Machine

/-- A command at the front of the port is accepted and run (70_reset_and_hazards.md R276). -/
theorem step_of_port_command {s : State} {c : Command} {io : IoChoice} {rest : List HostInput}
    (h : s.port = .command c io :: rest) : step s = runCommand c (acceptCommand io rest s) := by
  simp only [step, h]

/-- A legal command runs as the instruction its word decodes to (30_encoding.md R85). -/
theorem runCommand_of_decode_ok {c : Command} {i : Instr} (h : decode c = .ok i) (s : State) :
    runCommand c s = exec i s := by
  simp only [runCommand, h]

/-- Settles O5: the step accepts the command and runs its word, and the word's run is `exec`. The state
after `acceptCommand` is, by definition, the one the statement writes out. -/
theorem stepRunsTheDecodedCommand : Obligations.StepRunsTheDecodedCommand := by
  intro s c io rest i hport hdecode
  calc step s
      _ = runCommand c (acceptCommand io rest s) := step_of_port_command hport
      _ = exec i (acceptCommand io rest s) := runCommand_of_decode_ok hdecode _

end Sys2Proof.Machine
end

section
/-! Proofs about the invariant: reset gives the table of 10_state.md R34 and meets the invariant, and
every step keeps it. A command is taken by the ways it can end (`Ends`). -/

namespace Sys2Proof.Machine

/-! ### What the named state updates keep -/

theorem respOk_some {c : Code} {l : List Quad} (q : Quad) (h : c = .ok ∨ l = []) :
    RespOk (some ⟨c, q, l⟩) := by
  rintro r ⟨⟩
  exact h

theorem Inv.answer {s : State} (h : Inv s) (n : Nat) : Inv (answer .ok n [] s) := by
  obtain ⟨hcap, hw, hr, hcur, hctrl, hstatus, -⟩ := h
  exact ⟨hcap, hw, hr, hcur, hctrl, hstatus, respOk_some _ (.inl rfl)⟩

theorem Inv.respond {s : State} (h : Inv s) {c : Code} {l : List Quad} (n : Nat)
    (hl : c = .ok ∨ l = []) : Inv (respond c n l s) := by
  obtain ⟨hcap, hw, hr, hcur, hctrl, hstatus, -⟩ := h
  exact ⟨hcap, hw, hr, hcur, hctrl, recordStatus_ok hstatus c, respOk_some _ hl⟩

theorem Inv.respond_ok {s : State} (h : Inv s) (n : Nat) (l : List Quad) :
    Inv (Machine.respond .ok n l s) := h.respond n (.inl rfl)

theorem Inv.raise {s : State} (h : Inv s) (c : Code) (n : Nat) : Inv (raise c n s) :=
  h.respond n (.inr rfl)

/-- The streams take no part in the invariant. -/
theorem Inv.withStreams {s : State} (h : Inv s) (src : List Byte) (snk : List SinkEvent) :
    Inv { s with src := src, snk := snk } := h

/-- A cursor within the reader's bits (10_state.md R23). -/
theorem Inv.withCur {s : State} (h : Inv s) {n : Nat} (hn : n ≤ s.rbuf.len) :
    Inv { s with cur := n } := by
  obtain ⟨hcap, hw, hr, -, hrest⟩ := h
  exact ⟨hcap, hw, hr, hn, hrest⟩

/-- A buffer that has not become shorter, so that the cursor stays within it. -/
theorem Inv.setBuf {s : State} (h : Inv s) {b : Buf} {B : Buffer} (hB : Buffer.Ok s.capb B)
    (hlen : (s.buf b).len ≤ B.len) : Inv (s.setBuf b B) := by
  obtain ⟨hcap, hw, hr, hcur, hrest⟩ := h
  cases b with
  | wbuf => exact ⟨hcap, hB, hr, hcur, hrest⟩
  | rbuf => exact ⟨hcap, hw, hB, Nat.le_trans hcur hlen, hrest⟩

/-- Any buffer, with the cursor set back on the reader side. -/
theorem Inv.setBuf_rewind {s : State} (h : Inv s) {b : Buf} {B : Buffer} (hB : Buffer.Ok s.capb B) :
    Inv ((s.setBuf b B).rewind b) := by
  obtain ⟨hcap, hw, hr, hcur, hrest⟩ := h
  cases b with
  | wbuf => exact ⟨hcap, hB, hr, hcur, hrest⟩
  | rbuf => exact ⟨hcap, hw, hB, Nat.zero_le _, hrest⟩

theorem Inv.resetBlock {s : State} (h : Inv s) : Inv (resetBlock s) := by
  obtain ⟨hcap, hw, hr, -, -, -, hresp⟩ := h
  exact ⟨hcap, Buffer.cleared_ok hw, Buffer.cleared_ok hr, Nat.zero_le _,
    (by decide : CtrlOk 0x00000003), statusOk_zero, hresp⟩

theorem Inv.hardReset {s : State} (h : Inv s) (rest : List HostInput) : Inv (hardReset rest s) := by
  obtain ⟨hcap, hw, hr, hcur, hctrl, hstatus, -⟩ := h.resetBlock
  exact ⟨hcap, hw, hr, hcur, hctrl, hstatus, fun _ hr => nomatch hr⟩

/-! ### Every command and every step keeps the invariant -/

/-- `SetBuffer` of a length within the bits of a source that fits keeps a buffer's invariant. -/
theorem Buffer.set_ok_of_source {c : Capacity} {B : Buffer} (h : Buffer.Ok c B) {bytes src : List Byte}
    {L : Nat} (hfits : FitsBytes c src.length) (hbytes : L ≤ 8 * bytes.length)
    (hsrc : L ≤ 8 * src.length) : Buffer.Ok c (B.set bytes L) :=
  Buffer.set_ok h bytes L hbytes (fitsBytes_mono hfits (by omega))

theorem Ends.inv {i : Instr} {s t : State} (h : Ends i s t) (hs : Inv s) : Inv t := by
  cases h with
  | answered r _ => exact hs.answer _
  | blockReset _ => exact hs.resetBlock.respond_ok _ _
  | control ctl _ =>
    refine Inv.respond_ok ?_ _ _
    obtain ⟨hcap, hw, hr, hcur, hctrl, hrest⟩ := hs
    exact ⟨hcap, hw, hr, hcur, writeCtl_ok hctrl ctl, hrest⟩
  | queried n l _ => exact hs.respond_ok n l
  | failed c n _ _ _ => exact hs.raise c n
  | appended b x n _ hfits =>
    have hB := Buffer.appendBits_ok (hs.buf b) x hfits
    exact (hs.setBuf hB (by simp)).respond_ok _ _
  | byteAppended b y n _ hfits =>
    have hB := Buffer.appendByte_ok (hs.buf b) y hfits
    refine (hs.setBuf hB ?_).respond_ok _ _
    rw [Buffer.appendByte_len, Buffer.nbytes]
    omega
  | cleared b _ => exact (hs.setBuf_rewind (Buffer.cleared_ok (hs.buf b))).respond_ok _ _
  | sourceFailed f _ _ => exact (hs.withStreams _ _).raise _ _
  | sourceRefused c n _ _ _ _ => exact (hs.withStreams [] s.snk).raise c n
  | loaded b opv _ _ hfits hL =>
    have hB := Buffer.set_ok_of_source (hs.buf b) hfits hL hL
    exact (Inv.setBuf_rewind (hs.withStreams [] s.snk) hB).respond_ok _ _
  | readEmpty _ _ =>
    exact (Inv.setBuf_rewind (b := .rbuf) (hs.withStreams [] s.snk)
      (Buffer.cleared_ok (hs.buf .rbuf))).respond_ok _ _
  | readStream bytes L _ _ hfits hbytes hL =>
    have hB := Buffer.set_ok_of_source (hs.buf .rbuf) hfits hbytes hL
    exact (Inv.setBuf_rewind (b := .rbuf) (hs.withStreams [] s.snk) hB).respond_ok _ _
  | finished _ _ _ =>
    exact (Inv.setBuf_rewind (b := .wbuf) (hs.withStreams s.src _)
      (Buffer.cleared_ok (hs.buf .wbuf))).respond_ok _ _
  | sinkFailed out k n _ => exact (hs.withStreams s.src _).raise _ _
  | emitted w opv _ _ => exact (hs.withStreams s.src _).respond_ok _ _
  | decodedBytes n l _ _ => exact (hs.withStreams [] s.snk).respond_ok n l
  | advanced n used _ _ hused =>
    rw [State.rem_length] at hused
    have hcur : s.cur ≤ s.rbuf.len := hs.2.2.2.1
    exact (hs.withCur (by omega)).respond_ok _ _
  | decodedStream n l _ => exact (hs.withCur (Nat.le_refl _)).respond_ok _ _

theorem exec_keeps_inv {i : Instr} {s t : State} (hs : Inv s) (h : exec i s = .next t) : Inv t :=
  (ends_of_exec h).inv hs

/-- The run of a command word: a legal one runs, an illegal one raises. -/
theorem runCommand_keeps_inv {c : Command} {s t : State} (hs : Inv s)
    (h : runCommand c s = .next t) : Inv t := by
  rcases hc : decode c with e | i
  · simp only [runCommand, hc] at h
    cases h
    exact hs.raise _ _
  · rw [runCommand_of_decode_ok hc] at h
    exact exec_keeps_inv hs h

/-- Every way a step can answer a next state (70_reset_and_hazards.md R276). -/
theorem step_cases {s t : State} (h : step s = .next t) :
    t = s ∨
    (∃ c io rest, s.port = .command c io :: rest ∧ runCommand c (acceptCommand io rest s) = .next t) ∨
    (∃ bytes rest, s.port = .feed bytes :: rest ∧ t = feedSource bytes rest s) ∨
    (∃ n rest, s.port = .drain n :: rest ∧ t = drainSink n rest s) ∨
    (∃ rest, s.port = .loopBack :: rest ∧ t = loopBack rest s) ∨
    (∃ rest, s.port = .reset :: rest ∧ t = hardReset rest s) := by
  rcases hp : s.port with _ | ⟨input, rest⟩
  · simp only [step, hp] at h
    cases h
    exact .inl rfl
  · refine .inr ?_
    cases input <;> simp only [step, hp, reduceCtorEq] at h
    case command c io => exact .inl ⟨c, io, rest, rfl, h⟩
    case feed bytes =>
      cases h
      exact .inr (.inl ⟨bytes, rest, rfl, rfl⟩)
    case drain n =>
      cases h
      exact .inr (.inr (.inl ⟨n, rest, rfl, rfl⟩))
    case loopBack =>
      cases h
      exact .inr (.inr (.inr (.inl ⟨rest, rfl, rfl⟩)))
    case reset =>
      cases h
      exact .inr (.inr (.inr (.inr ⟨rest, rfl, rfl⟩)))

/-- Settles O4: the idle block changes nothing, the host's inputs touch only the streams and the port,
reset gives the table, and every command keeps the invariant. -/
theorem everyStepKeepsInvariant : Obligations.EveryStepKeepsInvariant := by
  intro s t hs h
  rcases step_cases h with rfl | ⟨c, io, rest, -, hrun⟩ | ⟨bytes, rest, -, rfl⟩ | ⟨n, rest, -, rfl⟩ |
    ⟨rest, -, rfl⟩ | ⟨rest, -, rfl⟩
  · exact hs
  · have haccepted : Inv (acceptCommand io rest s) := hs
    exact runCommand_keeps_inv haccepted hrun
  · exact hs.withStreams (s.src ++ bytes) s.snk
  · exact hs.withStreams s.src (s.snk.drop n)
  · exact hs.withStreams (s.src ++ s.snk.filterMap SinkEvent.byte?) []
  · exact hs.hardReset rest

/-! ### Reset -/

theorem step_of_port_reset {s : State} {rest : List HostInput} (h : s.port = .reset :: rest) :
    step s = .next (hardReset rest s) := by
  simp only [step, h]

theorem recordStatus_ok_zero : recordStatus .ok 0#32 = 0#32 := by decide

/-- Settles O1: hardware reset steps to `hardReset` and `SRESET` ends in `resetBlock` with `OK`; their
fields are the table. -/
theorem resetAndSoftResetGiveTheTable : Obligations.ResetAndSoftResetGiveTheTable := by
  constructor
  · intro s rest hport
    exact ⟨hardReset rest s, step_of_port_reset hport, by simp⟩
  · intro s
    exact ⟨respond .ok 0 [] (resetBlock s), rfl, respond_reports _ _ _ _,
      by simp [recordStatus_ok_zero]⟩

/-- Settles O3: the invariant is `reset_inv`, and the table's values are those `State.reset` writes. -/
theorem resetStateMeetsInvariant : Obligations.ResetStateMeetsInvariant :=
  ⟨reset_inv, rfl, rfl, rfl, rfl, rfl⟩

end Sys2Proof.Machine
end

section
/-! Proofs of noninterference, one argument for two claims: from states that differ only in their
buffers and in `STATUS`, related by relations that the machine's operations respect, every command ends
in states so related. With equality of buffers it says that no command depends on `STATUS` (10_state.md
R28); with equality of bit sequences, that a host can tell nothing else of a buffer (R22 clause e). -/

namespace Sys2Proof.Machine

/-! ### Related states -/

/-- What the relation `E` of buffers and the relation `S` of `STATUS` values must respect: related
buffers answer the same bits and bytes, and what is done to both alike leaves them related. -/
structure Respected (E : Buffer → Buffer → Prop) (S : Word → Word → Prop) : Prop where
  bits : ∀ {B C}, E B C → C.bits = B.bits
  bytes : ∀ {B C}, E B C → C.bytes = B.bytes
  appendBits : ∀ {B C}, E B C → ∀ x, E (B.appendBits x) (C.appendBits x)
  appendByte : ∀ {B C}, E B C → ∀ y, E (B.appendByte y) (C.appendByte y)
  set : ∀ {B C}, E B C → ∀ {bytes L}, L ≤ 8 * bytes.length → E (B.set bytes L) (C.set bytes L)
  cleared : ∀ {B C}, E B C → E B.cleared C.cleared
  record : ∀ {a b}, S a b → ∀ c, S (recordStatus c a) (recordStatus c b)
  zero : S 0 0

/-- `s'` is `s` but for related buffers and a related `STATUS`. -/
structure Alike (E : Buffer → Buffer → Prop) (S : Word → Word → Prop) (s s' : State) : Prop where
  wbuf : E s.wbuf s'.wbuf
  rbuf : E s.rbuf s'.rbuf
  status : S s.status s'.status
  rest : s' = { s with wbuf := s'.wbuf, rbuf := s'.rbuf, status := s'.status }

/-- Both results are next states, and these are alike. -/
def AlikeResults (E : Buffer → Buffer → Prop) (S : Word → Word → Prop) (r r' : Result) : Prop :=
  ∃ t t', r = .next t ∧ r' = .next t' ∧ Alike E S t t'

section

variable {E : Buffer → Buffer → Prop} {S : Word → Word → Prop} {s s' : State}

theorem Respected.len (hE : Respected E S) {B C : Buffer} (h : E B C) : C.len = B.len := by
  rw [← Buffer.bits_length, hE.bits h, Buffer.bits_length]

theorem Respected.nbytes (hE : Respected E S) {B C : Buffer} (h : E B C) : C.nbytes = B.nbytes := by
  rw [Buffer.nbytes, hE.len h, Buffer.nbytes]

theorem Alike.next (h : Alike E S s s') : AlikeResults E S (.next s) (.next s') := ⟨s, s', rfl, rfl, h⟩

/-! ### What alike states have in common -/

theorem Alike.buf (h : Alike E S s s') (b : Buf) : E (s.buf b) (s'.buf b) := by
  cases b
  · exact h.wbuf
  · exact h.rbuf

theorem Alike.cur_eq (h : Alike E S s s') : s'.cur = s.cur := by rw [h.rest]

theorem Alike.ctrl_eq (h : Alike E S s s') : s'.ctrl = s.ctrl := by rw [h.rest]

theorem Alike.src_eq (h : Alike E S s s') : s'.src = s.src := by rw [h.rest]

theorem Alike.snk_eq (h : Alike E S s s') : s'.snk = s.snk := by rw [h.rest]

theorem Alike.capb_eq (h : Alike E S s s') : s'.capb = s.capb := by rw [h.rest]

theorem Alike.io_eq (h : Alike E S s s') : s'.io = s.io := by rw [h.rest]

theorem Alike.quad_eq (h : Alike E S s s') (n : Nat) : s'.quad n = s.quad n := by
  rw [h.rest]
  rfl

theorem Alike.rem_eq (h : Alike E S s s') (hE : Respected E S) : s'.rem = s.rem := by
  rw [State.rem, Buffer.slice, hE.bits h.rbuf, hE.len h.rbuf, h.cur_eq, State.rem, Buffer.slice]

/-! ### What is done to both states alike leaves them alike -/

theorem Alike.answer (h : Alike E S s s') (c : Code) (n : Nat) (l : List Quad) :
    Alike E S (answer c n l s) (answer c n l s') := by
  refine ⟨h.wbuf, h.rbuf, h.status, ?_⟩
  simp only [Machine.answer, h.quad_eq]
  rw [h.rest]

theorem Alike.respond (h : Alike E S s s') (hE : Respected E S) (c : Code) (n : Nat) (l : List Quad) :
    Alike E S (respond c n l s) (respond c n l s') := by
  refine ⟨h.wbuf, h.rbuf, hE.record h.status c, ?_⟩
  simp only [Machine.respond, h.quad_eq]
  rw [h.rest]

theorem Alike.raise (h : Alike E S s s') (hE : Respected E S) (c : Code) (n : Nat) :
    Alike E S (raise c n s) (raise c n s') := h.respond hE c n []

theorem Alike.setBuf (h : Alike E S s s') (b : Buf) {B C : Buffer} (hB : E B C) :
    Alike E S (s.setBuf b B) (s'.setBuf b C) := by
  cases b
  · exact ⟨hB, h.rbuf, h.status, by rw [h.rest]; rfl⟩
  · exact ⟨h.wbuf, hB, h.status, by rw [h.rest]; rfl⟩

theorem Alike.withCur (h : Alike E S s s') (n : Nat) :
    Alike E S { s with cur := n } { s' with cur := n } :=
  ⟨h.wbuf, h.rbuf, h.status, by rw [h.rest]⟩

theorem Alike.rewind (h : Alike E S s s') (b : Buf) : Alike E S (s.rewind b) (s'.rewind b) := by
  cases b
  · exact h
  · exact h.withCur 0

theorem Alike.withCtrl (h : Alike E S s s') (ctrl : Word) :
    Alike E S { s with ctrl := ctrl } { s' with ctrl := ctrl } :=
  ⟨h.wbuf, h.rbuf, h.status, by rw [h.rest]⟩

theorem Alike.withSrc (h : Alike E S s s') (src : List Byte) :
    Alike E S { s with src := src } { s' with src := src } :=
  ⟨h.wbuf, h.rbuf, h.status, by rw [h.rest]⟩

theorem Alike.withSnk (h : Alike E S s s') (snk : List SinkEvent) :
    Alike E S { s with snk := snk } { s' with snk := snk } :=
  ⟨h.wbuf, h.rbuf, h.status, by rw [h.rest]⟩

theorem Alike.resetBlock (h : Alike E S s s') (hE : Respected E S) :
    Alike E S (resetBlock s) (resetBlock s') :=
  ⟨hE.cleared h.wbuf, hE.cleared h.rbuf, hE.zero, by rw [h.rest]; rfl⟩

/-- The source gives both the same bytes or the same failure (10_state.md R30). -/
theorem Alike.srcReadAll (h : Alike E S s s') : ∃ r u u',
    srcReadAll s = (r, u) ∧ srcReadAll s' = (r, u') ∧ Alike E S u u' := by
  rcases hr : s.io.read with _ | f
  · exact ⟨_, _, _, srcReadAll_ok hr, by rw [srcReadAll_ok (h.io_eq ▸ hr), h.src_eq], h.withSrc []⟩
  · exact ⟨_, _, _, srcReadAll_error hr, by rw [srcReadAll_error (h.io_eq ▸ hr), h.src_eq],
      h.withSrc _⟩

/-- The sink takes the same bytes from both (R31). -/
theorem Alike.snkWrite (h : Alike E S s s') (out : List Byte) : ∃ r u u',
    snkWrite out s = (r, u) ∧ snkWrite out s' = (r, u') ∧ Alike E S u u' := by
  rcases hw : s.io.write with _ | f
  · exact ⟨_, _, _, snkWrite_ok hw _, by rw [snkWrite_ok (h.io_eq ▸ hw), h.snk_eq], h.withSnk _⟩
  · exact ⟨_, _, _, snkWrite_error hw _, by rw [snkWrite_error (h.io_eq ▸ hw), h.snk_eq],
      h.withSnk _⟩

/-- The sink takes the same flush mark from both (R31). -/
theorem Alike.snkFlush (h : Alike E S s s') : ∃ r u u',
    snkFlush s = (r, u) ∧ snkFlush s' = (r, u') ∧ Alike E S u u' := by
  rcases hf : s.io.flush with _ | info
  · exact ⟨_, _, _, snkFlush_ok hf, by rw [snkFlush_ok (h.io_eq ▸ hf), h.snk_eq], h.withSnk _⟩
  · exact ⟨_, _, _, snkFlush_error hf, snkFlush_error (h.io_eq ▸ hf), h⟩

/-! ### The shared ends of the codec commands -/

theorem Alike.emitCodeword (h : Alike E S s s') (hE : Respected E S) (n : Nat) (cw : List Bool) :
    Alike E S (emitCodeword n cw s) (emitCodeword n cw s') := by
  simp only [Machine.emitCodeword, congrArg holdsBits h.capb_eq, hE.len h.wbuf]
  split
  · exact (h.setBuf .wbuf (hE.appendBits h.wbuf cw)).respond hE _ _ _
  · exact h.raise hE _ _

theorem Alike.finishExact (h : Alike E S s s') (hE : Respected E S)
    (exact : List Bool → Except Code Nat) :
    Alike E S (finishExact (exact s.rem) s) (finishExact (exact s'.rem) s') := by
  rw [h.rem_eq hE]
  rcases exact s.rem with c | n
  · simp only [Machine.finishExact, h.cur_eq]
    exact h.raise hE c _
  · exact h.respond hE .ok n []

theorem Alike.finishNext (h : Alike E S s s') (hE : Respected E S) (peel : List Bool → Peeled) :
    Alike E S (finishNext (peel s.rem) s) (finishNext (peel s'.rem) s') := by
  rw [h.rem_eq hE]
  rcases peel s.rem with c | ⟨n, used⟩
  · simp only [Machine.finishNext, h.cur_eq]
    exact h.raise hE c _
  · simp only [Machine.finishNext, h.cur_eq]
    exact (h.withCur _).respond hE .ok n []

theorem Alike.finishStream (h : Alike E S s s') (hE : Respected E S) (peel : List Bool → Peeled) :
    Alike E S (finishStream peel s) (finishStream peel s') := by
  simp only [Machine.finishStream, h.rem_eq hE, h.cur_eq, hE.len h.rbuf]
  split
  · exact (h.withCur _).respond hE _ _ _
  · exact h.raise hE _ _

/-! ### Commands with branches -/

theorem Alike.execBload (h : Alike E S s s') (hE : Respected E S) (b : Buf) (opv : Quad) :
    AlikeResults E S (execBload b opv s) (execBload b opv s') := by
  obtain ⟨r, u, u', e, e', hu⟩ := h.srcReadAll
  rw [Machine.execBload, Machine.execBload, e, e']
  rcases r with info | bytes
  · exact (hu.raise hE _ _).next
  · simp only [hu.capb_eq]
    split
    · exact (hu.raise hE _ _).next
    · split
      · exact (hu.raise hE _ _).next
      next hL =>
        have hfit := (not_not.1 hL).2
        exact (((hu.setBuf b (hE.set (hu.buf b) hfit)).rewind b).respond hE _ _ _).next

/-- The length that the sentinel gives is within the bytes that are kept. -/
theorem stripSentinel_length_le {bytes kept : List Byte} {L : Nat} (hne : bytes ≠ [])
    (h : stripSentinel bytes = some (kept, L)) : L ≤ 8 * kept.length := by
  have hlast : bytes.getLastD 0 ≠ 0 := fun h0 => by
    rw [stripSentinel_none.2 h0] at h
    cases h
  obtain ⟨payload, k, hk, hstream⟩ := stream_of_last_ne_zero hne hlast
  obtain ⟨kept', hstrip, hfit, -⟩ := stripSentinel_of_stream hk hstream
  rw [h] at hstrip
  cases hstrip
  exact hfit

theorem Alike.loadReader (h : Alike E S s s') (hE : Respected E S) {bytes : List Byte} {L : Nat}
    (hL : L ≤ 8 * bytes.length) : Alike E S (loadReader bytes L s) (loadReader bytes L s') :=
  ((h.setBuf .rbuf (hE.set h.rbuf hL)).withCur 0).respond hE .ok L []

theorem Alike.execRread (h : Alike E S s s') (hE : Respected E S) :
    AlikeResults E S (execRread s) (execRread s') := by
  obtain ⟨r, u, u', e, e', hu⟩ := h.srcReadAll
  rw [Machine.execRread, Machine.execRread, e, e']
  rcases r with info | bytes
  · exact (hu.raise hE _ _).next
  · simp only [congrArg holdsBytes hu.capb_eq, congrArg ctrlRsent hu.ctrl_eq]
    split
    · exact (hu.raise hE _ _).next
    · split
      · exact (((hu.setBuf .rbuf (hE.cleared hu.rbuf)).withCur 0).respond hE .ok 0 []).next
      next hne =>
        split
        · exact (hu.loadReader hE (Nat.le_refl _)).next
        · split
          · exact (hu.raise hE _ _).next
          next hstrip =>
            have hbytes : bytes ≠ [] := fun h0 => hne (List.length_eq_zero_iff.2 h0)
            exact (hu.loadReader hE (stripSentinel_length_le hbytes hstrip)).next

theorem Alike.execWfin (h : Alike E S s s') (hE : Respected E S) :
    AlikeResults E S (execWfin s) (execWfin s') := by
  simp only [Machine.execWfin, hE.len h.wbuf, hE.bits h.wbuf, h.ctrl_eq]
  split
  · exact (h.respond hE _ _ _).next
  · obtain ⟨r, u, u', e, e', hu⟩ := h.snkWrite (streamBytes (ctrlWsent s.ctrl) s.wbuf.bits)
    rw [e, e']
    rcases r with _ | info
    · obtain ⟨r, v, v', e, e', hv⟩ := hu.snkFlush
      simp only [e, e']
      rcases r with _ | info
      · exact ((hv.setBuf .wbuf (hE.cleared hv.wbuf)).respond hE .ok _ []).next
      · exact (hv.raise hE _ _).next
    · exact (hu.raise hE _ _).next

theorem Alike.execVbenc (h : Alike E S s s') (hE : Respected E S) (w : Width) (opv : Quad) :
    AlikeResults E S (execVbenc w opv s) (execVbenc w opv s') := by
  obtain ⟨r, u, u', e, e', hu⟩ := h.snkWrite (vbGroup (valueOperand w opv))
  simp only [Machine.execVbenc, e, e']
  rcases r with _ | info
  · exact (hu.respond hE _ _ _).next
  · exact (hu.raise hE _ _).next

theorem Alike.execVbdec1 (h : Alike E S s s') (hE : Respected E S) (w : Width) :
    AlikeResults E S (execVbdec1 w s) (execVbdec1 w s') := by
  obtain ⟨r, u, u', e, e', hu⟩ := h.srcReadAll
  rw [Machine.execVbdec1, Machine.execVbdec1, e, e']
  rcases r with info | bytes
  · exact (hu.raise hE _ _).next
  · simp only
    split
    · exact (hu.raise hE _ _).next
    · exact (hu.respond hE _ _ _).next

theorem Alike.execVbdecs (h : Alike E S s s') (hE : Respected E S) (w : Width) :
    AlikeResults E S (execVbdecs w s) (execVbdecs w s') := by
  obtain ⟨r, u, u', e, e', hu⟩ := h.srcReadAll
  rw [Machine.execVbdecs, Machine.execVbdecs, e, e']
  rcases r with info | bytes
  · exact (hu.raise hE _ _).next
  · simp only
    split
    · exact (hu.raise hE _ _).next
    · exact (hu.respond hE _ _ _).next

/-- The registers but `STATUS` read the same. -/
theorem Alike.readReg_eq (h : Alike E S s s') {r : Reg} (hr : r ≠ .status ∨ s'.status = s.status) :
    readReg s' r = readReg s r := by
  cases r
  case ctrl => rw [readReg, h.ctrl_eq, readReg]
  case status => rw [readReg, hr.resolve_left (· rfl), readReg]
  case cur => rw [readReg, h.cur_eq, readReg]

/-- Every command keeps states alike; the read of `STATUS` itself needs the same `STATUS`. -/
theorem Alike.exec (h : Alike E S s s') (hE : Respected E S) (i : Instr)
    (hi : i ≠ .rdreg .status ∨ s'.status = s.status) :
    AlikeResults E S (exec i s) (exec i s') := by
  cases i with
  | setctl ctl =>
    simp only [Machine.exec, execSetctl, h.ctrl_eq]
    exact ((h.withCtrl _).respond hE _ _ _).next
  | rdreg r =>
    have hr : readReg s' r = readReg s r := h.readReg_eq (hi.imp_left fun hne hr => hne (hr ▸ rfl))
    simp only [Machine.exec, execRdreg, hr]
    exact (h.answer _ _ _).next
  | sreset => exact ((h.resetBlock hE).respond hE _ _ _).next
  | push b x =>
    simp only [Machine.exec, execPush, h.capb_eq, hE.len (h.buf b), Buffer.appendBits_len]
    split
    · exact ((h.setBuf b (hE.appendBits (h.buf b) _)).respond hE _ _ _).next
    · exact (h.raise hE _ _).next
  | pushb b y =>
    simp only [Machine.exec, execPushb, h.capb_eq, hE.nbytes (h.buf b), Buffer.appendByte_len]
    split
    · exact ((h.setBuf b (hE.appendByte (h.buf b) y)).respond hE _ _ _).next
    · exact (h.raise hE _ _).next
  | ext b n opv =>
    simp only [Machine.exec, execExt, h.capb_eq, hE.len (h.buf b), Buffer.appendBits_len]
    split
    · exact ((h.setBuf b (hE.appendBits (h.buf b) _)).respond hE _ _ _).next
    · exact (h.raise hE _ _).next
  | bload b opv => exact h.execBload hE b opv
  | tobits b =>
    simp only [Machine.exec, execTobits, hE.len (h.buf b), hE.bits (h.buf b)]
    exact (h.respond hE _ _ _).next
  | tobytes b =>
    simp only [Machine.exec, execTobytes, hE.nbytes (h.buf b), hE.bytes (h.buf b)]
    exact (h.respond hE _ _ _).next
  | len b =>
    simp only [Machine.exec, execLen, hE.len (h.buf b)]
    exact (h.respond hE _ _ _).next
  | isempty b =>
    simp only [Machine.exec, execIsempty, hE.len (h.buf b)]
    exact (h.respond hE _ _ _).next
  | clear b => exact (((h.setBuf b (hE.cleared (h.buf b))).rewind b).respond hE _ _ _).next
  | cap b =>
    simp only [Machine.exec, execCap, h.capb_eq]
    exact (h.respond hE _ _ _).next
  | reserve b opv =>
    simp only [Machine.exec, execReserve, h.capb_eq, hE.len (h.buf b)]
    split
    · exact (h.respond hE _ _ _).next
    · exact (h.raise hE _ _).next
  | wfin => exact h.execWfin hE
  | rread => exact h.execRread hE
  | uenc w opv => exact (h.emitCodeword hE _ _).next
  | udec1 w => exact (h.finishExact hE (exactU w.bits)).next
  | udecn w => exact (h.finishNext hE (peelU w.bits)).next
  | udecs w => exact (h.finishStream hE (peelU w.bits)).next
  | genc w opv =>
    simp only [Machine.exec, execGenc]
    split
    · exact (h.raise hE _ _).next
    · exact (h.emitCodeword hE _ _).next
  | gdec1 w => exact (h.finishExact hE (exactG w.bits)).next
  | gdecn w => exact (h.finishNext hE (peelG w.bits)).next
  | gdecs w => exact (h.finishStream hE (peelG w.bits)).next
  | denc w opv =>
    simp only [Machine.exec, execDenc]
    split
    · exact (h.raise hE _ _).next
    · exact (h.emitCodeword hE _ _).next
  | ddec1 w => exact (h.finishExact hE (exactD w.bits)).next
  | ddecn w => exact (h.finishNext hE (peelD w.bits)).next
  | ddecs w => exact (h.finishStream hE (peelD w.bits)).next
  | vbenc w opv => exact h.execVbenc hE w opv
  | vbdec1 w => exact h.execVbdec1 hE w
  | vbdecs w => exact h.execVbdecs hE w
  | clz w opv =>
    simp only [Machine.exec, execClz]
    split
    · exact (h.raise hE _ _).next
    · exact (h.respond hE _ _ _).next
  | top opv =>
    simp only [Machine.exec, execTop]
    split
    · exact (h.raise hE _ _).next
    · exact (h.respond hE _ _ _).next
  | popcnt w opv => exact (h.respond hE _ _ _).next

/-- The form a claim about two runs uses. -/
theorem Alike.of_exec (h : Alike E S s s') (hE : Respected E S) {i : Instr} {t : State}
    (hi : i ≠ .rdreg .status ∨ s'.status = s.status) (hexec : Machine.exec i s = .next t) :
    ∃ t', Machine.exec i s' = .next t' ∧ Alike E S t t' := by
  obtain ⟨u, t', hu, ht', hut⟩ := h.exec hE i hi
  rw [hexec] at hu
  cases hu
  exact ⟨t', ht', hut⟩

end

/-! ### Equal buffers, any `STATUS` -/

theorem respected_eq_any : Respected Eq (fun _ _ => True) where
  bits h := by rw [h]
  bytes h := by rw [h]
  appendBits h x := by rw [h]
  appendByte h y := by rw [h]
  set h _ _ _ := by rw [h]
  cleared h := by rw [h]
  record _ _ := trivial
  zero := trivial

/-- Settles O15: a state and the same with another `STATUS` are alike with equal buffers, and so are the
states in which a command ends. -/
theorem noCommandDependsOnStatus : Obligations.NoCommandDependsOnStatus := by
  intro i s t st hi hexec
  have hstart : Alike Eq (fun _ _ => True) s (s.withStatus st) := ⟨rfl, rfl, trivial, rfl⟩
  obtain ⟨t', ht', hend⟩ := hstart.of_exec respected_eq_any (.inl hi) hexec
  refine ⟨t', ht', ?_⟩
  have hrest := hend.rest
  rwa [← hend.wbuf, ← hend.rbuf] at hrest

/-! ### Equal bit sequences and the same `STATUS` -/

/-- Two well-formed buffers of the same bit sequence. The capacity plays no part: what fits is the same
for both, so the invariant of a buffer is taken without a bound. -/
def SameBits (B C : Buffer) : Prop :=
  Buffer.Ok .unbounded B ∧ Buffer.Ok .unbounded C ∧ C.bits = B.bits

theorem fitsBits_unbounded (n : Nat) : FitsBits .unbounded n := fun _ h => nomatch h

theorem fitsBytes_unbounded (n : Nat) : FitsBytes .unbounded n := fun _ h => nomatch h

theorem Buffer.Ok.unbounded {c : Capacity} {B : Buffer} (h : Buffer.Ok c B) :
    Buffer.Ok .unbounded B := by
  obtain ⟨-, hwf, -, hpad⟩ := h
  exact ⟨rfl, hwf, fun _ _ => rfl, hpad⟩

theorem SameBits.len {B C : Buffer} (h : SameBits B C) : C.len = B.len := by
  rw [← Buffer.bits_length, h.2.2, Buffer.bits_length]

theorem respected_sameBits_eq : Respected SameBits Eq where
  bits h := h.2.2
  bytes := by
    rintro B C ⟨hB, hC, hbits⟩
    rw [Buffer.bytes_eq_pack hC, hbits, Buffer.bytes_eq_pack hB]
  appendBits := by
    rintro B C ⟨hB, hC, hbits⟩ x
    refine ⟨Buffer.appendBits_ok hB x (fitsBits_unbounded _),
      Buffer.appendBits_ok hC x (fitsBits_unbounded _), ?_⟩
    rw [Buffer.appendBits_bits hC.wf, hbits, Buffer.appendBits_bits hB.wf]
  appendByte := by
    intro B C h y
    have hlen := h.len
    obtain ⟨hB, hC, hbits⟩ := h
    refine ⟨Buffer.appendByte_ok hB y (fitsBytes_unbounded _),
      Buffer.appendByte_ok hC y (fitsBytes_unbounded _), ?_⟩
    rw [Buffer.appendByte_bits hC, hbits, hlen, Buffer.appendByte_bits hB]
  set := by
    rintro B C ⟨hB, hC, -⟩ bytes L hL
    refine ⟨Buffer.set_ok hB bytes L hL (fitsBytes_unbounded _),
      Buffer.set_ok hC bytes L hL (fitsBytes_unbounded _), ?_⟩
    rw [Buffer.set_bits hC.wf bytes L hL, Buffer.set_bits hB.wf bytes L hL]
  cleared := by
    rintro B C ⟨hB, hC, -⟩
    exact ⟨Buffer.cleared_ok hB, Buffer.cleared_ok hC, rfl⟩
  record h c := by rw [h]
  zero := rfl

/-- States that a host cannot tell apart are alike under the invariant. -/
theorem alike_of_view_eq {s s' : State} (hs : Inv s) (hs' : Inv s') (h : s.view = s'.view) :
    Alike SameBits Eq s s' := by
  obtain ⟨-, hw, hr, -⟩ := hs
  obtain ⟨-, hw', hr', -⟩ := hs'
  simp only [State.view, View.mk.injEq] at h
  obtain ⟨hwbits, hrbits, hcur, hctrl, hstatus, hsrc, hsnk, hcapb, hport, hio, hresp, hdraws⟩ := h
  refine ⟨⟨hw.unbounded, hw'.unbounded, hwbits.symm⟩, ⟨hr.unbounded, hr'.unbounded, hrbits.symm⟩,
    hstatus, ?_⟩
  rw [hcur, hctrl, hsrc, hsnk, hcapb, hport, hio, hresp, hdraws]

/-- A host cannot tell alike states apart. -/
theorem Alike.view_eq {s s' : State} (h : Alike SameBits Eq s s') : s'.view = s.view := by
  have hwbits := h.wbuf.2.2
  have hrbits := h.rbuf.2.2
  rw [h.rest, State.view, State.view, hwbits, hrbits, h.status]

/-- Settles O19: states of the invariant with one view are alike with equal bit sequences, and so are the
states in which a command ends. -/
theorem onlyTheBitSequencesAreObservable : Obligations.OnlyTheBitSequencesAreObservable := by
  intro i s s' t hs hs' hview hexec
  have hstart := alike_of_view_eq hs hs' hview
  obtain ⟨t', ht', hend⟩ := hstart.of_exec respected_sameBits_eq (.inr hstart.status.symm) hexec
  exact ⟨t', ht', hend.view_eq⟩

end Sys2Proof.Machine
end

section
/-! Proofs about who moves the cursor (10_state.md R23) and who touches the streams (R30, R31,
20_memory.md R51). What a command does to each is said once, by the ways it can end (`Ends`). -/

namespace Sys2Proof.Machine

/-! ### The kinds of commands that the rules name -/

/-- The commands that set the cursor to 0 (10_state.md R23). -/
abbrev Rewinds (i : Instr) : Prop :=
  i = .sreset ∨ i = .rread ∨ i = .clear .rbuf ∨ ∃ opv, i = .bload .rbuf opv

/-- The commands whose success fixes where the cursor is. -/
def SetsCursor (i : Instr) : Prop := Rewinds i ∨ i.decodesStream = true

theorem decodesNext_iff {i : Instr} :
    i.decodesNext = true ↔ ∃ w, i = .udecn w ∨ i = .gdecn w ∨ i = .ddecn w := by
  cases i <;> simp [Instr.decodesNext]

theorem decodesStream_iff {i : Instr} :
    i.decodesStream = true ↔ ∃ w, i = .udecs w ∨ i = .gdecs w ∨ i = .ddecs w := by
  cases i <;> simp [Instr.decodesStream]

theorem readsSource_iff {i : Instr} : i.readsSource = true ↔
    i = .rread ∨ (∃ b opv, i = .bload b opv) ∨ (∃ w, i = .vbdec1 w) ∨ ∃ w, i = .vbdecs w := by
  cases i <;> simp [Instr.readsSource]

theorem readsSource_of_decodesBytes {i : Instr} (h : i.decodesBytes = true) :
    i.readsSource = true := by
  cases i <;> simp [Instr.decodesBytes] at h <;> rfl

theorem sinkBytes_eq_some {i : Instr} {s : State} {out : List Byte} (h : i.sinkBytes s = some out) :
    i = .wfin ∨ ∃ w opv, i = .vbenc w opv := by
  cases i <;> simp [Instr.sinkBytes] at h <;> simp

theorem not_setsCursor_of_queries {i : Instr} (h : i.queries = true) : ¬ SetsCursor i := by
  cases i <;> simp [Instr.queries, SetsCursor, Rewinds, Instr.decodesStream] at h ⊢

theorem not_setsCursor_of_appends {i : Instr} {b : Buf} (h : i.appends b = true) :
    ¬ SetsCursor i := by
  cases i <;> simp [Instr.appends, SetsCursor, Rewinds, Instr.decodesStream] at h ⊢

theorem not_setsCursor_of_decodesBytes {i : Instr} (h : i.decodesBytes = true) :
    ¬ SetsCursor i := by
  cases i <;> simp [Instr.decodesBytes, SetsCursor, Rewinds, Instr.decodesStream] at h ⊢

theorem not_setsCursor_of_decodesNext {i : Instr} (h : i.decodesNext = true) : ¬ SetsCursor i := by
  cases i <;> simp [Instr.decodesNext, SetsCursor, Rewinds, Instr.decodesStream] at h ⊢

/-! ### The cursor -/

/-- `CursorMove i s t c`: what the command `i`, begun in `s` and ended in `t` with status `c`, did to the
cursor. -/
inductive CursorMove (i : Instr) (s t : State) (c : Code) : Prop where
  | kept : t.cur = s.cur → (c = .ok → ¬ SetsCursor i) → CursorMove i s t c
  | rewound : t.cur = 0 → c = .ok → Rewinds i → CursorMove i s t c
  | advanced : s.cur < t.cur → t.cur ≤ s.rbuf.len → c = .ok → i.decodesNext = true →
      CursorMove i s t c
  | toEnd : t.cur = s.rbuf.len → c = .ok → i.decodesStream = true → CursorMove i s t c

theorem Ends.cursorMove {i : Instr} {s t : State} {r : Response} (h : Ends i s t)
    (hr : t.resp = some r) : CursorMove i s t r.status := by
  cases h with
  | answered reg hi => exact .kept rfl fun _ => by simp [hi, SetsCursor, Rewinds, Instr.decodesStream]
  | blockReset hi =>
    cases hr
    exact .rewound rfl rfl (.inl hi)
  | control ctl hi => exact .kept rfl fun _ => by simp [hi, SetsCursor, Rewinds, Instr.decodesStream]
  | queried n l hi => exact .kept rfl fun _ => not_setsCursor_of_queries hi
  | failed c n _ hc _ =>
    cases hr
    exact .kept rfl fun hok => absurd hok hc
  | appended b x n hi _ => exact .kept (setBuf_cur _ _ _) fun _ => not_setsCursor_of_appends hi
  | byteAppended b y n hi _ =>
    exact .kept (setBuf_cur _ _ _) fun _ => by simp [hi, SetsCursor, Rewinds, Instr.decodesStream]
  | cleared b hi =>
    cases b with
    | wbuf => exact .kept rfl fun _ => by simp [hi, SetsCursor, Rewinds, Instr.decodesStream]
    | rbuf =>
      cases hr
      exact .rewound rfl rfl (.inr (.inr (.inl hi)))
  | sourceFailed f _ _ =>
    cases hr
    exact .kept rfl fun hok => nomatch hok
  | sourceRefused c n _ _ hc _ =>
    cases hr
    exact .kept rfl fun hok => absurd hok hc
  | loaded b opv hi _ _ _ =>
    cases b with
    | wbuf => exact .kept rfl fun _ => by simp [hi, SetsCursor, Rewinds, Instr.decodesStream]
    | rbuf =>
      cases hr
      exact .rewound rfl rfl (.inr (.inr (.inr ⟨opv, hi⟩)))
  | readEmpty hi _ =>
    cases hr
    exact .rewound rfl rfl (.inr (.inl hi))
  | readStream bytes L hi _ _ _ _ =>
    cases hr
    exact .rewound rfl rfl (.inr (.inl hi))
  | finished hi _ _ => exact .kept rfl fun _ => by simp [hi, SetsCursor, Rewinds, Instr.decodesStream]
  | sinkFailed out k n _ =>
    cases hr
    exact .kept rfl fun hok => nomatch hok
  | emitted w opv hi _ =>
    exact .kept rfl fun _ => by simp [hi, SetsCursor, Rewinds, Instr.decodesStream]
  | decodedBytes n l hi _ => exact .kept rfl fun _ => not_setsCursor_of_decodesBytes hi
  | advanced n used hi hpos hused =>
    cases hr
    rw [State.rem_length] at hused
    exact .advanced (by simp only [respond_cur]; omega) (by simp only [respond_cur]; omega) rfl hi
  | decodedStream n l hi =>
    cases hr
    exact .toEnd rfl rfl hi

/-- No command both sets the cursor to 0 and moves it to the end. -/
theorem decodesStream_eq_false_of_rewinds {i : Instr} (h : Rewinds i) : i.decodesStream = false := by
  rcases h with rfl | rfl | rfl | ⟨opv, rfl⟩ <;> rfl

/-- Settles O16: the four moves of the cursor, and the invariant in the final state for the bound. -/
theorem cursorMovesAsTheRuleSays : Obligations.CursorMovesAsTheRuleSays := by
  intro i s t r hs hexec hr
  have hbound : t.cur ≤ t.rbuf.len := (exec_keeps_inv hs hexec).2.2.2.1
  rw [← decodesNext_iff, ← decodesStream_iff]
  cases (ends_of_exec hexec).cursorMove hr with
  | kept hcur hi =>
    exact ⟨fun hne => absurd hcur hne, fun hok hrew => absurd (.inl hrew) (hi hok),
      fun hok hdec => absurd (.inr hdec) (hi hok), hbound⟩
  | rewound hcur hok hi =>
    refine ⟨fun _ => ⟨hok, .inl ⟨hcur, hi⟩⟩, fun _ _ => hcur, fun _ hdec => ?_, hbound⟩
    rw [decodesStream_eq_false_of_rewinds hi] at hdec
    cases hdec
  | advanced hlt hle hok hi =>
    have hset := not_setsCursor_of_decodesNext hi
    exact ⟨fun _ => ⟨hok, .inr (.inl ⟨hlt, hle, hi⟩)⟩, fun _ hrew => absurd (.inl hrew) hset,
      fun _ hdec => absurd (.inr hdec) hset, hbound⟩
  | toEnd hcur hok hi =>
    refine ⟨fun _ => ⟨hok, .inr (.inr ⟨hcur, hi⟩)⟩, fun _ hrew => ?_, fun _ _ => hcur, hbound⟩
    rw [decodesStream_eq_false_of_rewinds hrew] at hi
    cases hi

/-! ### The streams -/

/-- The sink after a command: as before, or with bytes of `WFIN` or `VBENC` appended, or with a whole
stream of `WFIN` and its flush mark appended (10_state.md R31). -/
theorem Ends.snk_cases {i : Instr} {s t : State} (h : Ends i s t) :
    t.snk = s.snk ∨
    ((i = .wfin ∨ ∃ w opv, i = .vbenc w opv) ∧
      ∃ out : List Byte, t.snk = s.snk ++ out.map .byte) ∨
    (i = .wfin ∧ t.snk = s.snk ++ (s.stream.map .byte ++ [.flush])) := by
  cases h with
  | finished hi _ _ => exact .inr (.inr ⟨hi, by simp⟩)
  | sinkFailed out k n hi => exact .inr (.inl ⟨sinkBytes_eq_some hi, out.take k, rfl⟩)
  | emitted w opv hi _ => exact .inr (.inl ⟨.inr ⟨w, opv, hi⟩, _, rfl⟩)
  | _ => exact .inl (by simp)

/-- The source after a command: as before, or with bytes of the front taken by one of the commands that
read it (10_state.md R30). -/
theorem Ends.src_cases {i : Instr} {s t : State} (h : Ends i s t) :
    t.src = s.src ∨ (i.readsSource = true ∧ ∃ k, t.src = s.src.drop k) := by
  have hall : s.src.drop s.src.length = [] := List.drop_length
  cases h with
  | sourceFailed f hi _ => exact .inr ⟨hi, f.moved, rfl⟩
  | sourceRefused c n hi _ _ _ => exact .inr ⟨hi, _, hall.symm⟩
  | loaded b opv hi _ _ _ => exact .inr ⟨by rw [hi]; rfl, s.src.length, by simp⟩
  | readEmpty hi _ => exact .inr ⟨by rw [hi]; rfl, _, hall.symm⟩
  | readStream bytes L hi _ _ _ _ => exact .inr ⟨by rw [hi]; rfl, _, hall.symm⟩
  | decodedBytes n l hi _ => exact .inr ⟨readsSource_of_decodesBytes hi, _, hall.symm⟩
  | _ => exact .inl (by simp)

/-- Settles O17: what a command can do to each stream, taken apart. -/
theorem onlyTheStreamCommandsTouchTheStreams : Obligations.OnlyTheStreamCommandsTouchTheStreams := by
  intro i s t hexec
  have h := ends_of_exec hexec
  refine ⟨?_, ?_, fun hrread hbload hvbdec1 hvbdecs => ?_⟩
  · rcases h.snk_cases with hsnk | ⟨hi, out, hsnk⟩ | ⟨hi, hsnk⟩
    · exact ⟨[], by simp [hsnk], fun _ => List.not_mem_nil, fun _ _ => rfl⟩
    · refine ⟨out.map .byte, hsnk, fun _ => by simp, fun hwfin hvbenc => ?_⟩
      rcases hi with hi | ⟨w, opv, hi⟩
      · exact absurd hi hwfin
      · exact absurd hi (hvbenc w opv)
    · exact ⟨_, hsnk, fun hne => absurd hi hne, fun hne _ => absurd hi hne⟩
  · rcases h.src_cases with hsrc | ⟨-, k, hsrc⟩
    · exact ⟨0, hsrc⟩
    · exact ⟨k, hsrc⟩
  · rcases h.src_cases with hsrc | ⟨hi, -⟩
    · exact hsrc
    · rcases readsSource_iff.1 hi with hi | ⟨b, opv, hi⟩ | ⟨w, hi⟩ | ⟨w, hi⟩
      · exact absurd hi hrread
      · exact absurd hi (hbload b opv)
      · exact absurd hi (hvbdec1 w)
      · exact absurd hi (hvbdecs w)

end Sys2Proof.Machine
end

section
/-! Proofs about who writes `CTRL` and the two buffers (10_state.md R27, 20_memory.md R51), by the ways a
command can end (`Ends`). -/

namespace Sys2Proof

open Machine

/-- The commands that may write buffer `b` (20_memory.md R51). -/
def Instr.writesBuf (b : Buf) : Instr → Bool
  | .sreset => true
  | .push c _ | .pushb c _ | .ext c _ _ | .bload c _ | .clear c => c = b
  | .wfin | .uenc _ _ | .genc _ _ | .denc _ _ => b = .wbuf
  | .rread => b = .rbuf
  | _ => false

end Sys2Proof

namespace Sys2Proof.Machine

/-! ### The commands that may write a buffer -/

theorem writesBuf_wbuf_iff {i : Instr} : i.writesBuf .wbuf = true ↔
    i = .sreset ∨ i = .wfin ∨ i = .clear .wbuf ∨
      (∃ x, i = .push .wbuf x) ∨ (∃ y, i = .pushb .wbuf y) ∨ (∃ n v, i = .ext .wbuf n v) ∨
      (∃ v, i = .bload .wbuf v) ∨ ∃ w v, i = .uenc w v ∨ i = .genc w v ∨ i = .denc w v := by
  cases i <;> simp [Instr.writesBuf]

theorem writesBuf_rbuf_iff {i : Instr} : i.writesBuf .rbuf = true ↔
    i = .sreset ∨ i = .rread ∨ i = .clear .rbuf ∨
      (∃ x, i = .push .rbuf x) ∨ (∃ y, i = .pushb .rbuf y) ∨ (∃ n v, i = .ext .rbuf n v) ∨
      (∃ v, i = .bload .rbuf v) := by
  cases i <;> simp [Instr.writesBuf]

theorem writesBuf_of_appends {i : Instr} {b : Buf} (h : i.appends b = true) :
    i.writesBuf b = true := by
  cases i <;> simp [Instr.appends] at h <;> simp [Instr.writesBuf, h]

/-! ### What a command does to the buffers and to `CTRL` -/

theorem setBuf_buf_of_ne {b c : Buf} (h : c ≠ b) (B : Buffer) (s : State) :
    (s.setBuf c B).buf b = s.buf b := by
  cases b <;> cases c <;> simp at h <;> rfl

/-- A write to a buffer that the command may write. -/
theorem setBuf_buf_eq_or_writesBuf {i : Instr} {c : Buf} (hi : i.writesBuf c = true) (b : Buf)
    (B : Buffer) (s : State) : (s.setBuf c B).buf b = s.buf b ∨ i.writesBuf b = true := by
  rcases eq_or_ne c b with rfl | hne
  · exact .inr hi
  · exact .inl (setBuf_buf_of_ne hne B s)

/-- A command leaves a buffer as it was, or is one that may write it. -/
theorem Ends.buf_eq_or_writesBuf {i : Instr} {s t : State} (h : Ends i s t) (b : Buf) :
    t.buf b = s.buf b ∨ i.writesBuf b = true := by
  cases h with
  | blockReset hi => exact .inr (by rw [hi]; rfl)
  | appended c x n hi _ =>
    rw [respond_buf]
    exact setBuf_buf_eq_or_writesBuf (writesBuf_of_appends hi) b _ s
  | byteAppended c y n hi _ =>
    rw [respond_buf]
    exact setBuf_buf_eq_or_writesBuf (by simp [hi, Instr.writesBuf]) b _ s
  | cleared c hi =>
    rw [respond_buf, rewind_buf]
    exact setBuf_buf_eq_or_writesBuf (by simp [hi, Instr.writesBuf]) b _ s
  | loaded c opv hi _ _ _ =>
    rw [respond_buf, rewind_buf]
    exact setBuf_buf_eq_or_writesBuf (by simp [hi, Instr.writesBuf]) b _ s.drained
  | readEmpty hi _ =>
    cases b with
    | wbuf => exact .inl rfl
    | rbuf => exact .inr (by rw [hi]; rfl)
  | readStream bytes L hi _ _ _ _ =>
    cases b with
    | wbuf => exact .inl rfl
    | rbuf => exact .inr (by rw [hi]; rfl)
  | finished hi _ _ =>
    cases b with
    | wbuf => exact .inr (by rw [hi]; rfl)
    | rbuf => exact .inl rfl
  | _ => exact .inl rfl

/-- `CTRL` is as before, or the command is one of the two that write it (10_state.md R27). -/
theorem Ends.ctrl_cases {i : Instr} {s t : State} (h : Ends i s t) :
    t.ctrl = s.ctrl ∨ i = .sreset ∨ ∃ ctl, i = .setctl ctl := by
  cases h with
  | blockReset hi => exact .inr (.inl hi)
  | control ctl hi => exact .inr (.inr ⟨ctl, hi⟩)
  | _ => exact .inl (by simp)

/-- Settles O18: what a command can do to `CTRL` and to each buffer, taken apart. -/
theorem whoWritesTheBuffersAndControl : Obligations.WhoWritesTheBuffersAndControl := by
  intro i s t hexec
  have h := ends_of_exec hexec
  refine ⟨fun hsetctl hsreset => ?_, fun hne => ?_, fun hne => ?_⟩
  · rcases h.ctrl_cases with hctrl | hi | ⟨ctl, hi⟩
    · exact hctrl
    · exact absurd hi hsreset
    · exact absurd hi (hsetctl ctl)
  · exact writesBuf_wbuf_iff.1 ((h.buf_eq_or_writesBuf .wbuf).resolve_left hne)
  · exact writesBuf_rbuf_iff.1 ((h.buf_eq_or_writesBuf .rbuf).resolve_left hne)

end Sys2Proof.Machine
end

section
/-! Proofs that the nine bit-sequence decode commands read the reader side only (20_memory.md R58): each
ends in one of three shared operations, and each of these keeps whatever stands on the writer side. -/

namespace Sys2Proof.Machine

/-- `s` with `WBUF`, the streams and `CTRL`, which R58 says the bit decoders never read, replaced. -/
def State.withWriterSide (s : State) (B : Buffer) (src : List Byte) (snk : List SinkEvent)
    (ctrl : Word) : State :=
  { s with wbuf := B, src := src, snk := snk, ctrl := ctrl }

section

variable (s : State) (B : Buffer) (src : List Byte) (snk : List SinkEvent) (ctrl : Word)

theorem finishExact_withWriterSide (exact : List Bool → Except Code Nat) :
    finishExact (exact (s.withWriterSide B src snk ctrl).rem) (s.withWriterSide B src snk ctrl) =
      (finishExact (exact s.rem) s).withWriterSide B src snk ctrl := by
  have hrem : (s.withWriterSide B src snk ctrl).rem = s.rem := rfl
  rw [hrem]
  cases exact s.rem <;> rfl

theorem finishNext_withWriterSide (peel : List Bool → Peeled) :
    finishNext (peel (s.withWriterSide B src snk ctrl).rem) (s.withWriterSide B src snk ctrl) =
      (finishNext (peel s.rem) s).withWriterSide B src snk ctrl := by
  have hrem : (s.withWriterSide B src snk ctrl).rem = s.rem := rfl
  rw [hrem]
  cases peel s.rem <;> rfl

theorem finishStream_withWriterSide (peel : List Bool → Peeled) :
    finishStream peel (s.withWriterSide B src snk ctrl) =
      (finishStream peel s).withWriterSide B src snk ctrl := by
  have hrem : (s.withWriterSide B src snk ctrl).rem = s.rem := rfl
  have hcur : (s.withWriterSide B src snk ctrl).cur = s.cur := rfl
  rw [finishStream, finishStream, hrem, hcur]
  cases decodeStream peel s.rem.length s.cur s.rem <;> rfl

end

/-- The nine bit-sequence decode commands end in three ways, whatever the state. -/
theorem exec_bitDecoder_cases {w : Width} {i : Instr}
    (hi : i ∈ [.udec1 w, .udecn w, .udecs w, .gdec1 w, .gdecn w, .gdecs w, .ddec1 w, .ddecn w,
      .ddecs w]) :
    (∃ exact : List Bool → Except Code Nat,
      ∀ s, exec i s = .next (finishExact (exact s.rem) s)) ∨
    (∃ peel : List Bool → Peeled, ∀ s, exec i s = .next (finishNext (peel s.rem) s)) ∨
    (∃ peel, ∀ s, exec i s = .next (finishStream peel s)) := by
  simp only [List.mem_cons, List.not_mem_nil, or_false] at hi
  rcases hi with rfl | rfl | rfl | rfl | rfl | rfl | rfl | rfl | rfl
  · exact .inl ⟨exactU w.bits, fun _ => rfl⟩
  · exact .inr (.inl ⟨peelU w.bits, fun _ => rfl⟩)
  · exact .inr (.inr ⟨peelU w.bits, fun _ => rfl⟩)
  · exact .inl ⟨exactG w.bits, fun _ => rfl⟩
  · exact .inr (.inl ⟨peelG w.bits, fun _ => rfl⟩)
  · exact .inr (.inr ⟨peelG w.bits, fun _ => rfl⟩)
  · exact .inl ⟨exactD w.bits, fun _ => rfl⟩
  · exact .inr (.inl ⟨peelD w.bits, fun _ => rfl⟩)
  · exact .inr (.inr ⟨peelD w.bits, fun _ => rfl⟩)

/-- Settles O20: each of the three ends of a bit decoder keeps the replaced writer side. -/
theorem bitDecodersReadTheReaderSideOnly : Obligations.BitDecodersReadTheReaderSideOnly := by
  intro w i s t B src snk ctrl hi hexec
  change exec i (s.withWriterSide B src snk ctrl) = .next (t.withWriterSide B src snk ctrl)
  rcases exec_bitDecoder_cases hi with ⟨exact, h⟩ | ⟨peel, h⟩ | ⟨peel, h⟩ <;>
    rw [h] at hexec ⊢ <;> cases hexec
  · rw [finishExact_withWriterSide]
  · rw [finishNext_withWriterSide]
  · rw [finishStream_withWriterSide]

end Sys2Proof.Machine
end

section
/-! Proofs about the encoding: the words that select a row of the opcode map, by the row's format; what a
row reads is laid out as the word it was read from, and the row of an instruction reads its encoding. -/

namespace Sys2Proof

open Laws.Opcode (layWord_z)

/-! ### The five fields of a word (30_encoding.md R82) -/

/-- Two words are the same when their five fields are. -/
theorem word_eq_iff_fields {v w : Word} : v = w ↔
    v.extractLsb' 24 8 = w.extractLsb' 24 8 ∧ v.extractLsb' 21 3 = w.extractLsb' 21 3 ∧
    v.extractLsb' 20 1 = w.extractLsb' 20 1 ∧ v.extractLsb' 16 4 = w.extractLsb' 16 4 ∧
    v.extractLsb' 0 16 = w.extractLsb' 0 16 := by
  constructor
  · rintro rfl
    exact ⟨rfl, rfl, rfl, rfl, rfl⟩
  · rintro ⟨hop, hwsel, hb, hz, himm⟩
    have join {hi lo n m : Nat} (hstart : hi = lo + n)
        (hhigh : v.extractLsb' hi m = w.extractLsb' hi m)
        (hlow : v.extractLsb' lo n = w.extractLsb' lo n) :
        v.extractLsb' lo (n + m) = w.extractLsb' lo (n + m) := by
      rw [Nat.add_comm n m, ← BitVec.extractLsb'_append_extractLsb'_eq_extractLsb' hstart, hhigh,
        hlow, BitVec.extractLsb'_append_extractLsb'_eq_extractLsb' hstart]
    have hall : v.extractLsb' 0 32 = w.extractLsb' 0 32 :=
      join rfl (join rfl (join rfl (join rfl hop hwsel) hb) hz) himm
    rwa [BitVec.extractLsb'_eq_self, BitVec.extractLsb'_eq_self] at hall

theorem layWord_b (op : BitVec 8) (sel : BitVec 3) (b : BitVec 1) (imm : BitVec 16) :
    (layWord op sel b imm).extractLsb' 20 1 = b := by
  apply BitVec.eq_of_getLsbD_eq
  intro i hi
  obtain rfl : i = 0 := by omega
  rw [BitVec.getLsbD_extractLsb', layWord_buf]
  rfl

/-- The sub-field of the `k` low bits of `imm`. -/
theorem layWord_imm_field (op : BitVec 8) (sel : BitVec 3) (b : BitVec 1) {k : Nat} (x : BitVec k)
    (hk : k ≤ 16) : (layWord op sel b (x.setWidth 16)).extractLsb' 0 k = x := by
  rw [layWord_imm _ _ _ _ k hk, BitVec.extractLsb'_setWidth_of_le (by omega),
    BitVec.extractLsb'_eq_self]

theorem layWord_imm_whole (op : BitVec 8) (sel : BitVec 3) (b : BitVec 1) (imm : BitVec 16) :
    (layWord op sel b imm).extractLsb' 0 16 = imm := by
  rw [layWord_imm _ _ _ _ 16 le_rfl, BitVec.extractLsb'_eq_self]

/-! ### The fields of a command -/

theorem buf_sel (c : Command) : c.buf.sel = c.cmd.extractLsb' 20 1 := by
  apply BitVec.eq_of_getLsbD_eq
  intro i hi
  obtain rfl : i = 0 := by omega
  rw [BitVec.getLsbD_extractLsb', Command.buf]
  cases c.cmd.getLsbD 20 <;> simp [Buf.sel]

theorem ofBool_bit (c : Command) : BitVec.ofBool c.bit = c.cmd.extractLsb' 0 1 := by
  apply BitVec.eq_of_getLsbD_eq
  intro i hi
  obtain rfl : i = 0 := by omega
  simp [Command.bit]

@[simp] theorem wordB_bit (op : BitVec 8) (b : Buf) (x : Bool) (o : Quad) :
    (Command.mk (wordB op b ((BitVec.ofBool x).setWidth 16)) o).bit = x := by
  rw [← BitVec.ofBool_eq_iff_eq, ofBool_bit]
  exact layWord_imm_field _ _ _ _ (by decide)

@[simp] theorem wordB_byte (op : BitVec 8) (b : Buf) (x : Byte) (o : Quad) :
    (Command.mk (wordB op b (x.setWidth 16)) o).byte = x :=
  layWord_imm_field _ _ _ x (by decide)

@[simp] theorem wordS_two (op : BitVec 8) (x : BitVec 2) (o : Quad) :
    (Command.mk (wordS op (x.setWidth 16)) o).two = x :=
  layWord_imm_field _ _ _ x (by decide)

theorem widthOf_eq_some_iff {sel : BitVec 3} {w : Width} : widthOf sel = some w ↔ sel = w.sel := by
  cases w <;> revert sel <;> decide

theorem regOf_eq_some_iff {n : BitVec 2} {r : Reg} : regOf n = some r ↔ n = r.sel := by
  cases r <;> revert n <;> decide

/-! ### Which words select a row, by its format (R82, R84) -/

theorem extractLsb'_not_of_le {n start len : Nat} (x : BitVec n) (h : start + len ≤ n) :
    (~~~x).extractLsb' start len = ~~~(x.extractLsb' start len) := by
  apply BitVec.eq_of_getLsbD_eq
  intro i hi
  have : start + i < n := by omega
  simp [hi, this]

theorem and_not_eq_zero_iff {n : Nat} (x m : BitVec n) : x &&& ~~~m = 0#n ↔ x = x &&& m := by
  simp only [BitVec.eq_of_getLsbD_eq_iff, BitVec.getLsbD_and, BitVec.getLsbD_not]
  refine forall₂_congr fun i hi => ?_
  cases x.getLsbD i <;> cases m.getLsbD i <;> simp [hi]

/-- A row's mask tests every bit but those its fields use, which `fw`, `fb` and `fi` mark in `wsel`, `b`
and `imm`: a word selects the row when it has the row's opcode and no other bit than these. -/
theorem selects_iff_layWord {w : Word} {op : BitVec 8} (fw : BitVec 3) (fb : BitVec 1)
    (fi : BitVec 16) :
    w &&& ~~~layWord 0 fw fb fi = wordN op ↔
      w = layWord op (w.extractLsb' 21 3 &&& fw) (w.extractLsb' 20 1 &&& fb)
        (w.extractLsb' 0 16 &&& fi) := by
  rw [word_eq_iff_fields, word_eq_iff_fields (v := w)]
  simp only [BitVec.extractLsb'_and]
  rw [extractLsb'_not_of_le _ (by decide), extractLsb'_not_of_le _ (by decide),
    extractLsb'_not_of_le _ (by decide), extractLsb'_not_of_le _ (by decide),
    extractLsb'_not_of_le _ (by decide)]
  simp only [wordN, layWord_op, layWord_wsel, layWord_b, layWord_z, layWord_imm_whole,
    and_not_eq_zero_iff, BitVec.ofNat_eq_ofNat, BitVec.not_zero, BitVec.and_allOnes]

/-- The bits of `imm` that a sub-field of its `k` low bits keeps. -/
theorem imm_and_allOnes (w : Word) (k : Nat) :
    w.extractLsb' 0 16 &&& (BitVec.allOnes k).setWidth 16 = (w.extractLsb' 0 k).setWidth 16 := by
  apply BitVec.eq_of_getLsbD_eq
  intro i hi
  by_cases h : i < k <;> simp [h, hi]

theorem selects_wordN_iff {w : Word} {op : BitVec 8} :
    w &&& 0xFFFFFFFF = wordN op ↔ w = wordN op := by
  rw [show w &&& 0xFFFFFFFF = w from BitVec.and_allOnes]

theorem selects_wordW_iff {c : Command} {op : BitVec 8} :
    c.cmd &&& 0xFF1FFFFF = wordN op ↔ c.cmd = layWord op c.wsel 0 0 := by
  rw [show (0xFF1FFFFF : Word) = ~~~layWord 0 (BitVec.allOnes 3) 0 0 by decide,
    selects_iff_layWord]
  simp only [BitVec.and_allOnes, BitVec.ofNat_eq_ofNat, BitVec.and_zero, Command.wsel]

theorem selects_wordS_iff {c : Command} {op : BitVec 8} :
    c.cmd &&& 0xFFFFFFFC = wordN op ↔ c.cmd = wordS op (c.two.setWidth 16) := by
  rw [show (0xFFFFFFFC : Word) = ~~~layWord 0 0 0 ((BitVec.allOnes 2).setWidth 16) by decide,
    selects_iff_layWord, imm_and_allOnes]
  simp only [BitVec.ofNat_eq_ofNat, BitVec.and_zero, wordS, Command.two]

/-- Format `B` with a sub-field of `k` bits. -/
theorem selects_wordB_iff {c : Command} {op : BitVec 8} {mask : Word} (k : Nat)
    (hmask : mask = ~~~layWord 0 0 (BitVec.allOnes 1) ((BitVec.allOnes k).setWidth 16)) :
    c.cmd &&& mask = wordN op ↔ c.cmd = wordB op c.buf ((c.cmd.extractLsb' 0 k).setWidth 16) := by
  rw [hmask, selects_iff_layWord, imm_and_allOnes, wordB, buf_sel]
  simp only [BitVec.and_allOnes, BitVec.ofNat_eq_ofNat, BitVec.and_zero]

/-! ### What the rows read -/

/-- The row reads the command `c` as the instruction `i`. -/
def Row.Reads (r : Row) (c : Command) (i : Instr) : Prop :=
  c.cmd &&& r.mask = r.pattern ∧ r.build c = some i

/-- Decoding is reading by some row. -/
theorem decode_eq_ok_iff {c : Command} {i : Instr} :
    decode c = .ok i ↔ ∃ r ∈ rows, r.Reads c i := by
  constructor
  · exact row_of_decode
  · rintro ⟨r, hr, hselects, hbuild⟩
    rw [decode_row hr hselects, hbuild]

/-! One lemma per format. The hypothesis `hop` says that the row's pattern holds its opcode and no other
bit. -/

section
variable {name : String} {pattern mask : Word} {c : Command} {i : Instr}

theorem rowN_reads_iff {f : Command → Instr} (hop : pattern = wordN (pattern.extractLsb' 24 8)) :
    (rowOf name pattern 0xFFFFFFFF f).Reads c i ↔
      c.cmd = wordN (pattern.extractLsb' 24 8) ∧ f c = i := by
  generalize pattern.extractLsb' 24 8 = op at hop ⊢
  subst hop
  exact and_congr selects_wordN_iff Option.some_inj

theorem rowW_reads_iff {f : Width → Quad → Instr}
    (hop : pattern = wordN (pattern.extractLsb' 24 8)) :
    (rowW name pattern f).Reads c i ↔
      ∃ w, c.cmd = wordW (pattern.extractLsb' 24 8) w ∧ f w c.opv = i := by
  generalize pattern.extractLsb' 24 8 = op at hop ⊢
  subst hop
  simp only [Row.Reads, rowW, selects_wordW_iff, Option.map_eq_some_iff, widthOf_eq_some_iff]
  constructor
  · rintro ⟨hcmd, w, hw, rfl⟩
    exact ⟨w, by rw [hcmd, hw, wordW], rfl⟩
  · rintro ⟨w, hcmd, rfl⟩
    have hw : c.wsel = w.sel := by rw [Command.wsel, hcmd, wordW, layWord_wsel]
    exact ⟨by rw [hcmd, hw, wordW], w, hw, rfl⟩

variable {build : Command → Option Instr}

theorem rowS_reads_iff (hop : pattern = wordN (pattern.extractLsb' 24 8)) :
    (Row.mk name pattern 0xFFFFFFFC build).Reads c i ↔
      c.cmd = wordS (pattern.extractLsb' 24 8) (c.two.setWidth 16) ∧ build c = some i := by
  generalize pattern.extractLsb' 24 8 = op at hop ⊢
  subst hop
  exact and_congr_left' selects_wordS_iff

/-- Format `B` with a sub-field of `k` bits. -/
theorem rowB_reads_iff (k : Nat) (hop : pattern = wordN (pattern.extractLsb' 24 8))
    (hmask : mask = ~~~layWord 0 0 (BitVec.allOnes 1) ((BitVec.allOnes k).setWidth 16)) :
    (Row.mk name pattern mask build).Reads c i ↔
      c.cmd = wordB (pattern.extractLsb' 24 8) c.buf ((c.cmd.extractLsb' 0 k).setWidth 16) ∧
        build c = some i := by
  generalize pattern.extractLsb' 24 8 = op at hop ⊢
  subst hop
  exact and_congr_left' (selects_wordB_iff k hmask)

theorem rowS_reads_wordS (x : BitVec 2) (o : Quad)
    (hop : pattern = wordN (pattern.extractLsb' 24 8))
    (hbuild : build ⟨wordS (pattern.extractLsb' 24 8) (x.setWidth 16), o⟩ = some i) :
    (Row.mk name pattern 0xFFFFFFFC build).Reads
      ⟨wordS (pattern.extractLsb' 24 8) (x.setWidth 16), o⟩ i :=
  (rowS_reads_iff hop).2 ⟨by rw [wordS_two], hbuild⟩

theorem rowB_reads_wordB (b : Buf) {k : Nat} (x : BitVec k) (o : Quad) (hk : k ≤ 16)
    (hop : pattern = wordN (pattern.extractLsb' 24 8))
    (hmask : mask = ~~~layWord 0 0 (BitVec.allOnes 1) ((BitVec.allOnes k).setWidth 16))
    (hbuild : build ⟨wordB (pattern.extractLsb' 24 8) b (x.setWidth 16), o⟩ = some i) :
    (Row.mk name pattern mask build).Reads
      ⟨wordB (pattern.extractLsb' 24 8) b (x.setWidth 16), o⟩ i := by
  refine (rowB_reads_iff k hop hmask).2 ⟨?_, hbuild⟩
  have hx : (wordB (pattern.extractLsb' 24 8) b (x.setWidth 16)).extractLsb' 0 k = x :=
    layWord_imm_field _ _ _ x hk
  rw [wordB_buf, hx]

end

/-! ### What a row reads is laid out as the word -/

/-- `c` is the layout of `i`: it has the word of the encoding, and the `opv` too where `i` reads it
(R83). -/
def Instr.LaidOutAs (i : Instr) (c : Command) : Prop :=
  i.WellFormed ∧ (encode i).cmd = c.cmd ∧ (encode i).opv = if i.readsOpv then c.opv else 0

section
variable {r : Row} {c : Command} {i : Instr} (h : r.Reads c i)
include h

theorem systemRows_laidOut (hr : r ∈ systemRows) : i.LaidOutAs c := by
  fin_cases hr
  · -- SETCTL
    obtain ⟨hcmd, ⟨⟩⟩ := (rowS_reads_iff rfl).1 h
    exact ⟨trivial, hcmd.symm, rfl⟩
  · -- RDREG
    obtain ⟨hcmd, hbuild⟩ := (rowS_reads_iff rfl).1 h
    obtain ⟨reg, hreg, rfl⟩ := Option.map_eq_some_iff.1 hbuild
    rw [regOf_eq_some_iff.1 hreg] at hcmd
    exact ⟨trivial, hcmd.symm, rfl⟩
  · -- SRESET
    obtain ⟨hcmd, rfl⟩ := (rowN_reads_iff rfl).1 h
    exact ⟨trivial, hcmd.symm, rfl⟩

theorem bufferRows_laidOut (hr : r ∈ bufferRows) : i.LaidOutAs c := by
  fin_cases hr
  · -- PUSH
    obtain ⟨hcmd, ⟨⟩⟩ := (rowB_reads_iff 1 rfl rfl).1 h
    rw [← ofBool_bit] at hcmd
    exact ⟨trivial, hcmd.symm, rfl⟩
  · -- PUSHB
    obtain ⟨hcmd, ⟨⟩⟩ := (rowB_reads_iff 8 rfl rfl).1 h
    exact ⟨trivial, hcmd.symm, rfl⟩
  · -- EXT
    obtain ⟨hcmd, hbuild⟩ := (rowB_reads_iff 8 rfl rfl).1 h
    obtain ⟨hn, ⟨⟩⟩ := Option.ite_none_right_eq_some.1 hbuild
    rw [← BitVec.ofNat_toNat] at hcmd
    exact ⟨hn, hcmd.symm, rfl⟩
  -- BLOAD to RESERVE have no immediate.
  all_goals
    obtain ⟨hcmd, ⟨⟩⟩ := (rowB_reads_iff 0 rfl rfl).1 h
    rw [BitVec.of_length_zero (x := c.cmd.extractLsb' 0 0)] at hcmd
    exact ⟨trivial, hcmd.symm, rfl⟩

theorem streamRows_laidOut (hr : r ∈ streamRows) : i.LaidOutAs c := by
  fin_cases hr
  all_goals
    obtain ⟨hcmd, rfl⟩ := (rowN_reads_iff rfl).1 h
    exact ⟨trivial, hcmd.symm, rfl⟩

theorem codecRows_laidOut (hr : r ∈ codecRows) : i.LaidOutAs c := by
  fin_cases hr
  all_goals
    obtain ⟨w, hcmd, rfl⟩ := (rowW_reads_iff rfl).1 h
    exact ⟨trivial, hcmd.symm, rfl⟩

theorem byteRows_laidOut (hr : r ∈ byteRows) : i.LaidOutAs c := by
  fin_cases hr
  pick_goal 5
  · -- TOP
    obtain ⟨hcmd, rfl⟩ := (rowN_reads_iff rfl).1 h
    exact ⟨trivial, hcmd.symm, rfl⟩
  all_goals
    obtain ⟨w, hcmd, rfl⟩ := (rowW_reads_iff rfl).1 h
    exact ⟨trivial, hcmd.symm, rfl⟩

theorem rows_laidOut (hr : r ∈ rows) : i.LaidOutAs c := by
  simp only [rows, List.mem_append] at hr
  rcases hr with (((hr | hr) | hr) | hr) | hr
  · exact systemRows_laidOut h hr
  · exact bufferRows_laidOut h hr
  · exact streamRows_laidOut h hr
  · exact codecRows_laidOut h hr
  · exact byteRows_laidOut h hr

end

/-! ### The row of an instruction reads its encoding -/

/-- The count of an `EXT` fits its sub-field. -/
theorem ext_count {n : Nat} (h : n ≤ 128) :
    (BitVec.ofNat 8 n).toNat = n ∧ BitVec.ofNat 16 n = (BitVec.ofNat 8 n).setWidth 16 := by
  have hn : (BitVec.ofNat 8 n).toNat = n := by
    rw [BitVec.toNat_ofNat, Nat.mod_eq_of_lt (by omega)]
  exact ⟨hn, by rw [← BitVec.ofNat_toNat, hn]⟩

/-- The rows stand in the order of the constructors, and each reads what its instructions encode to. -/
theorem rows_read_encode (i : Instr) (h : i.WellFormed) :
    ∃ r, rows[i.ctorIdx]? = some r ∧ r.Reads (encode i) i := by
  cases i with
  | setctl ctl =>
    exact ⟨_, rfl, rowS_reads_wordS ctl 0 rfl (by simp only [wordS_two])⟩
  | rdreg reg =>
    exact ⟨_, rfl, rowS_reads_wordS reg.sel 0 rfl
      (by rw [wordS_two, regOf_eq_some_iff.2 rfl, Option.map_some])⟩
  | push b bit =>
    exact ⟨_, rfl, rowB_reads_wordB b (BitVec.ofBool bit) 0 (by decide) rfl rfl
      (by simp only [wordB_buf, wordB_bit])⟩
  | pushb b byte =>
    exact ⟨_, rfl, rowB_reads_wordB b byte 0 (by decide) rfl rfl
      (by simp only [wordB_buf, wordB_byte])⟩
  | ext b n o =>
    obtain ⟨hn, hfield⟩ := ext_count h
    refine ⟨_, rfl, ?_⟩
    rw [encode, hfield]
    exact rowB_reads_wordB b (BitVec.ofNat 8 n) o (by decide) rfl rfl
      (by rw [wordB_buf, wordB_byte, hn, if_pos h])
  | bload b _ | reserve b _ | tobits b | tobytes b | len b | isempty b | clear b | cap b =>
    exact ⟨_, rfl, rowB_reads_wordB b 0#0 _ (by decide) rfl rfl (by simp only [wordB_buf])⟩
  | sreset | wfin | rread | top _ =>
    exact ⟨_, rfl, (rowN_reads_iff rfl).2 ⟨rfl, rfl⟩⟩
  | uenc w _ | genc w _ | denc w _ | vbenc w _ | clz w _ | popcnt w _
  | udec1 w | udecn w | udecs w | gdec1 w | gdecn w | gdecs w | ddec1 w | ddecn w | ddecs w
  | vbdec1 w | vbdecs w =>
    exact ⟨_, rfl, (rowW_reads_iff rfl).2 ⟨w, rfl, rfl⟩⟩

/-- Settles O7: the row of the instruction reads its encoding, and decoding is reading by a row. -/
theorem decodeOfEncodeIsTheInstruction : Obligations.DecodeOfEncodeIsTheInstruction := by
  intro i hwf
  obtain ⟨r, hget, hreads⟩ := rows_read_encode i hwf
  exact decode_eq_ok_iff.2 ⟨r, List.mem_of_getElem? hget, hreads⟩

/-- Settles O8: a command decodes by some row, and what a row reads is laid out as the command. -/
theorem encodeOfDecodeIsTheWord : Obligations.EncodeOfDecodeIsTheWord := by
  intro c i h
  obtain ⟨r, hr, hreads⟩ := decode_eq_ok_iff.1 h
  exact rows_laidOut hreads hr

/-- Settles O11: the words are the encodings of their commands. -/
theorem wordsOfTheSpecDecode : Obligations.WordsOfTheSpecDecode :=
  have decodes {i : Instr} (hwf : i.WellFormed) := decodeOfEncodeIsTheInstruction i hwf
  ⟨decodes (i := .push .wbuf true) trivial, decodes (i := .pushb .rbuf 0xB8) trivial,
    decodes (i := .ext .wbuf 3 5) (by decide), decodes (i := .bload .rbuf 13) trivial,
    decodes (i := .setctl 3) trivial, decodes (i := .rdreg .cur) trivial,
    decodes (i := .genc .w32 9) trivial, decodes (i := .ddecs .w128) trivial,
    decodes (i := .top 0x8C) trivial⟩

end Sys2Proof
end

section
/-! Proofs about the opcode map: which commands decode, which are illegal, and what an illegal one does
(30_encoding.md R84, R85). -/

namespace Sys2Proof

/-- Settles O9: what a selected row builds is what is decoded, no selected row is an error, and rows with
a word in common are the same row. -/
theorem decodingFollowsTheOpcodeMap : Obligations.DecodingFollowsTheOpcodeMap := by
  refine ⟨fun c r hr hselects => ⟨fun i hbuild => ?_, fun hbuild => ?_⟩, fun c => decode_none,
    fun w r q hr hq hwr hwq => ?_, rfl⟩
  · rw [decode_row hr hselects, hbuild]
  · rw [decode_row hr hselects, hbuild]
  · rw [row_unique hr hq hwr hwq]

/-- No opcode has two rows. -/
theorem rows_opcode_nodup : (rows.map fun r => r.pattern.extractLsb' 24 8).Nodup := by decide

theorem decode_error_of_unselected {c : Command} (h : ∀ r ∈ rows, c.cmd &&& r.mask ≠ r.pattern) :
    ∃ e, decode c = .error e :=
  (decode_none h).elim (fun he => ⟨_, he⟩) fun he => ⟨_, he⟩

/-- The illegal words, by the three clauses of R85. -/
theorem decode_eq_error_iff {c : Command} : (∃ e, decode c = .error e) ↔
    ((∀ r ∈ rows, r.pattern.extractLsb' 24 8 ≠ c.op) ∨
     (∃ r ∈ rows, r.pattern.extractLsb' 24 8 = c.op ∧ c.cmd &&& r.mask ≠ r.pattern) ∨
     (∃ r ∈ rows, c.cmd &&& r.mask = r.pattern ∧ r.build c = none)) := by
  constructor
  · rintro ⟨e, he⟩
    by_cases hsel : ∃ r ∈ rows, c.cmd &&& r.mask = r.pattern
    · obtain ⟨r, hr, hselects⟩ := hsel
      refine .inr (.inr ⟨r, hr, hselects, Option.eq_none_iff_forall_ne_some.2 fun i hbuild => ?_⟩)
      rw [decode_eq_ok_iff.2 ⟨r, hr, hselects, hbuild⟩] at he
      cases he
    · push Not at hsel
      by_cases hop : ∃ r ∈ rows, r.pattern.extractLsb' 24 8 = c.op
      · obtain ⟨r, hr, hop⟩ := hop
        exact .inr (.inl ⟨r, hr, hop, hsel r hr⟩)
      · push Not at hop
        exact .inl hop
  · rintro (hop | ⟨r, hr, hop, hstray⟩ | ⟨r, hr, hselects, hbuild⟩)
    · exact decode_error_of_unselected fun r hr hselects => hop r hr (op_of_selects hr hselects)
    · refine decode_error_of_unselected fun q hq hselects => hstray ?_
      have hqr : q = r := List.inj_on_of_nodup_map rows_opcode_nodup hq hr
        ((op_of_selects hq hselects).trans hop.symm)
      rwa [← hqr]
    · exact ⟨_, by rw [decode_row hr hselects, hbuild]⟩

end Sys2Proof

namespace Sys2Proof.Machine

theorem runCommand_of_decode_error {c : Command} {e : DecodeError} (h : decode c = .error e)
    (s : State) : runCommand c s = .next (illegalCommand c.cmd s) := by
  simp only [runCommand, h]

/-- Settles O10: the clauses of R85, and the step of an illegal word raises `IllegalCommand` in the
state that has accepted it. -/
theorem illegalWordAnswersIllegalCommand : Obligations.IllegalWordAnswersIllegalCommand := by
  refine ⟨fun c => decode_eq_error_iff, fun s c io rest e hport hdecode => ?_,
    ⟨.unknownOpcode, by decide⟩, ⟨.unknownOpcode, by decide⟩⟩
  have hstep : step s = .next (illegalCommand c.cmd (acceptCommand io rest s)) := by
    rw [step_of_port_command hport, runCommand_of_decode_error hdecode]
  exact ⟨_, hstep, raise_fails _ _ rfl⟩

end Sys2Proof.Machine
end

section
/-! Proofs about the list forms: a run goes on after `OK` and stops at the first error, and what a list
form of `VBENC` has written when a write fails (30_encoding.md R87, 10_state.md R31). -/

namespace Sys2Proof.Machine

section
variable {i : Instr} {is : List Instr} {ios : Nat → IoChoice} {s t : State}

theorem lastOk_of_resp {r : Response} (h : t.resp = some r) : lastOk t = decide (r.status = .ok) := by
  simp only [lastOk, h]

theorem runList_cons_of_ok (h : issue i (ios 0) s = .next t) (hok : lastOk t = true) :
    runList (i :: is) ios s = runList is (fun k => ios (k + 1)) t := by
  rw [runList, h]
  exact if_pos hok

theorem runList_cons_of_error (h : issue i (ios 0) s = .next t) (herr : lastOk t = false) :
    runList (i :: is) ios s = .next t := by
  rw [runList, h]
  exact if_neg (by rw [herr]; decide)

end

/-- The group of bytes that `VBENC` writes for an operand. -/
def vbBytes (w : Width) (x : Quad) : List Byte := vbGroup (valueOperand w x)

/-- A `VBENC` whose write succeeds appends its group. -/
theorem issue_vbenc_ok {io : IoChoice} (h : io.write = none) (w : Width) (x : Quad) (s : State) :
    issue (.vbenc w x) io s = .next (respond .ok (vbBytes w x).length []
      { acceptCommand io s.port s with snk := s.snk ++ (vbBytes w x).map .byte }) := by
  rcases exec_vbenc_cases w x (acceptCommand io s.port s) with ⟨f, hf, -⟩ | ⟨-, e⟩
  · rw [acceptCommand_io, h] at hf
    cases hf
  · exact e

/-- A `VBENC` whose write fails appends the first bytes of its group. -/
theorem issue_vbenc_error {io : IoChoice} {f : IoFail} (h : io.write = some f) (w : Width) (x : Quad)
    (s : State) :
    issue (.vbenc w x) io s = .next (raise .ioError f.info.toNat
      { acceptCommand io s.port s with snk := s.snk ++ ((vbBytes w x).take f.moved).map .byte }) := by
  rcases exec_vbenc_cases w x (acceptCommand io s.port s) with ⟨g, hg, e⟩ | ⟨hnone, -⟩
  · rw [acceptCommand_io, h] at hg
    cases hg
    exact e
  · rw [acceptCommand_io, h] at hnone
    cases hnone

/-- A list form of `VBENC` whose write fails at `v`, by induction on the values before it: each appends
its group, and the failing one the first bytes of its own. -/
theorem runList_vbenc_writeFails (w : Width) (vs rest : List Quad) (v : Quad) {f : IoFail}
    (ios : Nat → IoChoice) (s : State) (hok : ∀ k, k < vs.length → (ios k).write = none)
    (hfail : (ios vs.length).write = some f) :
    ∃ t, runList ((vs ++ v :: rest).map (.vbenc w)) ios s = .next t ∧
      Reports t .ioError f.info.toNat [] ∧ statusLast t.status = Code.ioError.num ∧
      t = { s with
            snk := s.snk ++ (vs.flatMap (vbBytes w) ++ (vbBytes w v).take f.moved).map .byte,
            status := t.status, resp := t.resp, io := ios vs.length,
            draws := s.draws + vs.length + 1 } := by
  induction vs generalizing ios s with
  | nil =>
    have hissue := issue_vbenc_error hfail w v s
    exact ⟨_, runList_cons_of_error hissue rfl, respond_reports _ _ _ _,
      (recordStatus_recorded .ioError s.status).1, rfl⟩
  | cons x xs ih =>
    have hissue := issue_vbenc_ok (hok 0 (by simp)) w x s
    obtain ⟨t, hrun, hreports, hlast, ht⟩ := ih (fun k => ios (k + 1)) _
      (fun k hk => hok (k + 1) (by simpa using hk)) hfail
    refine ⟨t, (runList_cons_of_ok hissue rfl).trans hrun, hreports, hlast, ht.trans ?_⟩
    simp [Nat.add_assoc, Nat.add_comm 1]

/-- Settles O60: a word stands for every well-formed command (O7), so issuing it is a step; the run of a
list goes on or stops as its first response says; and the list form of `VBENC`. -/
theorem listFormStopsAtTheFirstError : Obligations.ListFormStopsAtTheFirstError := by
  refine ⟨fun i io s hwf => issue_eq_step (decodeOfEncodeIsTheInstruction i hwf) io s,
    fun i is ios s t r hissue hresp => ⟨fun hok => ?_, fun herr => ?_⟩,
    fun w vs rest v ios f s hok hfail => runList_vbenc_writeFails w vs rest v ios s hok hfail⟩
  · exact runList_cons_of_ok hissue (by rw [lastOk_of_resp hresp, hok]; rfl)
  · exact runList_cons_of_error hissue (by rw [lastOk_of_resp hresp]; exact decide_eq_false herr)

end Sys2Proof.Machine
end

section
/-! Proofs about the bit buffer commands that append: `PUSH`, `PUSHB` and `EXT` (40_bitbuffer.md R111 to
R113). Each ends in a response to the state with one buffer replaced, or in `CapacityError`. -/

namespace Sys2Proof.Machine

/-- A response to the state with buffer `b` replaced: nothing but that buffer, `STATUS` and the response
differs. -/
theorem respond_setBuf_frame (c : Code) (n : Nat) (l : List Quad) (b : Buf) (B : Buffer) (s : State) :
    respond c n l (s.setBuf b B) =
      { s.setBuf b ((respond c n l (s.setBuf b B)).buf b) with
        status := (respond c n l (s.setBuf b B)).status
        resp := (respond c n l (s.setBuf b B)).resp } := by
  rw [respond_buf, setBuf_buf]
  rfl

/-- The end of the commands that append bits `x` which fit. -/
theorem respond_appendBits_appended {s : State} (hs : Inv s) {b : Buf} {x : List Bool}
    (hfits : FitsBits s.capb ((s.buf b).len + x.length)) (c : Code) (n : Nat) (l : List Quad) :
    Appended x (s.buf b) ((respond c n l (s.setBuf b ((s.buf b).appendBits x))).buf b) := by
  rw [respond_buf, setBuf_buf]
  exact Buffer.appendBits_appended (hs.buf b) x hfits

/-- A success with buffer `b` replaced. -/
theorem respond_setBuf_completes (n : Nat) (l : List Quad) (b : Buf) (B : Buffer) (s : State) :
    Completes s (respond .ok n l (s.setBuf b B)) .ok n l :=
  respond_completes .ok n l (setBuf_status b B s)

/-- Settles O24, by the two ends of `PUSH`. -/
theorem pushAppendsOneBit : Obligations.PushAppendsOneBit := by
  intro b x s hs
  rcases exec_push_cases b x s with ⟨hfits, hexec⟩ | ⟨hfull, hexec⟩
  · exact ⟨fun _ => ⟨_, hexec, respond_appendBits_appended hs hfits _ _ _,
      respond_setBuf_completes _ _ _ _ s, respond_setBuf_frame _ _ _ _ _ s⟩,
      fun hfull => absurd hfits hfull⟩
  · exact ⟨fun hfits => absurd hfits hfull, fun _ => ⟨_, hexec, raise_fails _ _ rfl⟩⟩

/-- Settles O25, by the two ends of `PUSHB`. -/
theorem pushbAppendsAnAlignedByte : Obligations.PushbAppendsAnAlignedByte := by
  intro b y s hs
  rcases exec_pushb_cases b y s with ⟨hfits, hexec⟩ | ⟨hfull, hexec⟩
  · refine ⟨fun _ => ⟨_, hexec, ?_, ?_, ?_, respond_setBuf_completes _ _ _ _ s,
      respond_setBuf_frame _ _ _ _ _ s⟩, fun hfull => absurd hfits hfull⟩ <;>
      rw [respond_buf, setBuf_buf]
    · rw [unpack_cons, unpack_nil, List.append_nil]
      exact Buffer.appendByte_bits (hs.buf b) y
    · exact Buffer.appendByte_len _ y
    · exact Buffer.appendByte_frame (hs.buf b).wf y
  · exact ⟨fun hfits => absurd hfits hfull, fun _ => ⟨_, hexec, raise_fails _ _ rfl⟩⟩

@[simp] theorem bitsOperand_length (n : Nat) (opv : Quad) : (bitsOperand n opv).length = n :=
  lowBits_length opv.toNat n

/-- The most significant of the `n` low bits of `opv` comes first. -/
theorem bitsOperand_getElem (n : Nat) (opv : Quad) (j : Nat) (h : j < (bitsOperand n opv).length) :
    (bitsOperand n opv)[j] = opv.getLsbD (n - 1 - j) := by
  rw [Nat.sub_right_comm]
  exact lowBits_getElem opv.toNat n j h

/-- Settles O26, by the two ends of `EXT`; the bits are those of the operand. -/
theorem extAppendsTheLowBits : Obligations.ExtAppendsTheLowBits := by
  intro b n opv s hs _
  rcases exec_ext_cases b n opv s with ⟨hfits, hexec⟩ | ⟨hfull, hexec⟩
  · have hbits : FitsBits s.capb ((s.buf b).len + (bitsOperand n opv).length) := by
      rwa [bitsOperand_length]
    exact ⟨fun _ => ⟨_, bitsOperand n opv, hexec, bitsOperand_length n opv,
      bitsOperand_getElem n opv, respond_appendBits_appended hs hbits _ _ _,
      respond_setBuf_completes _ _ _ _ s, respond_setBuf_frame _ _ _ _ _ s⟩,
      fun hfull => absurd hfits hfull⟩
  · exact ⟨fun hfits => absurd hfits hfull, fun _ => ⟨_, hexec, raise_fails _ _ rfl⟩⟩

end Sys2Proof.Machine
end

section
/-! Proofs about the bit buffer commands that answer and change no buffer: `TOBITS`, `TOBYTES`, `LEN`,
`ISEMPTY`, `CAP` and `RESERVE` (40_bitbuffer.md R115 to R118, R120, R121). -/

namespace Sys2Proof.Machine

/-! ### The items of the two lists -/

theorem bitItems_bits_getElem (B : Buffer) (a : Nat) (h : a < (bitItems B.bits).length) :
    (bitItems B.bits)[a].toNat = (B.bitAt a).toNat := by
  simp only [bitItems, List.getElem_map, Buffer.bits_getElem]
  cases B.bitAt a <;> rfl

@[simp] theorem byteItems_bytes_length (B : Buffer) : (byteItems B.bytes).length = B.nbytes := by
  simp [byteItems]

theorem byteItems_bytes_getElem (B : Buffer) (k : Nat) (h : k < (byteItems B.bytes).length) :
    (byteItems B.bytes)[k] = (memRead B.mem k).setWidth 128 := by
  simp [byteItems, Buffer.bytes]

/-- A live byte holds its bits of the sequence, MSB first, and zeros past the length. -/
theorem memRead_getLsbD_of_ok {c : Capacity} {B : Buffer} (h : Buffer.Ok c B) {k : Nat}
    (hk : k < B.nbytes) {j : Nat} (hj : j < 8) :
    (memRead B.mem k).getLsbD (7 - j) = B.bits.getD (8 * k + j) false := by
  have hread : memRead B.mem k = packByte B.bits k := by
    have hget : B.bytes[k]? = (pack B.bits)[k]? := by rw [Buffer.bytes_eq_pack h]
    have hk' : k < (B.len + 7) / 8 := hk
    simpa [Buffer.bytes, pack, hk, hk'] using hget
  rw [hread, packByte_getLsbD _ _ _ (by omega), show 7 - (7 - j) = j by omega]

/-- Settles O28: `TOBITS` is one response, with the bits of the buffer. -/
theorem tobitsAnswersTheBits : Obligations.TobitsAnswersTheBits := fun b s =>
  ⟨_, bitItems (s.buf b).bits, rfl, by simp [bitItems], bitItems_bits_getElem (s.buf b),
    respond_completes _ _ _ rfl, rfl⟩

/-- Settles O29: `TOBYTES` is one response, with the live bytes, and these are `Pack` of the bits. -/
theorem tobytesAnswersThePackedBits : Obligations.TobytesAnswersThePackedBits := by
  intro b s hs
  refine ⟨_, byteItems (s.buf b).bytes, rfl, byteItems_bytes_length _,
    byteItems_bytes_getElem (s.buf b), fun k hk j hj => ?_, respond_completes _ _ _ rfl, rfl⟩
  rw [byteItems_bytes_getElem, BitVec.getLsbD_setWidth, decide_eq_true (by omega), Bool.true_and]
  exact memRead_getLsbD_of_ok (hs.buf b) (by simpa using hk) hj

/-! ### The capacity -/

/-- What `CAP` and `RESERVE` report, in the three cases of R120. -/
theorem capacityBits_cases (c : Capacity) :
    (∀ k, c = .bytes k → 8 * k < 2 ^ 128 → capacityBits c = 8 * k) ∧
    (∀ k, c = .bytes k → 2 ^ 128 ≤ 8 * k → capacityBits c = 2 ^ 128 - 1) ∧
    (c = .unbounded → capacityBits c = 2 ^ 128 - 1) := by
  refine ⟨?_, ?_, ?_⟩
  · rintro k rfl hk
    exact if_pos hk
  · rintro k rfl hk
    exact if_neg (Nat.not_lt.2 hk)
  · rintro rfl
    rfl

/-- Settles O30: each of the three is one response. -/
theorem lenIsemptyCapAnswer : Obligations.LenIsemptyCapAnswer := by
  intro b s
  obtain ⟨hfit, hlarge, hunbounded⟩ := capacityBits_cases s.capb
  exact ⟨⟨_, rfl, respond_completes _ _ _ rfl, rfl⟩,
    ⟨_, _, rfl, respond_completes _ _ _ rfl, fun h => if_pos h, fun h => if_neg h, rfl⟩,
    ⟨_, _, rfl, respond_completes _ _ _ rfl, hfit, hlarge, hunbounded, rfl⟩⟩

/-- Settles O31, by the two ends of `RESERVE`. -/
theorem reserveAsksForRoom : Obligations.ReserveAsksForRoom := by
  intro b opv s
  obtain ⟨hfit, hlarge, hunbounded⟩ := capacityBits_cases s.capb
  rcases exec_reserve_cases b opv s with ⟨hfits, hexec⟩ | ⟨hfull, hexec⟩
  · exact ⟨fun _ => ⟨_, _, hexec, respond_completes _ _ _ rfl, hfit, hlarge, hunbounded, rfl⟩,
      fun hfull => absurd hfits hfull⟩
  · exact ⟨fun hfits => absurd hfits hfull, fun _ => ⟨_, hexec, raise_fails _ _ rfl⟩⟩

end Sys2Proof.Machine
end

section
/-! Proofs about the bit buffer commands that replace a whole buffer: `CLEAR` and `BLOAD`, which on the
reader side move `CUR` to 0, and `BLOAD` followed by `TOBYTES` (40_bitbuffer.md R114, R119, R122). -/

namespace Sys2Proof.Machine

theorem rewind_eq (b : Buf) (s : State) :
    s.rewind b = { s with cur := if b = .rbuf then 0 else s.cur } := by
  cases b <;> rfl

/-- A response to the state with buffer `b` replaced and, on the reader side, `CUR` at 0. -/
theorem respond_setBuf_rewind_frame (c : Code) (n : Nat) (l : List Quad) (b : Buf) (B : Buffer)
    (s : State) :
    respond c n l ((s.setBuf b B).rewind b) =
      { s.setBuf b ((respond c n l ((s.setBuf b B).rewind b)).buf b) with
        cur := if b = .rbuf then 0 else s.cur
        status := (respond c n l ((s.setBuf b B).rewind b)).status
        resp := (respond c n l ((s.setBuf b B).rewind b)).resp } := by
  rw [respond_buf, rewind_buf, setBuf_buf, rewind_eq, setBuf_cur]
  rfl

/-- Settles O32: `CLEAR` is one response, to the state with the buffer emptied. -/
theorem clearDiscardsAllBits : Obligations.ClearDiscardsAllBits := by
  intro b s
  refine ⟨_, rfl, ?_, ?_, ?_, respond_completes _ _ _ (by simp),
    respond_setBuf_rewind_frame _ _ _ _ _ s⟩ <;>
    rw [respond_buf, rewind_buf, setBuf_buf]
  · exact Buffer.cleared_bits _
  · exact Buffer.cleared_len _
  · exact Buffer.cleared_mem _

/-- The length test of `BLOAD`, over the integers and as the model makes it. -/
theorem bload_length_iff (n L : Nat) :
    (8 * ((n : Int) - 1) ≤ L ∧ (L : Int) ≤ 8 * n) ↔ 8 * n ≤ L + 8 ∧ L ≤ 8 * n := by
  omega

/-- Settles O27, by the four ends of `BLOAD`. -/
theorem bloadLoadsAnExactLength : Obligations.BloadLoadsAnExactLength := by
  intro b opv s hs
  rcases exec_bload_cases b opv s with ⟨f, hread, hexec⟩ | ⟨hread, hfull, hexec⟩ |
    ⟨hread, hfits, hlength, hexec⟩ | ⟨hread, hfits, hlow, hhigh, hexec⟩
  · refine ⟨fun g hg => ?_, fun hnone => ?_⟩
    · obtain rfl : f = g := Option.some_inj.1 (hread.symm.trans hg)
      exact ⟨_, hexec, raise_fails _ _ rfl⟩
    · rw [hread] at hnone
      cases hnone
  all_goals
    refine ⟨fun f hf => absurd (hread.symm.trans hf) (by simp), fun _ => ?_⟩
  · exact ⟨fun _ => ⟨_, hexec, raise_fails _ _ rfl⟩, fun hfits => absurd hfits hfull,
      fun hfits => absurd hfits hfull⟩
  · exact ⟨fun hfull => absurd hfits hfull,
      fun _ hlow hhigh => absurd ((bload_length_iff _ _).1 ⟨hlow, hhigh⟩) hlength,
      fun _ _ => ⟨_, hexec, raise_fails _ _ rfl⟩⟩
  · refine ⟨fun hfull => absurd hfits hfull, fun _ _ _ => ⟨_, hexec, ?_,
      respond_completes _ _ _ (by simp), ?_⟩,
      fun _ hlength => absurd ((bload_length_iff _ _).2 ⟨hlow, hhigh⟩) hlength⟩
    · rw [respond_buf, rewind_buf, setBuf_buf]
      exact Buffer.set_loaded (hs.buf b).wf s.src opv.toNat hhigh
    · refine (respond_setBuf_rewind_frame _ _ _ _ _ s.drained).trans ?_
      cases b <;> rfl

theorem take_unpack_pack (x : List Bool) : (unpack (pack x)).take x.length = x := by
  rw [unpack_pack, List.take_left]

/-- Settles O33: `BLOAD` loads the bits of the bytes (O27), which are `x`, and keeps the invariant, under
which the live bytes are `Pack` of the bits. -/
theorem bloadInvertsPack : Obligations.BloadInvertsPack := by
  intro b x s hs hread hsrc hfits hx
  have hopv : (BitVec.ofNat 128 x.length).toNat = x.length := by
    rw [BitVec.toNat_ofNat, Nat.mod_eq_of_lt hx]
  have hlen : s.src.length = (x.length + 7) / 8 := by rw [hsrc, pack_length]
  obtain ⟨-, hload⟩ := bloadLoadsAnExactLength b (BitVec.ofNat 128 x.length) s hs
  obtain ⟨-, hsuccess, -⟩ := hload hread
  rw [hopv, hlen] at hsuccess
  obtain ⟨t, hexec, ⟨hbits, -⟩, -⟩ := hsuccess hfits (by omega) (by omega)
  rw [hsrc, take_unpack_pack] at hbits
  have hbytes : (t.buf b).bytes = pack x := by
    rw [Buffer.bytes_eq_pack ((exec_keeps_inv hs hexec).buf b), hbits]
  have hn : (t.buf b).nbytes = (x.length + 7) / 8 := by
    rw [← Buffer.bytes_length, hbytes, pack_length]
  refine ⟨t, _, byteItems (t.buf b).bytes, hexec, hbits, rfl, ?_, by rw [hbytes, byteItems]⟩
  rw [← hn]
  exact respond_completes _ _ _ rfl

end Sys2Proof.Machine
end

section
/-! Proofs about the bit writer (41_bitwriter.md R141 to R143): what `WFIN` emits, and that a payload comes
back through the framing. What the reader makes of the bytes of its source is one relation, `Recovers`. -/

namespace Sys2Proof.Machine

/-! ### What the reader makes of its source -/

/-- The bits `x` that a reader recovers from the bytes of a stream (42_bitreader.md R151): none from no
byte, with `RSENT` off every bit, with `RSENT` on those before the sentinel of the last byte. -/
structure Recovers (rsent : Bool) (src : List Byte) (x : List Bool) : Prop where
  of_empty : src = [] → x = []
  of_raw : src ≠ [] → rsent = false → x = unpack src
  of_sentinel : src ≠ [] → rsent = true →
    ∃ k, k < 8 ∧ unpack src = x ++ [true] ++ List.replicate k false

/-- A stream is the payload, a sentinel and padding in one way only: the sentinel is the least set bit of
the last byte. -/
theorem payload_unique {bytes : List Byte} {x y : List Bool} {j k : Nat} (hj : j < 8) (hk : k < 8)
    (hx : unpack bytes = x ++ [true] ++ List.replicate j false)
    (hy : unpack bytes = y ++ [true] ++ List.replicate k false) : x = y := by
  obtain ⟨-, hlastj⟩ := top8_of_stream hj hx
  obtain ⟨-, hlastk⟩ := top8_of_stream hk hy
  obtain rfl : j = k := Option.some_inj.1 (hlastj.symm.trans hlastk)
  exact List.append_cancel_right (List.append_cancel_right (hx.symm.trans hy))

theorem last_ne_zero_of_stream {bytes : List Byte} {x : List Bool} {k : Nat} (hk : k < 8)
    (h : unpack bytes = x ++ [true] ++ List.replicate k false) : bytes.getLastD 0 ≠ 0 := by
  intro hzero
  obtain ⟨kept, hkept, -⟩ := stripSentinel_of_stream hk h
  rw [stripSentinel_none.2 hzero] at hkept
  cases hkept

/-- `RREAD` with no failure and room loads the bits that its source holds, consumes the source and sets
the cursor to 0. -/
theorem exec_rread_of_recovers {s : State} {x : List Bool} (hwf : Memory.wf s.rbuf.mem)
    (hread : s.io.read = none) (hfits : FitsBytes s.capb s.src.length)
    (hx : Recovers (ctrlRsent s.ctrl) s.src x) :
    ∃ t, exec .rread s = .next t ∧ Loaded x s.rbuf t.rbuf ∧ Completes s t .ok x.length [] ∧
      t = { s with rbuf := t.rbuf, src := [], cur := 0, status := t.status, resp := t.resp } := by
  suffices ∃ bytes : List Byte, x.length ≤ 8 * bytes.length ∧ (unpack bytes).take x.length = x ∧
      exec .rread s = .next (respond .ok x.length [] (s.read bytes x.length)) by
    obtain ⟨bytes, hlen, htake, hexec⟩ := this
    have hload := Buffer.set_loaded hwf bytes x.length hlen
    rw [htake] at hload
    exact ⟨_, hexec, hload, respond_completes _ _ _ rfl, rfl⟩
  rcases exec_rread_cases s with ⟨f, hfail, -⟩ | ⟨-, hfull, -⟩ | ⟨-, -, hempty, hexec⟩ |
    ⟨-, -, hne, hoff, hexec⟩ | ⟨-, -, hne, hon, hzero, -⟩ |
    ⟨-, -, hne, hon, payload, k, bytes, hk, hstream, hlen, htake, hexec⟩
  · rw [hread] at hfail
    cases hfail
  · exact absurd hfits hfull
  · obtain rfl := hx.of_empty hempty
    exact ⟨[], Nat.le_refl _, rfl, hexec⟩
  · obtain rfl := hx.of_raw hne hoff
    refine ⟨s.src, Nat.le_of_eq (unpack_length _), List.take_length, ?_⟩
    rw [unpack_length]
    exact hexec
  · obtain ⟨j, hj, hstream⟩ := hx.of_sentinel hne hon
    exact absurd hzero (last_ne_zero_of_stream hj hstream)
  · obtain ⟨j, hj, hx⟩ := hx.of_sentinel hne hon
    obtain rfl := payload_unique hj hk hx hstream
    exact ⟨bytes, hlen, htake, hexec⟩

/-! ### What the writer emits -/

/-- The bytes that reach the sink when `WFIN` meets no failure: none from an empty writer, under either
flag (41_bitwriter.md R141, corner case a). -/
def State.emitted (s : State) : List Byte := if s.wbuf.len = 0 then [] else s.stream

theorem stream_length (s : State) : s.stream.length =
    if ctrlWsent s.ctrl then s.wbuf.len / 8 + 1 else (s.wbuf.len + 7) / 8 := by
  rw [streamBytes_length, Buffer.bits_length]

theorem emitted_length_le (s : State) : s.emitted.length ≤ s.wbuf.len / 8 + 1 := by
  rw [State.emitted]
  split
  · exact Nat.zero_le _
  · rw [stream_length]
    split <;> omega

theorem emitted_eq_nil {s : State} : s.emitted = [] ↔ s.wbuf.len = 0 := by
  rw [State.emitted]
  split
  next hzero => exact iff_of_true rfl hzero
  next hpos =>
    refine iff_of_false (fun hnil => ?_) hpos
    have hlen := stream_length s
    rw [hnil, List.length_nil] at hlen
    split at hlen <;> omega

theorem emitted_padded {s : State} (hne : s.emitted ≠ []) :
    PaddedBytes (sentBits (ctrlWsent s.ctrl) s.wbuf.bits) s.emitted := by
  rw [State.emitted, if_neg (emitted_eq_nil.not.1 hne)]
  exact streamBytes_padded _ _

/-- With both flags on the reader recovers the payload from what the writer emits. -/
theorem recovers_emitted_sentinel {s : State} (h : ctrlWsent s.ctrl = true) :
    Recovers true s.emitted s.wbuf.bits where
  of_empty hnil := Buffer.bits_eq_nil.2 (emitted_eq_nil.1 hnil)
  of_raw _ hoff := nomatch hoff
  of_sentinel hne _ := by
    have hstream := emitted_padded hne
    rwa [h] at hstream

/-- With both flags off it recovers the payload and the padding. -/
theorem recovers_emitted_raw {s : State} (h : ctrlWsent s.ctrl = false) : Recovers false s.emitted
    (s.wbuf.bits ++ List.replicate ((8 - s.wbuf.len % 8) % 8) false) where
  of_empty hnil := by
    have hzero := emitted_eq_nil.1 hnil
    rw [Buffer.bits_eq_nil.2 hzero, hzero]
    rfl
  of_raw hne _ := by
    rw [State.emitted, if_neg (emitted_eq_nil.not.1 hne), State.stream, h, ← Buffer.bits_length]
    exact (unpack_pack s.wbuf.bits).symm
  of_sentinel _ hon := nomatch hon

/-! ### From the writer to the reader -/

/-- The loop back takes every byte of the sink. -/
@[simp] theorem byte?_comp_byte : SinkEvent.byte? ∘ SinkEvent.byte = some := rfl

/-- `WFIN` and the host's loop back, with empty streams and no failure: the bytes emitted stand in the
source, the writer is empty, and the reader side is as before. -/
theorem exec_wfin_loopBack {s : State} (hsrc : s.src = []) (hsnk : s.snk = [])
    (hwrite : s.io.write = none) (hflush : s.io.flush = none) (rest : List HostInput) :
    ∃ t, exec .wfin s = .next t ∧ loopBack rest t =
      { s with wbuf := s.wbuf.cleared, src := s.emitted, port := rest, status := t.status,
               resp := t.resp } := by
  rcases exec_wfin_cases s with ⟨hzero, hexec⟩ | ⟨-, f, hfail, -⟩ | ⟨-, -, info, hfail, -⟩ |
    ⟨hpos, -, -, hexec⟩
  · have hcleared : s.wbuf.cleared = s.wbuf := by rw [Buffer.cleared, ← hzero]
    refine ⟨_, hexec, ?_⟩
    simp [loopBack, hsrc, hsnk, hcleared, State.emitted, hzero]
  · rw [hwrite] at hfail
    cases hfail
  · rw [hflush] at hfail
    cases hfail
  · refine ⟨_, hexec, ?_⟩
    simp [loopBack, hsrc, hsnk, State.emitted, hpos, SinkEvent.byte?]

/-- A payload that the reader recovers from what the writer emits comes back through `WFIN`, the loop back
and `RREAD`. -/
theorem framing_gives_back {s : State} {x : List Bool} (hs : Inv s) (hsrc : s.src = [])
    (hsnk : s.snk = []) (hio : s.io = .allOk) (hfits : FitsBytes s.capb (s.wbuf.len / 8 + 1))
    (hx : Recovers (ctrlRsent s.ctrl) s.emitted x) :
    ∃ t u, exec .wfin s = .next t ∧ exec .rread (loopBack [] t) = .next u ∧
      u.cur = 0 ∧ u.src = [] ∧ u.snk = [] ∧ u.wbuf.len = 0 ∧ u.rbuf.bits = x := by
  obtain ⟨t, hwfin, hloop⟩ := exec_wfin_loopBack hsrc hsnk (by rw [hio]; rfl) (by rw [hio]; rfl) []
  obtain ⟨u, hrread, ⟨hbits, -⟩, -, hu⟩ := exec_rread_of_recovers (s := loopBack [] t) (x := x)
    (by rw [hloop]; exact (hs.buf .rbuf).wf) (by rw [hloop, hio]; rfl)
    (by rw [hloop]; exact fitsBytes_mono hfits (emitted_length_le s)) (by rw [hloop]; exact hx)
  refine ⟨t, u, hwfin, hrread, ?_⟩
  rw [hu, hloop]
  exact ⟨rfl, rfl, hsnk, rfl, hbits⟩

/-- Settles O36: what the reader recovers from what the writer emits, with both flags on and with both
off. -/
theorem framingRoundTrip : Obligations.FramingRoundTrip := by
  intro s hs hsrc hsnk hio hfits hctrl
  rcases hctrl with hctrl | hctrl
  · have hwsent : ctrlWsent s.ctrl = true := by rw [hctrl]; decide
    have hrsent : ctrlRsent s.ctrl = true := by rw [hctrl]; decide
    obtain ⟨t, u, hwfin, hrread, hcur, husrc, husnk, hlen, hbits⟩ :=
      framing_gives_back hs hsrc hsnk hio hfits (by rw [hrsent]; exact recovers_emitted_sentinel hwsent)
    exact ⟨t, u, hwfin, hrread, hcur, husrc, husnk, hlen, fun _ => hbits,
      fun hzero => absurd (hctrl.symm.trans hzero) (by decide)⟩
  · have hwsent : ctrlWsent s.ctrl = false := by rw [hctrl]; decide
    have hrsent : ctrlRsent s.ctrl = false := by rw [hctrl]; decide
    obtain ⟨t, u, hwfin, hrread, hcur, husrc, husnk, hlen, hbits⟩ :=
      framing_gives_back hs hsrc hsnk hio hfits (by rw [hrsent]; exact recovers_emitted_raw hwsent)
    exact ⟨t, u, hwfin, hrread, hcur, husrc, husnk, hlen,
      fun hthree => absurd (hctrl.symm.trans hthree) (by decide), fun _ => hbits⟩

/-- Settles O34, by the four ends of `WFIN`; the bytes are `s.stream`. -/
theorem wfinEmitsTheEncodedStream : Obligations.WfinEmitsTheEncodedStream := by
  intro s
  have hbytes := streamBytes_padded (ctrlWsent s.ctrl) s.wbuf.bits
  have hlength := stream_length s
  rcases exec_wfin_cases s with ⟨hzero, hexec⟩ | ⟨hpos, f, hwrite, hexec⟩ |
    ⟨hpos, hwrite, info, hflush, hexec⟩ | ⟨hpos, hwrite, hflush, hexec⟩
  · exact ⟨fun _ => ⟨_, hexec, respond_completes _ _ _ rfl, rfl⟩, fun hpos => absurd hzero hpos⟩
  · refine ⟨fun hzero => absurd hzero hpos, fun _ => ⟨s.stream, hbytes, hlength,
      fun hok _ => absurd hok (by simp [hwrite]),
      fun g hg => ?_, fun _ hok _ => absurd hok (by simp [hwrite])⟩⟩
    obtain rfl : f = g := Option.some_inj.1 (hwrite.symm.trans hg)
    exact ⟨_, hexec, raise_fails _ _ rfl⟩
  · refine ⟨fun hzero => absurd hzero hpos, fun _ => ⟨s.stream, hbytes, hlength,
      fun _ hok => absurd hok (by simp [hflush]), fun g hg => absurd hg (by simp [hwrite]),
      fun info' _ hinfo => ?_⟩⟩
    obtain rfl : info = info' := Option.some_inj.1 (hflush.symm.trans hinfo)
    exact ⟨_, hexec, raise_fails _ _ rfl⟩
  · exact ⟨fun hzero => absurd hzero hpos, fun _ => ⟨s.stream, hbytes, hlength,
      fun _ _ => ⟨_, hexec, rfl, rfl, respond_completes _ _ _ rfl, rfl⟩,
      fun g hg => absurd hg (by simp [hwrite]), fun info _ hinfo => absurd hinfo (by simp [hflush])⟩⟩

end Sys2Proof.Machine
end

section
/-! Proofs about the bit reader (42_bitreader.md R151): what `RREAD` recovers from its source. -/

namespace Sys2Proof.Machine

/-- The three successes of R151, in the words of the statement. -/
theorem recovers_of_cases {rsent : Bool} {src : List Byte} {x : List Bool}
    (h : (src = [] ∧ x = []) ∨ (src ≠ [] ∧ rsent = false ∧ x = unpack src) ∨
      (rsent = true ∧ ∃ k, k < 8 ∧ unpack src = x ++ [true] ++ List.replicate k false)) :
    Recovers rsent src x := by
  rcases h with ⟨hnil, hx⟩ | ⟨hne, hoff, hx⟩ | ⟨hon, k, hk, hstream⟩
  · exact ⟨fun _ => hx, fun hne => absurd hnil hne, fun hne => absurd hnil hne⟩
  · exact ⟨fun hnil => absurd hnil hne, fun _ _ => hx, fun _ hon => (nomatch hoff.symm.trans hon)⟩
  · exact ⟨fun hnil => absurd hnil (top8_of_stream hk hstream).1,
      fun _ hoff => (nomatch hoff.symm.trans hon), fun _ _ => ⟨k, hk, hstream⟩⟩

/-- `RREAD` with `RSENT` on and no sentinel in the last byte, where the read and the capacity give no
error. -/
theorem exec_rread_of_no_sentinel {s : State} (hread : s.io.read = none)
    (hfits : FitsBytes s.capb s.src.length) (hon : ctrlRsent s.ctrl = true) (hne : s.src ≠ [])
    (hzero : s.src.getLastD 0 = 0) :
    exec .rread s = .next (raise .noTerminatingBitError s.src.length s.drained) := by
  rcases exec_rread_cases s with ⟨f, hfail, -⟩ | ⟨-, hfull, -⟩ | ⟨-, -, hempty, -⟩ |
    ⟨-, -, -, hoff, -⟩ | ⟨-, -, -, -, -, hexec⟩ | ⟨-, -, -, -, payload, k, bytes, hk, hstream, -⟩
  · exact nomatch hread.symm.trans hfail
  · exact absurd hfits hfull
  · exact absurd hempty hne
  · exact nomatch hoff.symm.trans hon
  · exact hexec
  · exact absurd hzero (last_ne_zero_of_stream hk hstream)

/-- Settles O35: the errors of the read and of the capacity are ends of `RREAD`; with neither, the source
holds bits to recover or a last byte of 0. -/
theorem rreadRecoversTheBits : Obligations.RreadRecoversTheBits := by
  intro s hs
  refine ⟨fun f hfail => ?_, fun hread => ⟨fun hfull => ?_, fun x hfits hx => ?_,
    fun hfits hon ⟨l, hsrc⟩ => ?_⟩⟩
  · rcases exec_rread_cases s with ⟨g, hg, hexec⟩ | ⟨hread, -⟩ | ⟨hread, -⟩ | ⟨hread, -⟩ |
      ⟨hread, -⟩ | ⟨hread, -⟩
    · obtain rfl : g = f := Option.some_inj.1 (hg.symm.trans hfail)
      exact ⟨_, hexec, raise_fails _ _ rfl⟩
    all_goals exact nomatch hread.symm.trans hfail
  · rcases exec_rread_cases s with ⟨f, hfail, -⟩ | ⟨-, -, hexec⟩ | ⟨-, hfits, -⟩ | ⟨-, hfits, -⟩ |
      ⟨-, hfits, -⟩ | ⟨-, hfits, -⟩
    · exact nomatch hread.symm.trans hfail
    · exact ⟨_, hexec, raise_fails _ _ rfl⟩
    all_goals exact absurd hfits hfull
  · exact exec_rread_of_recovers (hs.buf .rbuf).wf hread hfits (recovers_of_cases hx)
  · exact ⟨_, exec_rread_of_no_sentinel hread hfits hon (by simp [hsrc]) (by simp [hsrc]),
      raise_fails _ _ rfl⟩

end Sys2Proof.Machine
end

section
/-! Proofs about the shared ends of the bit-sequence codecs, for any codeword: an encoder appends its
codeword whole or fails, and each of the three decode commands does what its decoder answers (43_unary.md
R161 to R165). The decoders come in as `Peels` and `Exacts`, the codewords as a function. -/

namespace Sys2Proof.Machine

/-! ### The encoders -/

/-- A codeword that fits is appended, and nothing else differs but `STATUS` and the response. -/
theorem emitCodeword_appended {s : State} (hs : Inv s) {x : List Bool}
    (hfits : FitsBits s.capb (s.wbuf.len + x.length)) :
    Appended x s.wbuf (emitCodeword x.length x s).wbuf ∧
      Completes s (emitCodeword x.length x s) .ok x.length [] ∧
      emitCodeword x.length x s =
        { s with wbuf := (emitCodeword x.length x s).wbuf
                 status := (emitCodeword x.length x s).status
                 resp := (emitCodeword x.length x s).resp } := by
  rw [emitCodeword_fits hfits]
  exact ⟨Buffer.appendBits_appended (hs.buf .wbuf) x hfits, respond_completes _ _ _ rfl, rfl⟩

/-- A codeword that does not fit is `CapacityError`. -/
theorem emitCodeword_fails {s : State} {x : List Bool}
    (hfull : ¬ FitsBits s.capb (s.wbuf.len + x.length)) :
    FailsFrom s s (emitCodeword x.length x s) .capacityError (s.wbuf.len + x.length) := by
  rw [emitCodeword_full hfull]
  exact raise_fails _ _ rfl

/-! ### The decoders -/

section
variable {i : Width → Instr} {word : Nat → List Bool} {low : Nat} {limit : Nat → Nat} {err : Code}

/-- A command that ends in `finishExact` is a `DEC1` command of what its decoder accepts. -/
theorem Exacts.decodesExactlyOne {exact : Nat → List Bool → Except Code Nat}
    (hexec : ∀ w s, exec (i w) s = .next (finishExact (exact w.bits s.rem) s))
    (h : ∀ w : Width, Exacts (exact w.bits) word low (limit w.bits) err) :
    DecodesExactlyOne i word low limit err := by
  intro w s
  rw [hexec]
  refine ⟨fun v hlow hle hrem => ?_, fun v hlow hlt hrem => ?_, fun hrem => ?_⟩
  · rw [hrem, (h w).accepts v hlow hle]
    exact ⟨_, rfl, respond_completes _ _ _ rfl, rfl⟩
  · rw [hrem, (h w).overflows v hlow hlt]
    exact ⟨_, rfl, raise_fails _ _ rfl⟩
  · rw [(h w).rejects s.rem hrem]
    exact ⟨_, rfl, raise_fails _ _ rfl⟩

variable {peel : Nat → List Bool → Peeled}

/-- A command that ends in `finishNext` is a `DECN` command of what its decoder accepts. -/
theorem Peels.decodesNext
    (hexec : ∀ w s, exec (i w) s = .next (finishNext (peel w.bits s.rem) s))
    (h : ∀ w : Width, Peels (peel w.bits) word low (limit w.bits) err) :
    DecodesNext i word low limit err := by
  intro w s
  rw [hexec]
  refine ⟨fun v rest hlow hle hrem => ?_, fun v rest hlow hlt hrem => ?_, fun hrem => ?_⟩
  · rw [hrem, (h w).accepts v rest hlow hle]
    exact ⟨_, rfl, respond_completes _ _ _ rfl, rfl⟩
  · rw [hrem, (h w).overflows v rest hlow hlt]
    exact ⟨_, rfl, raise_fails _ _ rfl⟩
  · rw [(h w).rejects s.rem hrem]
    exact ⟨_, rfl, raise_fails _ _ rfl⟩

/-- A stream with no failing codeword is delivered whole. -/
theorem finishStream_of_ok {peel : List Bool → Peeled} {s : State} {out : List Nat}
    (h : decodeStream peel s.rem.length s.cur s.rem = .ok out) :
    finishStream peel s = respond .ok out.length (valueItems out) { s with cur := s.rbuf.len } := by
  rw [finishStream, h]

/-- The first failing codeword is raised at its address. -/
theorem finishStream_of_error {peel : List Bool → Peeled} {s : State} {c : Code} {a : Nat}
    (h : decodeStream peel s.rem.length s.cur s.rem = .error (c, a)) :
    finishStream peel s = raise c a s := by
  rw [finishStream, h]

/-- A command that ends in `finishStream` is a `DECS` command of what its decoder accepts: the loop gets
through the acceptable codewords, and the tail's failure is the decoder's. -/
theorem Peels.decodesStream
    (hexec : ∀ w s, exec (i w) s = .next (finishStream (peel w.bits) s))
    (h : ∀ w : Width, Peels (peel w.bits) word low (limit w.bits) err) (hne : ∀ v, word v ≠ []) :
    DecodesStream i word low limit err := by
  intro w s vs tail hvs hrem
  obtain ⟨hwhole, htail⟩ := decodeStream_words (h w) (fun v _ => hne v) vs hvs tail s.rem.length s.cur
    (by rw [hrem])
  rw [← hrem] at hwhole htail
  rw [hexec]
  refine ⟨fun hnil => ?_, fun v rest hlow hlt hv => ?_, fun hpos hno => ?_⟩
  · rw [finishStream_of_ok (hwhole hnil)]
    exact ⟨_, rfl, respond_completes _ _ _ rfl, rfl⟩
  · have hpos : tail ≠ [] := by simp [hv, hne v]
    rw [finishStream_of_error (htail _ hpos (by rw [hv, (h w).overflows v rest hlow hlt]))]
    exact ⟨_, rfl, raise_fails _ _ rfl⟩
  · rw [finishStream_of_error (htail _ hpos ((h w).rejects tail hno))]
    exact ⟨_, rfl, raise_fails _ _ rfl⟩

end

/-- An exact decoder against the front-of-stream decoder of the same codewords: where that one answers, the
bits begin with its codeword, and they are one codeword exactly when it used them all. -/
theorem Exacts.eq_of_peel {exact : List Bool → Except Code Nat} {peel : List Bool → Peeled}
    {word : Nat → List Bool} {low limit : Nat} {err : Code} (he : Exacts exact word low limit err)
    (hp : Peels peel word low limit err) {s : List Bool} {v used : Nat}
    (hs : peel s = .ok (v, used)) :
    exact s = if used = s.length then .ok v else .error err := by
  split
  next hall =>
    obtain ⟨hlow, hle, hused, rest, hword⟩ := hp.of_ok hs
    have hlen : (word v).length = (word v ++ rest).length := by rw [← hword, ← hused, hall]
    obtain rfl : rest = [] := by simpa using hlen
    rw [hword, List.append_nil]
    exact he.accepts v hlow hle
  next hpart =>
    refine he.rejects s fun u hu hword => hpart ?_
    rw [← List.append_nil (word u)] at hword
    rcases Nat.lt_or_ge limit u with hlt | hle
    · rw [hword, hp.overflows u [] hu hlt] at hs
      cases hs
    · rw [hword, hp.accepts u [] hu hle] at hs
      cases hs
      rw [hword, List.append_nil]

/-- Settles O52, for each of the three codecs by its two decoders. -/
theorem exactDecodersAreFullPeels : Obligations.ExactDecodersAreFullPeels :=
  fun W _ _ _ hW => ⟨(exactU_exacts W).eq_of_peel (peelU_peels W),
    (exactG_exacts hW).eq_of_peel (peelG_peels hW), (exactD_exacts hW).eq_of_peel (peelD_peels hW)⟩

end Sys2Proof.Machine
end

section
/-! Proofs about a codec's way from the encoder to the stream decoder, for any codeword: the list form
appends the codewords in a row, the framing gives them back, and the stream decoder reads them (43_unary.md
R166, 41_bitwriter.md R143, 30_encoding.md R87). -/

namespace Sys2Proof.Machine

theorem fitsBits_mono {c : Capacity} {m n : Nat} (h : FitsBits c m) (hn : n ≤ m) : FitsBits c n :=
  fun k hk => Nat.le_trans hn (h k hk)

/-! ### The list form of an encoder -/

/-- The run of a list keeps the invariant. -/
theorem runList_keeps_inv {is : List Instr} {ios : Nat → IoChoice} {s t : State} (hs : Inv s)
    (h : runList is ios s = .next t) : Inv t := by
  induction is generalizing ios s with
  | nil =>
    cases h
    exact hs
  | cons i is ih =>
    have haccepted : Inv (acceptCommand (ios 0) s.port s) := hs
    obtain ⟨u, hissue, -⟩ := exec_ends i (acceptCommand (ios 0) s.port s)
    have hu : Inv u := exec_keeps_inv haccepted hissue
    rcases hok : lastOk u with _ | _
    · rw [runList_cons_of_error hissue hok] at h
      cases h
      exact hu
    · rw [runList_cons_of_ok hissue hok] at h
      exact ih hu h

/-- The command `i` ends as the encoder of the codeword `x`, which it appends whole or not at all. -/
def Encodes (i : Instr) (x : List Bool) : Prop :=
  ∀ s, exec i s = .next (emitCodeword x.length x s)

/-- An encoder with room, issued by the host. -/
theorem Encodes.issue {i : Instr} {x : List Bool} (h : Encodes i x) {s : State}
    (hfits : FitsBits s.capb (s.wbuf.len + x.length)) (io : IoChoice) :
    ∃ t, issue i io s = .next t ∧ lastOk t = true ∧
      t = { s with wbuf := s.wbuf.appendBits x, status := t.status, resp := t.resp, io := io,
                   draws := s.draws + 1 } := by
  refine ⟨_, h (acceptCommand io s.port s), ?_⟩
  rw [emitCodeword_fits (s := acceptCommand io s.port s) hfits]
  exact ⟨rfl, rfl⟩

/-- A list of encoders with room appends their codewords in a row, by induction on the values. -/
theorem runList_encodes {i : Nat → Instr} {word : Nat → List Bool} (vs : List Nat)
    (hi : ∀ v ∈ vs, Encodes (i v) (word v)) (io : IoChoice) (s : State)
    (hfits : FitsBits s.capb (s.wbuf.len + (vs.flatMap word).length)) :
    ∃ t, runList (vs.map i) (fun _ => io) s = .next t ∧
      t = { s with
            wbuf := s.wbuf.appendBits (vs.flatMap word), status := t.status, resp := t.resp,
            io := if vs = [] then s.io else io, draws := s.draws + vs.length } := by
  induction vs generalizing s with
  | nil => exact ⟨s, rfl, rfl⟩
  | cons v vs ih =>
    rw [List.flatMap_cons, List.length_append] at hfits
    obtain ⟨u, hissue, hok, hu⟩ := (hi v (by simp)).issue (fitsBits_mono hfits (by omega)) io
    have hroom : FitsBits u.capb (u.wbuf.len + (vs.flatMap word).length) := by
      rwa [hu, Buffer.appendBits_len, Nat.add_assoc]
    obtain ⟨t, hrun, ht⟩ := ih (fun x hx => hi x (by simp [hx])) u hroom
    refine ⟨t, (runList_cons_of_ok hissue hok).trans hrun, ht.trans ?_⟩
    rw [hu]
    simp [Buffer.appendBits_append, Nat.add_assoc, Nat.add_comm 1]

/-! ### The round trip -/

/-- With the cursor at 0 every bit of the reader remains. -/
theorem rem_of_cur_zero {s : State} (h : s.cur = 0) : s.rem = s.rbuf.bits := by
  rw [State.rem, Buffer.slice, h, ← Buffer.bits_length, subseq_to_end, List.drop_zero]

/-- From an empty writer the list form leaves the codewords in `WBUF`, and the framing takes them to the
reader. -/
theorem encoded_list_reaches_reader {i : Nat → Instr} {word : Nat → List Bool} {vs : List Nat}
    (hi : ∀ v ∈ vs, Encodes (i v) (word v)) (hvs : vs ≠ []) {s : State} (hs : Inv s)
    (hempty : s.wbuf.len = 0) (hctrl : s.ctrl = 3) (hsrc : s.src = []) (hsnk : s.snk = [])
    (hfits : FitsBytes s.capb ((vs.flatMap word).length / 8 + 1)) :
    ∃ t u v, runList (vs.map i) (fun _ => .allOk) s = .next t ∧ exec .wfin t = .next u ∧
      exec .rread (loopBack [] u) = .next v ∧ v.cur = 0 ∧ v.rbuf.bits = vs.flatMap word := by
  obtain ⟨t, hrun, ht⟩ := runList_encodes vs hi .allOk s
    (fitsBits_of_bytes hfits (by rw [hempty]; omega))
  have hinv : Inv t := runList_keeps_inv hs hrun
  have hwbuf : t.wbuf = s.wbuf.appendBits (vs.flatMap word) := by rw [ht]
  have hbits : t.wbuf.bits = vs.flatMap word := by
    rw [hwbuf, Buffer.appendBits_bits (B := s.wbuf) (hs.buf .wbuf).wf, Buffer.bits_eq_nil.2 hempty,
      List.nil_append]
  have hlen : t.wbuf.len = (vs.flatMap word).length := by rw [← Buffer.bits_length, hbits]
  have hcapb : t.capb = s.capb := by rw [ht]
  have hon : t.ctrl = 3 := by rw [ht, hctrl]
  have hwsent : ctrlWsent t.ctrl = true := by rw [hon]; decide
  have hrsent : ctrlRsent t.ctrl = true := by rw [hon]; decide
  obtain ⟨u, v, hwfin, hrread, hcur, -, -, -, hback⟩ := framing_gives_back hinv (by rw [ht, hsrc])
    (by rw [ht, hsnk]) (by rw [ht]; exact if_neg hvs) (by rwa [hlen, hcapb])
    (by rw [hrsent]; exact recovers_emitted_sentinel hwsent)
  exact ⟨t, u, v, hrun, hwfin, hrread, hcur, hback.trans hbits⟩

section
variable {dec1 decs : Width → Instr} {word : Nat → List Bool} {low : Nat} {limit : Nat → Nat}
  {err : Code}

/-- The round trip of a codec: its list form is a list of encoders of the codewords, and its stream
decoder reads codewords in a row. -/
theorem DecodesStream.streamRoundTrip (hdec : DecodesStream decs word low limit err)
    {list : Width → List Quad → Pseudo} {enc : Width → Quad → Instr}
    (hexpand : ∀ w qs, expand (list w qs) = qs.map (enc w))
    (henc : ∀ w v, low ≤ v → v ≤ limit w.bits → Encodes (enc w (BitVec.ofNat 128 v)) (word v)) :
    StreamRoundTrip list decs word low limit := by
  intro w s vs hs hempty hctrl hsrc hsnk hne hvs hfits
  obtain ⟨t, u, v, hrun, hwfin, hrread, hcur, hbits⟩ :=
    encoded_list_reaches_reader (i := fun v => enc w (BitVec.ofNat 128 v))
      (fun v hv => henc w v (hvs v hv).1 (hvs v hv).2) hne hs hempty hctrl hsrc hsnk hfits
  have hrem : v.rem = vs.flatMap word ++ [] := by
    rw [rem_of_cur_zero hcur, hbits, List.append_nil]
  obtain ⟨x, hdecs, ⟨hreports, -⟩, -⟩ := (hdec w v vs [] hvs hrem).1 rfl
  refine ⟨t, u, v, x, ?_, hwfin, hrread, hdecs, hbits, hreports⟩
  rw [runPseudo, hexpand, List.map_map]
  exact hrun

/-- The laws of a codec, from what its decode commands do and that no codeword begins another. -/
theorem DecodesStream.codecLaws (hdecs : DecodesStream decs word low limit err)
    (hdec1 : DecodesExactlyOne dec1 word low limit err)
    (hfree : ∀ {u v x y}, low ≤ u → low ≤ v → word u ++ x = word v ++ y → u = v ∧ x = y)
    {size : Nat → Nat} (hsize : ∀ v, low ≤ v → (word v).length = size v) :
    CodecLaws dec1 decs word low limit size := by
  refine ⟨fun w s v hlow hle hrem => ?_, fun u v rest hu hv hword => ?_, fun w s vs hvs hrem => ?_,
    hsize⟩
  · obtain ⟨t, hexec, ⟨hreports, -⟩, -⟩ := (hdec1 w s).1 v hlow hle hrem
    exact ⟨t, hexec, hreports⟩
  · exact hfree hu hv (hword.trans (List.append_nil _).symm)
  · obtain ⟨t, hexec, ⟨hreports, -⟩, -⟩ :=
      (hdecs w s vs [] hvs (hrem.trans (List.append_nil _).symm)).1 rfl
    exact ⟨t, hexec, hreports⟩

end

end Sys2Proof.Machine
end

section
/-! Proofs about the unary codec (43_unary.md R160 to R166). Its decoders are `peelU_peels` and
`exactU_exacts`; the commands are the shared ends of the codecs. -/

namespace Sys2Proof.Machine

theorem uenc_encodes (w : Width) (q : Quad) : Encodes (.uenc w q) (unaryWord (valueOperand w q)) := by
  intro s
  rw [unaryWord_length]
  rfl

/-- A value that fits the width is its own operand. -/
theorem valueOperand_ofNat {w : Width} {v : Nat} (h : v < 2 ^ w.bits) :
    valueOperand w (BitVec.ofNat 128 v) = v := by
  have hbits : w.bits ≤ 128 := by cases w <;> decide
  have hquad : v < 2 ^ 128 := Nat.lt_of_lt_of_le h (Nat.pow_le_pow_right (by decide) hbits)
  rw [valueOperand, BitVec.toNat_ofNat, Nat.mod_eq_of_lt hquad, Nat.mod_eq_of_lt h]

/-- Settles O37, by the two ends of an encoder. -/
theorem uencAppendsTheUnaryCodeword : Obligations.UencAppendsTheUnaryCodeword := by
  rintro w opv v s hs rfl
  have hexec := uenc_encodes w opv s
  rw [← unaryWord_length]
  exact ⟨fun hfits => ⟨_, hexec, emitCodeword_appended hs hfits⟩,
    fun hfull => ⟨_, hexec, emitCodeword_fails hfull⟩⟩

/-- Settles O40, by the exact decoder. -/
theorem udec1DecodesExactlyOne : Obligations.Udec1DecodesExactlyOne :=
  Exacts.decodesExactlyOne (exact := exactU) (fun _ _ => rfl) fun w => exactU_exacts w.bits

/-- Settles O41, by the front-of-stream decoder. -/
theorem udecnTakesOneCodeword : Obligations.UdecnTakesOneCodeword :=
  Peels.decodesNext (peel := peelU) (fun _ _ => rfl) fun w => peelU_peels w.bits

/-- Settles O42, by the front-of-stream decoder in the stream loop. -/
theorem udecsDecodesTheWholeStream : Obligations.UdecsDecodesTheWholeStream :=
  Peels.decodesStream (peel := peelU) (fun _ _ => rfl) (fun w => peelU_peels w.bits) unaryWord_ne_nil

/-- Settles O49: the round trip and the laws of a codec, from the unary commands (O40, O42). -/
theorem unaryStreamRoundTrip : Obligations.UnaryStreamRoundTrip := by
  constructor
  · refine DecodesStream.streamRoundTrip udecsDecodesTheWholeStream (enc := .uenc)
      (fun _ _ => rfl) fun w v _ hle => ?_
    have hencodes := uenc_encodes w (BitVec.ofNat 128 v)
    have hpos := Nat.two_pow_pos w.bits
    rwa [valueOperand_ofNat (by omega)] at hencodes
  · exact DecodesStream.codecLaws udecsDecodesTheWholeStream udec1DecodesExactlyOne
      (fun _ _ => unaryWord_prefixFree) fun v _ => unaryWord_length v

end Sys2Proof.Machine
end

section
/-! Proofs about the gamma codec (44_gamma.md R175 to R181). Its decoders are `peelG_peels` and
`exactG_exacts`; the commands are the shared ends of the codecs. -/

namespace Sys2Proof.Machine

/-! ### The encoder -/

/-- The gamma codeword by the place `L` of the leading one (R175). -/
theorem gammaWord_of_leadingOne {v L : Nat} (hlo : 2 ^ L ≤ v) (hhi : v < 2 ^ (L + 1)) :
    gammaWord v = List.replicate L true ++ [false] ++ lowBits v L := by
  rw [gammaWord, offset, bitlen_eq hlo hhi, Nat.add_sub_cancel]

/-- `GENC` of zero is `ZeroInputError`, whatever the room. -/
theorem exec_genc_of_zero {w : Width} {q : Quad} (h : valueOperand w q = 0) (s : State) :
    exec (.genc w q) s = .next (raise .zeroInputError 0 s) := by
  rcases exec_genc_cases w q s with ⟨-, hexec⟩ | ⟨hpos, -⟩
  · exact hexec
  · omega

theorem genc_encodes {w : Width} {q : Quad} (h : 1 ≤ valueOperand w q) :
    Encodes (.genc w q) (gammaWord (valueOperand w q)) := by
  intro s
  rcases exec_genc_cases w q s with ⟨hzero, -⟩ | ⟨-, hexec⟩
  · omega
  · exact hexec

/-- Settles O38, by the two ends of an encoder. -/
theorem gencAppendsTheGammaCodeword : Obligations.GencAppendsTheGammaCodeword := by
  rintro w opv v s hs rfl
  refine ⟨fun hzero => ⟨_, exec_genc_of_zero hzero s, raise_fails _ _ rfl⟩, fun L hlo hhi => ?_⟩
  have hexec := genc_encodes (Nat.le_trans Nat.one_le_two_pow hlo) s
  have hlength : (gammaWord (valueOperand w opv)).length = 2 * L + 1 := by
    rw [gammaWord_length, valueOperand, bitlen_eq hlo hhi, Nat.add_sub_cancel]
  rw [valueOperand, gammaWord_of_leadingOne hlo hhi] at hexec hlength
  rw [← hlength]
  exact ⟨fun hfits => ⟨_, _, hexec, lowBits_length _ L, lowBits_getElem _ L,
    emitCodeword_appended hs hfits⟩, fun hfull => ⟨_, hexec, emitCodeword_fails hfull⟩⟩

/-! ### The decoders -/

/-- Settles O43, by the exact decoder. -/
theorem gdec1DecodesExactlyOne : Obligations.Gdec1DecodesExactlyOne :=
  Exacts.decodesExactlyOne (exact := exactG) (fun _ _ => rfl) fun w => exactG_exacts w.one_le_bits

/-- Settles O44, by the front-of-stream decoder. -/
theorem gdecnTakesOneCodeword : Obligations.GdecnTakesOneCodeword :=
  Peels.decodesNext (peel := peelG) (fun _ _ => rfl) fun w => peelG_peels w.one_le_bits

/-- Settles O45, by the front-of-stream decoder in the stream loop. -/
theorem gdecsDecodesTheWholeStream : Obligations.GdecsDecodesTheWholeStream :=
  Peels.decodesStream (peel := peelG) (fun _ _ => rfl) (fun w => peelG_peels w.one_le_bits)
    gammaWord_ne_nil

/-! ### The round trip -/

/-- A value with a bit to spare in the width, as the gamma and delta decoders return them, is its own
operand. -/
theorem valueOperand_ofNat_of_spareBit {w : Width} {v : Nat} (h : v ≤ 2 ^ (w.bits - 1) - 1) :
    valueOperand w (BitVec.ofNat 128 v) = v := by
  have hhalf : 2 ^ (w.bits - 1) ≤ 2 ^ w.bits := Nat.pow_le_pow_right (by decide) (Nat.sub_le _ _)
  have hpos := Nat.two_pow_pos (w.bits - 1)
  exact valueOperand_ofNat (by omega)

/-- The length of a codeword as R181 clause c counts it. -/
theorem gammaWord_length_bitlen {v : Nat} (hv : 1 ≤ v) : (gammaWord v).length = 2 * bitlen v - 1 := by
  have hpos := bitlen_pos hv
  rw [gammaWord_length]
  omega

/-- Settles O50: the round trip and the laws of a codec, from the gamma commands (O43, O45). -/
theorem gammaStreamRoundTrip : Obligations.GammaStreamRoundTrip := by
  constructor
  · refine DecodesStream.streamRoundTrip gdecsDecodesTheWholeStream (enc := .genc)
      (fun _ _ => rfl) fun w v hlow hle => ?_
    have hvalue := valueOperand_ofNat_of_spareBit hle
    have hencodes : Encodes (.genc w (BitVec.ofNat 128 v)) _ := genc_encodes (by rwa [hvalue])
    rwa [hvalue] at hencodes
  · exact DecodesStream.codecLaws gdecsDecodesTheWholeStream gdec1DecodesExactlyOne
      gammaWord_prefixFree fun _ => gammaWord_length_bitlen

end Sys2Proof.Machine
end

section
/-! Proofs about the delta codec (45_delta.md R190 to R196). Its decoders are `peelD_peels` and
`exactD_exacts`; the commands are the shared ends of the codecs. -/

namespace Sys2Proof.Machine

/-! ### The encoder -/

/-- The bit length of a value between two powers of two. -/
theorem bitlen_of_bounds {v N : Nat} (hN : 1 ≤ N) (hlo : 2 ^ (N - 1) ≤ v) (hhi : v < 2 ^ N) :
    bitlen v = N := by
  have hsucc := Nat.sub_add_cancel hN
  rw [bitlen_eq hlo (by rwa [hsucc]), hsucc]

/-- The three segments of a delta codeword (R190), by the bit length `N` of the value and the place `M` of
the leading one of `N`. -/
theorem deltaWord_of_leadingOnes {v N M : Nat} (hv : bitlen v = N) (hlo : 2 ^ M ≤ N)
    (hhi : N < 2 ^ (M + 1)) :
    deltaWord v = List.replicate M true ++ [false] ++ lowBits N M ++ lowBits v (N - 1) := by
  rw [deltaWord, offset, hv, gammaWord_of_leadingOne hlo hhi]

/-- `DENC` of zero is `ZeroInputError`, whatever the room. -/
theorem exec_denc_of_zero {w : Width} {q : Quad} (h : valueOperand w q = 0) (s : State) :
    exec (.denc w q) s = .next (raise .zeroInputError 0 s) := by
  rcases exec_denc_cases w q s with ⟨-, hexec⟩ | ⟨hpos, -⟩
  · exact hexec
  · omega

theorem denc_encodes {w : Width} {q : Quad} (h : 1 ≤ valueOperand w q) :
    Encodes (.denc w q) (deltaWord (valueOperand w q)) := by
  intro s
  rcases exec_denc_cases w q s with ⟨hzero, -⟩ | ⟨-, hexec⟩
  · omega
  · exact hexec

/-- Settles O39, by the two ends of an encoder. -/
theorem dencAppendsTheDeltaCodeword : Obligations.DencAppendsTheDeltaCodeword := by
  rintro w opv v s hs rfl
  refine ⟨fun hzero => ⟨_, exec_denc_of_zero hzero s, raise_fails _ _ rfl⟩,
    fun N M hN hlo hhi hloN hhiN => ?_⟩
  have hpos : 1 ≤ valueOperand w opv := Nat.le_trans Nat.one_le_two_pow hlo
  have hbitlen : bitlen (valueOperand w opv) = N := bitlen_of_bounds hN hlo hhi
  have hexec := denc_encodes hpos s
  have hlength : (deltaWord (valueOperand w opv)).length = 2 * M + N := by
    rw [deltaWord_length hpos, hbitlen, bitlen_eq hloN hhiN, Nat.add_sub_cancel]
  rw [deltaWord_of_leadingOnes hbitlen hloN hhiN] at hexec hlength
  rw [← hlength]
  exact ⟨fun hfits => ⟨_, _, _, hexec, lowBits_length N M, lowBits_length _ (N - 1),
    lowBits_getElem N M, lowBits_getElem _ (N - 1), emitCodeword_appended hs hfits⟩,
    fun hfull => ⟨_, hexec, emitCodeword_fails hfull⟩⟩

/-! ### The decoders -/

/-- Settles O46, by the exact decoder. -/
theorem ddec1DecodesExactlyOne : Obligations.Ddec1DecodesExactlyOne :=
  Exacts.decodesExactlyOne (exact := exactD) (fun _ _ => rfl) fun w => exactD_exacts w.one_le_bits

/-- Settles O47, by the front-of-stream decoder. -/
theorem ddecnTakesOneCodeword : Obligations.DdecnTakesOneCodeword :=
  Peels.decodesNext (peel := peelD) (fun _ _ => rfl) fun w => peelD_peels w.one_le_bits

/-- Settles O48, by the front-of-stream decoder in the stream loop. -/
theorem ddecsDecodesTheWholeStream : Obligations.DdecsDecodesTheWholeStream :=
  Peels.decodesStream (peel := peelD) (fun _ _ => rfl) (fun w => peelD_peels w.one_le_bits)
    deltaWord_ne_nil

/-! ### The round trip -/

/-- The length of a codeword as R196 clause c counts it. -/
theorem deltaWord_length_bitlen {v : Nat} (hv : 1 ≤ v) :
    (deltaWord v).length = bitlen v - 1 + 2 * bitlen (bitlen v) - 1 := by
  have hpos := bitlen_pos hv
  have hposN := bitlen_pos hpos
  rw [deltaWord_length hv]
  omega

/-- Settles O51: the round trip and the laws of a codec, from the delta commands (O46, O48). -/
theorem deltaStreamRoundTrip : Obligations.DeltaStreamRoundTrip := by
  constructor
  · refine DecodesStream.streamRoundTrip ddecsDecodesTheWholeStream (enc := .denc)
      (fun _ _ => rfl) fun w v hlow hle => ?_
    have hvalue := valueOperand_ofNat_of_spareBit hle
    have hencodes : Encodes (.denc w (BitVec.ofNat 128 v)) _ := denc_encodes (by rwa [hvalue])
    rwa [hvalue] at hencodes
  · exact DecodesStream.codecLaws ddecsDecodesTheWholeStream ddec1DecodesExactlyOne
      deltaWord_prefixFree fun _ => deltaWord_length_bitlen

end Sys2Proof.Machine
end

section
/-! Proofs about the Variable-Byte codec (46_varbyte.md R205 to R210). What the decoders answer on groups
is `exactVb_group`, `exactVb_not_group` and `vbStream_groups`; here stand what the commands make of it, and
that a group with no leading zero digit is determined by its value. -/

namespace Sys2Proof.Machine

/-! ### Groups with no leading zero digit -/

/-- A group has no leading zero digit unless it is alone exactly when the bytes before its last do not
begin with 0. -/
theorem noLeadingZero_concat_iff {init : List Byte} {last : Byte} :
    ((init ++ [last]).length ≠ 1 → (init ++ [last]).head? ≠ some 0) ↔ init.head? ≠ some 0 := by
  cases init <;> simp

theorem toNat_lt_of_clear {y : Byte} (h : y.getLsbD 7 = false) : y.toNat < 128 := by
  rw [byte_getLsbD_seven] at h
  simpa using h

/-- A byte that ends a group is its digit and the mark. -/
theorem toNat_of_set {y : Byte} (h : y.getLsbD 7 = true) : y.toNat = y.toNat % 128 + 128 := by
  rw [byte_getLsbD_seven, decide_eq_true_iff] at h
  have := y.isLt
  omega

theorem vbSum_concat (init : List Byte) (last : Byte) :
    vbSum (init ++ [last]) = vbSum init * 128 + last.toNat % 128 := by
  rw [vbSum_append]
  simp [vbSum]

/-- Bytes with bit 7 clear are the digits of their sum in base 128, most significant first. -/
theorem vbSum_eq_ofDigits {l : List Byte} (hclear : ∀ y ∈ l, y.getLsbD 7 = false) :
    vbSum l = Nat.ofDigits 128 (l.map BitVec.toNat).reverse := by
  induction l with
  | nil => rfl
  | cons y ys ih =>
    have hy : y.toNat < 128 := toNat_lt_of_clear (hclear y (by simp))
    rw [vbSum, ih fun z hz => hclear z (by simp [hz]), List.map_cons, List.reverse_cons,
      Nat.ofDigits_append, Nat.ofDigits_singleton, Nat.mod_eq_of_lt hy]
    simp [Nat.add_comm, Nat.mul_comm]

theorem digits_vbSum {l : List Byte} (hclear : ∀ y ∈ l, y.getLsbD 7 = false)
    (hhead : l.head? ≠ some 0) : Nat.digits 128 (vbSum l) = (l.map BitVec.toNat).reverse := by
  rw [vbSum_eq_ofDigits hclear]
  refine Nat.digits_ofDigits 128 (by decide) _ (fun d hd => ?_) (fun hne => ?_)
  · obtain ⟨y, hy, rfl⟩ : ∃ y ∈ l, y.toNat = d := by simpa using hd
    exact toNat_lt_of_clear (hclear y hy)
  · cases l with
    | nil => simp at hne
    | cons y ys =>
      intro hzero
      exact hhead (congrArg some (BitVec.eq_of_toNat_eq (by simpa using hzero)))

/-- Bytes with bit 7 clear that do not begin with 0 are determined by their sum. -/
theorem clearBytes_eq_of_vbSum_eq {l m : List Byte} (hl : ∀ y ∈ l, y.getLsbD 7 = false)
    (hm : ∀ y ∈ m, y.getLsbD 7 = false) (hlhead : l.head? ≠ some 0) (hmhead : m.head? ≠ some 0)
    (h : vbSum l = vbSum m) : l = m := by
  have hdigits : (l.map BitVec.toNat).reverse = (m.map BitVec.toNat).reverse := by
    rw [← digits_vbSum hl hlhead, ← digits_vbSum hm hmhead, h]
  exact List.map_injective_iff.2 (fun _ _ => BitVec.eq_of_toNat_eq) (List.reverse_injective hdigits)

/-- R210 clause d: the last digits agree, and so do the bytes before them. -/
theorem vbGroup_vbSum {g : List Byte} (hg : IsVbGroup g) (hzero : g.length ≠ 1 → g.head? ≠ some 0) :
    vbGroup (vbSum g) = g := by
  obtain ⟨init, last, rfl, hclear, hset⟩ := hg
  obtain ⟨init', last', hgroup, hclear', hset', hsum, hhead'⟩ := vbGroup_spec (vbSum (init ++ [last]))
  rw [hgroup, vbSum_concat, vbSum_concat] at hsum
  have hlast : last' = last := by
    apply BitVec.eq_of_toNat_eq
    rw [toNat_of_set hset, toNat_of_set hset']
    omega
  have hinit : init' = init := clearBytes_eq_of_vbSum_eq hclear' hclear hhead'
    (noLeadingZero_concat_iff.1 hzero) (by omega)
  rw [hgroup, hinit, hlast]

/-! ### The encoder -/

/-- Settles O53, by the two ends of `VBENC`; the group is `vbGroup` of the operand. -/
theorem vbencWritesTheByteGroup : Obligations.VbencWritesTheByteGroup := by
  intro w opv s
  obtain ⟨init, last, hgroup, -, -, -, hhead⟩ := vbGroup_spec (valueOperand w opv)
  refine ⟨vbGroup (valueOperand w opv), vbGroup_isVbGroup _, vbSum_vbGroup _,
    by rw [hgroup]; exact noLeadingZero_concat_iff.2 hhead, ?_⟩
  rcases exec_vbenc_cases w opv s with ⟨f, hwrite, hexec⟩ | ⟨hwrite, hexec⟩
  · refine ⟨fun hok => absurd hok (by simp [hwrite]), fun g hg => ?_⟩
    obtain rfl : f = g := Option.some_inj.1 (hwrite.symm.trans hg)
    exact ⟨_, hexec, raise_fails _ _ rfl⟩
  · exact ⟨fun _ => ⟨_, hexec, respond_completes _ _ _ rfl, rfl⟩,
      fun f hf => absurd hf (by simp [hwrite])⟩

/-! ### The decoder of one group -/

section
variable {w : Width} {s : State}

theorem exec_vbdec1_of_ok (hread : s.io.read = none) {v : Nat} (h : exactVb w.bits s.src = .ok v) :
    exec (.vbdec1 w) s = .next (respond .ok v [] s.drained) := by
  simp only [exec, execVbdec1, srcReadAll_ok hread, h]

theorem exec_vbdec1_of_error (hread : s.io.read = none) {c : Code}
    (h : exactVb w.bits s.src = .error c) :
    exec (.vbdec1 w) s = .next (raise c 0 s.drained) := by
  simp only [exec, execVbdec1, srcReadAll_ok hread, h]

theorem exec_vbdec1_of_readFails {f : IoFail} (h : s.io.read = some f) :
    exec (.vbdec1 w) s = .next (raise .ioError f.info.toNat { s with src := s.src.drop f.moved }) := by
  simp only [exec, execVbdec1, srcReadAll_error h]

end

/-- Settles O54, by what `exactVb` answers on a group and on anything else. -/
theorem vbdec1DecodesExactlyOneGroup : Obligations.Vbdec1DecodesExactlyOneGroup := by
  refine fun w s => ⟨fun f hf => ⟨_, exec_vbdec1_of_readFails hf, raise_fails _ _ rfl⟩,
    fun hread => ⟨fun hg hle => ?_, fun hg hlt => ?_, fun hno => ?_⟩⟩
  · have hexact : exactVb w.bits s.src = .ok (vbSum s.src) := by
      rw [exactVb_group hg, if_neg (Nat.not_lt.2 hle)]
    exact ⟨_, exec_vbdec1_of_ok hread hexact, respond_completes _ _ _ rfl, rfl⟩
  · have hexact : exactVb w.bits s.src = .error .overflowError := by
      rw [exactVb_group hg, if_pos hlt]
    exact ⟨_, exec_vbdec1_of_error hread hexact, raise_fails _ _ rfl⟩
  · exact ⟨_, exec_vbdec1_of_error hread (exactVb_not_group hno), raise_fails _ _ rfl⟩

/-! ### The stream decoder -/

section
variable {W : Nat} {gs : List (List Byte)}

/-- At a group boundary a group too large is reported at its first byte. -/
theorem vbStream_tooLarge {g : List Byte} (hg : IsVbGroup g) (hlt : 2 ^ W - 1 < vbSum g)
    (rest : List Byte) (i : Nat) : vbStream W (g ++ rest) 0 i i = .error (.overflowError, i) := by
  rw [vbStream_group hg, Nat.zero_mul, Nat.zero_add, if_pos hlt]

/-- At a group boundary bytes that no byte ends are reported at the first of them. -/
theorem vbStream_unterminated {tail : List Byte} (hne : tail ≠ [])
    (hclear : ∀ y ∈ tail, y.getLsbD 7 = false) (i : Nat) :
    vbStream W tail 0 i i = .error (.vbCodeError, i) := by
  have hpos := List.length_pos_of_ne_nil hne
  rw [vbStream_tail hclear, if_pos (by omega)]

theorem vbStream_whole (hgs : ∀ g ∈ gs, IsVbGroup g ∧ vbSum g ≤ 2 ^ W - 1) :
    vbStream W gs.flatten 0 0 0 = .ok (gs.map vbSum) := by
  have h := vbStream_groups gs hgs [] 0
  simpa [vbStream] using h

/-- The error of the tail after acceptable groups is the error of the stream. -/
theorem vbStream_tail_error (hgs : ∀ g ∈ gs, IsVbGroup g ∧ vbSum g ≤ 2 ^ W - 1) {tail : List Byte}
    {e : Code × Nat} (h : vbStream W tail 0 gs.flatten.length gs.flatten.length = .error e) :
    vbStream W (gs.flatten ++ tail) 0 0 0 = .error e := by
  rw [vbStream_groups gs hgs, Nat.zero_add, h]

end

section
variable {w : Width} {s : State}

theorem exec_vbdecs_of_ok (hread : s.io.read = none) {out : List Nat}
    (h : vbStream w.bits s.src 0 0 0 = .ok out) :
    exec (.vbdecs w) s = .next (respond .ok out.length (valueItems out) s.drained) := by
  simp only [exec, execVbdecs, srcReadAll_ok hread, h]

theorem exec_vbdecs_of_error (hread : s.io.read = none) {c : Code} {a : Nat}
    (h : vbStream w.bits s.src 0 0 0 = .error (c, a)) :
    exec (.vbdecs w) s = .next (raise c a s.drained) := by
  simp only [exec, execVbdecs, srcReadAll_ok hread, h]

theorem exec_vbdecs_of_readFails {f : IoFail} (h : s.io.read = some f) :
    exec (.vbdecs w) s = .next (raise .ioError f.info.toNat { s with src := s.src.drop f.moved }) := by
  simp only [exec, execVbdecs, srcReadAll_error h]

/-- `VBDECS` on acceptable groups in a row delivers their values. -/
theorem exec_vbdecs_groups {gs : List (List Byte)} (hread : s.io.read = none)
    (hgs : ∀ g ∈ gs, IsVbGroup g ∧ vbSum g ≤ 2 ^ w.bits - 1) (hsrc : s.src = gs.flatten) :
    exec (.vbdecs w) s =
      .next (respond .ok gs.length (gs.map fun g => BitVec.ofNat 128 (vbSum g)) s.drained) := by
  rw [exec_vbdecs_of_ok hread (by rw [hsrc]; exact vbStream_whole hgs), List.length_map, valueItems,
    List.map_map]
  rfl

end

/-- Settles O55: the loop gets through the acceptable groups, and the tail's failure is the stream's. -/
theorem vbdecsDecodesTheWholeStream : Obligations.VbdecsDecodesTheWholeStream := by
  refine fun w s => ⟨fun f hf => ⟨_, exec_vbdecs_of_readFails hf, raise_fails _ _ rfl⟩,
    fun gs tail hread hgs hsrc => ⟨?_, ?_, ?_⟩⟩
  · rintro rfl
    rw [List.append_nil] at hsrc
    exact ⟨_, exec_vbdecs_groups hread hgs hsrc, respond_completes _ _ _ rfl, rfl⟩
  · rintro g rest hg hlt rfl
    have hstream := vbStream_tail_error hgs (vbStream_tooLarge hg hlt rest _)
    rw [← hsrc] at hstream
    exact ⟨_, exec_vbdecs_of_error hread hstream, raise_fails _ _ rfl⟩
  · intro hne hclear
    have hstream := vbStream_tail_error hgs (vbStream_unterminated hne hclear _)
    rw [← hsrc] at hstream
    exact ⟨_, exec_vbdecs_of_error hread hstream, raise_fails _ _ rfl⟩

/-! ### The round trip -/

/-- A list form of `VBENC` whose writes succeed appends the groups in a row, by induction on the values. -/
theorem runList_vbenc_writes (w : Width) (vs : List Quad) {io : IoChoice} (hio : io.write = none)
    (s : State) :
    ∃ t, runList (vs.map (.vbenc w)) (fun _ => io) s = .next t ∧
      t = { s with
            snk := s.snk ++ (vs.flatMap (vbBytes w)).map .byte, status := t.status, resp := t.resp,
            io := if vs = [] then s.io else io, draws := s.draws + vs.length } := by
  induction vs generalizing s with
  | nil => exact ⟨s, rfl, by simp⟩
  | cons v vs ih =>
    have hissue := issue_vbenc_ok hio w v s
    obtain ⟨t, hrun, ht⟩ := ih _
    refine ⟨t, (runList_cons_of_ok hissue rfl).trans hrun, ht.trans ?_⟩
    simp [Nat.add_assoc, Nat.add_comm 1]

/-- `VBENC` of values that fit the width writes their groups. -/
theorem flatMap_vbBytes_ofNat {w : Width} {vs : List Nat} (hvs : ∀ v ∈ vs, v < 2 ^ w.bits) :
    (vs.map (BitVec.ofNat 128)).flatMap (vbBytes w) = (vs.map vbGroup).flatten := by
  rw [List.flatMap_map, List.flatMap_def]
  congr 1
  exact List.map_congr_left fun v hv => congrArg vbGroup (valueOperand_ofNat (hvs v hv))

/-- The bytes of the sink, looped back to an empty source. -/
theorem loopBack_src {s : State} {l : List Byte} (hsrc : s.src = []) (hsnk : s.snk = l.map .byte)
    (rest : List HostInput) : (loopBack rest s).src = l := by
  simp [loopBack, hsrc, hsnk, SinkEvent.byte?]

/-- Settles O56: the list form leaves the groups of the values in the sink, the loop back takes them to
the source, and `VBDECS` reads them (O55); and R210 clause d. -/
theorem varByteStreamRoundTrip : Obligations.VarByteStreamRoundTrip := by
  refine ⟨fun w s vs hsrc hsnk hne hvs => ?_, fun g => vbGroup_vbSum⟩
  have hpos := Nat.two_pow_pos w.bits
  obtain ⟨t, hrun, ht⟩ := runList_vbenc_writes w (vs.map (BitVec.ofNat 128)) (io := .allOk) rfl s
  rw [flatMap_vbBytes_ofNat fun v hv => by have := hvs v hv; omega] at ht
  have hio : t.io = .allOk := by
    rw [ht]
    exact if_neg (by simpa using hne)
  have hread : (loopBack [] t).io.read = none := congrArg IoChoice.read hio
  have hback : (loopBack [] t).src = (vs.map vbGroup).flatten :=
    loopBack_src (by rw [ht, hsrc]) (by rw [ht, hsnk, List.nil_append]) []
  have hgroups : ∀ g ∈ vs.map vbGroup, IsVbGroup g ∧ vbSum g ≤ 2 ^ w.bits - 1 := by
    simpa [vbGroup_isVbGroup] using hvs
  have hdecs := exec_vbdecs_groups hread hgroups hback
  simp only [List.length_map, List.map_map, Function.comp_def, vbSum_vbGroup] at hdecs
  exact ⟨t, _, hrun, hdecs, respond_reports _ _ _ _, rfl, rfl⟩

end Sys2Proof.Machine
end

section
/-! Proofs about the numeric support commands (47_numeric_support.md R221 to R223) and the system
commands `SETCTL` and `RDREG` (48_system.md R231, R232). -/

namespace Sys2Proof.Machine

/-! ### Numeric support -/

theorem exec_clz_of_zero {w : Width} {opv : Quad} (h : valueOperand w opv = 0) (s : State) :
    exec (.clz w opv) s = .next (raise .zeroInputError 0 s) :=
  (exec_clz_cases w opv s).elim And.right fun hpos => absurd h hpos.1

theorem exec_clz_of_leadingOne {w : Width} {opv : Quad} {L : Nat} (hlo : 2 ^ L ≤ valueOperand w opv)
    (hhi : valueOperand w opv < 2 ^ (L + 1)) (s : State) :
    exec (.clz w opv) s = .next (respond .ok (w.bits - 1 - L) [] s) := by
  rcases exec_clz_cases w opv s with ⟨hzero, -⟩ | ⟨-, hexec⟩
  · have := Nat.two_pow_pos L
    omega
  · rwa [bitlen_eq hlo hhi, Nat.add_comm L 1, ← Nat.sub_sub] at hexec

theorem valueOperand_lt (w : Width) (opv : Quad) : valueOperand w opv < 2 ^ w.bits :=
  Nat.mod_lt _ (Nat.two_pow_pos _)

/-- Settles O57: with the leading one at `L` the value has `L + 1` bits, which are at most `W`. -/
theorem clzCountsLeadingZeros : Obligations.ClzCountsLeadingZeros := by
  rintro w opv v s rfl
  refine ⟨fun L hlo hhi => ⟨?_, ?_⟩, fun hzero => ?_⟩
  · exact (Nat.pow_lt_pow_iff_right Nat.one_lt_two).1 (Nat.lt_of_le_of_lt hlo (valueOperand_lt w opv))
  · exact ⟨_, exec_clz_of_leadingOne hlo hhi s, respond_completes _ _ _ rfl, rfl⟩
  · exact ⟨_, exec_clz_of_zero hzero s, raise_fails _ _ rfl⟩

theorem byteOperand_getLsbD (opv : Quad) {j : Nat} (h : j < 8) :
    (byteOperand opv).getLsbD j = opv.getLsbD j := by
  simp [byteOperand, h]

theorem top8_byteOperand_of_least {opv : Quad} {p : Nat} (hp : p < 8) (hset : opv.getLsbD p = true)
    (hleast : ∀ j, j < p → opv.getLsbD j = false) : top8 (byteOperand opv) = some p := by
  refine ((top8_spec _).1 p).2 ⟨hp, ?_, fun j hj => ?_⟩
  · rw [byteOperand_getLsbD opv hp, hset]
  · rw [byteOperand_getLsbD opv (Nat.lt_trans hj hp), hleast j hj]

theorem top8_byteOperand_of_clear {opv : Quad} (h : ∀ j, j < 8 → opv.getLsbD j = false) :
    top8 (byteOperand opv) = none := by
  refine (top8_spec _).2.2 (BitVec.eq_of_getLsbD_eq fun j hj => ?_)
  rw [byteOperand_getLsbD opv hj, h j hj]
  exact BitVec.getLsbD_zero.symm

/-- Settles O58: `TOP` answers what `top8` of the low byte is, and that is the least set bit. -/
theorem topFindsTheLeastSetBit : Obligations.TopFindsTheLeastSetBit := by
  refine fun opv s => ⟨fun p hp hset hleast => ?_, fun hclear => ?_⟩
  · have hexec : exec (.top opv) s = .next (respond .ok p [] s) := by
      simp only [exec, execTop, top8_byteOperand_of_least hp hset hleast]
    exact ⟨_, hexec, respond_completes _ _ _ rfl, rfl⟩
  · have hexec : exec (.top opv) s = .next (raise .zeroInputError 0 s) := by
      simp only [exec, execTop, top8_byteOperand_of_clear hclear]
    exact ⟨_, hexec, raise_fails _ _ rfl⟩

theorem valueOperand_testBit (w : Width) (opv : Quad) {i : Nat} (h : i < w.bits) :
    (valueOperand w opv).testBit i = opv.getLsbD i := by
  rw [valueOperand, Nat.testBit_mod_two_pow, decide_eq_true h, Bool.true_and, BitVec.testBit_toNat]

theorem popcount_eq_card (W v : Nat) :
    popcount W v = ((Finset.range W).filter fun i => v.testBit i = true).card := by
  rw [popcount, List.countP_eq_length_filter]
  simp only [Bool.decide_eq_true, Finset.card_def, Finset.filter_val, Finset.range_val,
    Multiset.range, Multiset.filter_coe, Multiset.coe_card]

theorem popcount_valueOperand (w : Width) (opv : Quad) : popcount w.bits (valueOperand w opv) =
    ((Finset.range w.bits).filter fun i => opv.getLsbD i = true).card := by
  rw [popcount_eq_card]
  refine congrArg Finset.card (Finset.filter_congr fun i hi => ?_)
  rw [valueOperand_testBit w opv (Finset.mem_range.1 hi)]

/-- Settles O59: the count over the bits of the value is the count over the low bits of the operand. -/
theorem popcntCountsSetBits : Obligations.PopcntCountsSetBits := by
  intro w opv s
  rw [← popcount_valueOperand]
  exact ⟨_, rfl, respond_completes _ _ _ rfl, rfl⟩

/-! ### `SETCTL` and `RDREG` -/

/-- The mask that the flags are cleared with keeps the bits from 2 up. -/
theorem flagsMask_getLsbD {k : Nat} (h : k < 32) : (0xFFFFFFFC#32).getLsbD k = decide (2 ≤ k) := by
  have hall : ∀ j : Fin 32, (0xFFFFFFFC#32).getLsbD j = decide (2 ≤ j.val) := by decide
  exact hall ⟨k, h⟩

/-- `SETCTL` writes the two sentinel flags and no other bit (48_system.md R231). -/
theorem writeCtl_getLsbD (ctl : BitVec 2) (ctrl : Word) (k : Nat) :
    (writeCtl ctl ctrl).getLsbD k = if k < 2 then ctl.getLsbD k else ctrl.getLsbD k := by
  rw [writeCtl, BitVec.getLsbD_or, BitVec.getLsbD_and, BitVec.getLsbD_setWidth]
  by_cases hk : k < 32
  · rw [flagsMask_getLsbD hk]
    by_cases h2 : k < 2
    · have hlt : ¬ 2 ≤ k := by omega
      simp [hk, h2, hlt]
    · have hge : 2 ≤ k := by omega
      simp [h2, hge]
  · have hge : 32 ≤ k := by omega
    have h2 : ¬ k < 2 := by omega
    simp [h2, hk, BitVec.getLsbD_of_ge ctrl k hge]

/-- Under the invariant of `CTRL` (10_state.md R27) the flags are the whole of its new value. -/
theorem writeCtl_toNat {ctrl : Word} (h : CtrlOk ctrl) (ctl : BitVec 2) :
    (writeCtl ctl ctrl).toNat = ctl.toNat := by
  have hwidth : 2 ≤ 32 := by decide
  rw [writeCtl, h, BitVec.zero_or, BitVec.toNat_setWidth_of_le hwidth]

/-- Settles O22: the bits of the new `CTRL` are those of `writeCtl`. -/
theorem setctlWritesTheSentinelFlags : Obligations.SetctlWritesTheSentinelFlags := by
  intro ctl s
  refine ⟨_, rfl, writeCtl_getLsbD ctl s.ctrl 0, writeCtl_getLsbD ctl s.ctrl 1, fun k hk => ?_,
    respond_completes _ _ _ rfl, fun hs => ?_, rfl⟩
  · exact (writeCtl_getLsbD ctl s.ctrl k).trans (if_neg (by omega))
  · obtain ⟨-, -, -, -, hctrl, -⟩ := hs
    exact writeCtl_toNat hctrl ctl

/-- Settles O23: `RDREG` answers `readReg`, which of each register is its value. -/
theorem rdregReadsEachRegister : Obligations.RdregReadsEachRegister := by
  intro r s
  have hreports : Reports (answer .ok (readReg s r) [] s) .ok (readReg s r) [] :=
    answer_reports _ _ _ _
  refine ⟨_, rfl, ?_, ?_, ?_, rfl⟩ <;> rintro rfl <;> exact hreports

end Sys2Proof.Machine
end

section
/-! Proofs of the rules about every command (60_exceptions.md R244 to R249, 70_reset_and_hazards.md R284),
by the ways a command can end (`Ends`). -/

namespace Sys2Proof.Machine

/-! ### Every command answers -/

theorem Ends.responds {i : Instr} {s t : State} (h : Ends i s t) : ∃ r, t.resp = some r := by
  cases h <;> exact ⟨_, rfl⟩

/-- No command touches the host's port, `CAPB`, the environment's choice or the counter. -/
theorem Ends.keeps_host_fields {i : Instr} {s t : State} (h : Ends i s t) :
    t.port = s.port ∧ t.capb = s.capb ∧ t.io = s.io ∧ t.draws = s.draws := by
  cases h <;> simp

/-- Settles O12: every way a command can end holds a response. -/
theorem everyCommandGivesOneResponse : Obligations.EveryCommandGivesOneResponse := by
  intro i s
  obtain ⟨t, hexec, hends⟩ := exec_ends i s
  obtain ⟨r, hr⟩ := hends.responds
  exact ⟨t, r, hexec, hr, hends.keeps_host_fields⟩

/-! ### The `STATUS` update -/

/-- The response of a state is recorded in its `STATUS`, taken from that of `s` (60_exceptions.md R247). -/
def RecordsResponse (s t : State) : Prop :=
  ∃ r, t.resp = some r ∧ StatusRecorded r.status s.status t.status

theorem respond_recordsResponse (c : Code) (n : Nat) (l : List Quad) {s u : State}
    (h : u.status = s.status) : RecordsResponse s (respond c n l u) :=
  ⟨_, rfl, (respond_completes c n l h).2⟩

/-- Every command but `RDREG` and `SRESET` ends in `respond`, from a state whose `STATUS` it has left. -/
theorem Ends.recordsResponse {i : Instr} {s t : State} (h : Ends i s t) (hrdreg : ∀ r, i ≠ .rdreg r)
    (hsreset : i ≠ .sreset) : RecordsResponse s t := by
  cases h with
  | answered r hi => exact absurd hi (hrdreg r)
  | blockReset hi => exact absurd hi hsreset
  | _ => exact respond_recordsResponse _ _ _ (by simp)

/-- Settles O13: `RDREG` ends in `answer`, `SRESET` records `OK` in a cleared `STATUS`, and the others
record their response. -/
theorem statusRecordsEveryResponse : Obligations.StatusRecordsEveryResponse := by
  refine ⟨fun i s t hexec => ⟨?_, ?_, (ends_of_exec hexec).recordsResponse⟩, ?_⟩
  · rintro r rfl
    cases hexec
    rfl
  · rintro rfl
    cases hexec
    exact recordStatus_ok_zero
  · intro s t c e hdecode hrun
    rw [runCommand_of_decode_error hdecode] at hrun
    cases hrun
    exact recordStatus_recorded _ _

/-! ### Errors -/

theorem sinkBytes_eq_some_iff {i : Instr} {s : State} {out : List Byte} : i.sinkBytes s = some out ↔
    (i = .wfin ∧ out = s.stream) ∨ ∃ w opv, i = .vbenc w opv ∧ out = vbGroup (valueOperand w opv) := by
  cases i <;> simp [Instr.sinkBytes, eq_comm]

/-- `FailedEnd i s t c`: the command `i`, begun in `s`, ended in `t` with the error `c`. Nothing had
moved, or a failing read had taken a part of the source, or a read had taken all of it, or a failing
write or flush had appended a part of the bytes offered (60_exceptions.md R248). -/
inductive FailedEnd (i : Instr) (s t : State) (c : Code) : Prop where
  | nothingMoved (n : Nat) : t = raise c n s → FailedEnd i s t c
  | readFailed (k n : Nat) : i.readsSource = true → c = .ioError →
      t = raise c n { s with src := s.src.drop k } → FailedEnd i s t c
  | readWhole (n : Nat) : i.readsSource = true → c ≠ .ioError → t = raise c n s.drained →
      FailedEnd i s t c
  | writeFailed (out : List Byte) (k n : Nat) : i.sinkBytes s = some out → c = .ioError →
      t = raise c n { s with snk := s.snk ++ (out.take k).map .byte } → FailedEnd i s t c

theorem Ends.failedEnd {i : Instr} {s t : State} {r : Response} (h : Ends i s t)
    (hr : t.resp = some r) (herr : r.status ≠ .ok) : FailedEnd i s t r.status := by
  cases h with
  | failed c n _ _ _ =>
    cases hr
    exact .nothingMoved n rfl
  | sourceFailed f hi _ =>
    cases hr
    exact .readFailed f.moved _ hi rfl rfl
  | sourceRefused c n hi _ _ hio =>
    cases hr
    exact .readWhole n hi hio rfl
  | sinkFailed out k n hi =>
    cases hr
    exact .writeFailed out k n hi rfl rfl
  | _ =>
    cases hr
    exact absurd rfl herr

/-- An error's list is empty (30_encoding.md R81). -/
theorem FailedEnd.rlist_eq_nil {i : Instr} {s t : State} {r : Response}
    (h : FailedEnd i s t r.status) (hr : t.resp = some r) : r.rlist = [] := by
  have hraise : ∀ {c n u}, t = raise c n u → r.rlist = [] := by
    rintro c n u rfl
    cases hr
    rfl
  cases h with
  | nothingMoved _ ht | readFailed _ _ _ _ ht | readWhole _ _ _ ht | writeFailed _ _ _ _ _ ht =>
    exact hraise ht

/-- Settles O14: each way a command can fail leaves the state as R248 says, and an illegal word raises
in the state it met. -/
theorem errorsArePrecise : Obligations.ErrorsArePrecise := by
  refine ⟨fun i s t r hexec hr herr => ?_, fun s t c e hdecode hrun => ?_⟩
  · have hfailed := (ends_of_exec hexec).failedEnd hr herr
    refine ⟨hfailed.rlist_eq_nil hr, ?_⟩
    rw [← readsSource_iff]
    cases hfailed with
    | nothingMoved n ht =>
      subst ht
      exact ⟨rfl, .inl rfl, .inl rfl⟩
    | readFailed k n hi hio ht =>
      subst ht
      exact ⟨rfl, .inr ⟨hi, .inr ⟨hio, k, rfl⟩⟩, .inl rfl⟩
    | readWhole n hi hio ht =>
      subst ht
      exact ⟨rfl, .inr ⟨hi, .inl ⟨hio, rfl⟩⟩, .inl rfl⟩
    | writeFailed out k n hi hio ht =>
      subst ht
      refine ⟨rfl, .inl rfl, .inr ⟨hio, ?_⟩⟩
      rcases sinkBytes_eq_some_iff.1 hi with ⟨hwfin, rfl⟩ | ⟨w, opv, hvbenc, rfl⟩
      · exact .inl ⟨hwfin, k, rfl⟩
      · exact .inr ⟨w, opv, hvbenc, k, rfl⟩
  · rw [runCommand_of_decode_error hdecode] at hrun
    cases hrun
    rfl

/-- A failing read of the source comes before anything else that a source-reading command does. -/
theorem exec_of_readFails {i : Instr} {s : State} {f : IoFail} (h : s.io.read = some f)
    (hi : i.readsSource = true) :
    exec i s = .next (raise .ioError f.info.toNat { s with src := s.src.drop f.moved }) := by
  rcases readsSource_iff.1 hi with rfl | ⟨b, opv, rfl⟩ | ⟨w, rfl⟩ | ⟨w, rfl⟩
  · simp only [exec, execRread, srcReadAll_error h]
  · simp only [exec, execBload, srcReadAll_error h]
  · exact exec_vbdec1_of_readFails h
  · exact exec_vbdecs_of_readFails h

/-- Settles O21: the command raises the read's `IoError` in the state the read left. -/
theorem failingSourceReadComesFirst : Obligations.FailingSourceReadComesFirst :=
  fun _ _ _ hread hi => ⟨_, exec_of_readFails hread (readsSource_iff.2 hi), raise_fails _ _ rfl⟩

end Sys2Proof.Machine
end

section
/-! Proofs about reset and the host's other inputs (70_reset_and_hazards.md R270, R271, R276). -/

namespace Sys2Proof.Machine

/-- Settles O2: both resets clear the lengths of the buffers and keep their stores. -/
theorem resetLeavesTheStores : Obligations.ResetLeavesTheStores := by
  refine fun s a => ⟨fun rest t hport hstep => ?_, fun t hexec => ?_⟩
  · rw [step_of_port_reset hport] at hstep
    cases hstep
    exact ⟨rfl, rfl⟩
  · cases hexec
    exact ⟨rfl, rfl⟩

/-- The bytes of a sink whose events other than flush marks are the bytes `l`. -/
theorem filterMap_byte?_of_filter {events : List SinkEvent} {l : List Byte}
    (h : events.filter (· ≠ .flush) = l.map .byte) : events.filterMap SinkEvent.byte? = l := by
  have hmarks : ∀ e : SinkEvent, (if e ≠ .flush then e.byte? else none) = e.byte? := by
    rintro (y | _) <;> rfl
  calc events.filterMap SinkEvent.byte?
      _ = (events.filter (· ≠ .flush)).filterMap SinkEvent.byte? := by
        simp only [List.filterMap_filter, decide_eq_true_eq, hmarks]
      _ = l := by rw [h, List.filterMap_map, byte?_comp_byte, List.filterMap_some]

/-- Settles O6: each input at the front of the port selects its arm of the step; the loop back moves the
bytes between the flush marks. -/
theorem hostInputsActOnStreamsOnly : Obligations.HostInputsActOnStreamsOnly := by
  refine fun s rest => ⟨fun bytes hport => by simp only [step, hport, feedSource],
    fun n hport => by simp only [step, hport, drainSink], fun hport => ?_,
    fun hport => by simp only [step, hport], fun c hport => by simp only [step, hport],
    fun hport => by simp only [step, hport]⟩
  have hstep : step s = .next (loopBack rest s) := by simp only [step, hport]
  refine ⟨_, hstep, rfl, fun l hl => ?_⟩
  rw [loopBack, filterMap_byte?_of_filter hl]

end Sys2Proof.Machine
end
